-- ==== Sys2Proof/Word.lean ====
section
/-! DEFINITION. The word types of the ImageFFT core: bytes (pixel channels), 32-bit command words and control
registers, 64-bit sample parts (spec/00_scope.md R8). -/

namespace Sys2Proof

/-- A pixel channel (R8). -/
abbrev Byte := BitVec 8

/-- A command word or a control register as the host port carries it (R8, R56). -/
abbrev Word32 := BitVec 32

/-- One part of a complex sample: 64 raw bits, read as binary64 where a command does arithmetic (R21, R38). -/
abbrev Word64 := BitVec 64

end Sys2Proof
end

