-- ==== Sys2Proof/Config.lean ====
section
/-! DEFINITION. What is fixed for the life of one block and is not state (spec/10_state.md R40), and the free
values the spec leaves open. Every `opaque` constant here has no body: nothing in Lean can evaluate it or prove a
value of it, so whatever is proved holds for every value it may have. -/

namespace Sys2Proof

/-- The operation that produced a NaN, for the free NaN bit patterns of R106 (log entry 3). -/
inductive FpOp where
  | add | sub | mul | div | sqrt | sin | cos | log10 | floor
  deriving DecidableEq, Repr

/-- The size parameter `LOG2_NMAX` (R5), a natural number from 0 to 15. The value 10 written here is the spec's
recommended one; it is what compiled evaluation of the opaque constant below uses, and no proof can see it. -/
structure Capacity where
  log2Nmax : Fin 16 := 10
  deriving DecidableEq, Repr, Inhabited

/-- The size parameter of this block (R5, D3; log entry 4). -/
opaque Config.capacity : Capacity

/-- `LOG2_NMAX` (R5). -/
def Config.log2Nmax : Nat := Config.capacity.log2Nmax.val

/-- `NMAX = 2^LOG2_NMAX` (R5). -/
def Config.nmax : Nat := 2 ^ Config.log2Nmax

/-- The identification word of register `ID`: ASCII "IFFT" (R1, R25). -/
def Config.idWord : Word32 := 0x49464654

/-- How far, in representable values, `NUM.fsin` departs from the nearest binary64 value at each argument; the
contract's bracket cuts it off (R6, R110 item 4; log entry 5). All zeros give the reference numerics. -/
opaque Config.sinOffset : Word64 → Int

/-- The same for `NUM.fcos` (R6, R110; log entry 5). -/
opaque Config.cosOffset : Word64 → Int

/-- How far the point at which `NUM.flog10` steps up to a given result lies from the midpoint below that result,
in units of `2^-256`, for arguments from 1.0 on (R6, R111 items 4 and 5; log entry 6). All zeros give the reference
numerics. -/
opaque Config.log10CutOffset : Word64 → Int

/-- How far, in representable values, `NUM.flog10` departs from the nearest binary64 value at each argument below 1.0,
where the contract asks for no monotonicity; the bracket cuts it off (R6, R111 item 4; log entry 6). All zeros give the
reference numerics. -/
opaque Config.log10Offset : Word64 → Int

/-- The bits of the NaN that an operation draws: which command of the run it is in (`State.draws`), which operation
it is, and its operands (R106, U3; log entry 3). Bits that are no NaN are replaced where they are used. -/
opaque Config.freeNaN : Nat → FpOp → Word64 → Word64 → Word64

/-- The contents of the complex registers after the reset of the given number, by element index of space `CREG`
(R39, R262, U2; log entry 2). -/
opaque Config.resetCreg : Nat → Nat → Word64

/-- The contents of `VEC` after a reset, by element index (R39; log entry 2). -/
opaque Config.resetVec : Nat → Nat → Word64

/-- The contents of `GRID` after a reset, by element index (R39; log entry 2). -/
opaque Config.resetGrid : Nat → Nat → Word64

/-- The contents of `PIX0` after a reset, by element index (R39; log entry 2). -/
opaque Config.resetPix0 : Nat → Nat → Byte

/-- The contents of `PIX1` after a reset, by element index (R39; log entry 2). -/
opaque Config.resetPix1 : Nat → Nat → Byte

/-- The numerics record the arithmetic functions take: the open part of `NUM` (R6) and the NaN bits an operation
draws (R106). Any such record is admissible: the functions that read it keep the contract of R110 and R111. -/
structure Fpu where
  sinOffset   : Word64 → Int
  cosOffset   : Word64 → Int
  log10Cut    : Word64 → Int
  log10Offset : Word64 → Int
  nan         : FpOp → Word64 → Word64 → Word64

/-- The numerics of this block during its command number `draw`. -/
def Config.fpu (draw : Nat) : Fpu where
  sinOffset   := Config.sinOffset
  cosOffset   := Config.cosOffset
  log10Cut    := Config.log10CutOffset
  log10Offset := Config.log10Offset
  nan         := Config.freeNaN draw

/-- The reference numerics of R6: every configuration function correctly rounded. Which NaN an operation returns is
unspecified (R106); this record takes one, as U3 allows. It is used by tests only, never by the machine. -/
def Fpu.reference : Fpu where
  sinOffset   := fun _ => 0
  cosOffset   := fun _ => 0
  log10Cut    := fun _ => 0
  log10Offset := fun _ => 0
  nan         := fun _ _ _ => 0x7FF8000000000000

end Sys2Proof
end

