-- ==== Sys2Proof/Syntax.lean ====
section
/-! DEFINITION. The syntax of the machine: its fourteen commands (spec/30_encoding.md R89) and the events that reach
it through the host port (spec/20_memory.md R51) or from the platform (spec/70_reset_and_hazards.md R260). -/

namespace Sys2Proof

/-- A complex register number, 0 to 15 (R21, R83). -/
abbrev CReg := Fin 16

/-- A pixel-buffer number (R35, R86 to R88). -/
inductive PixBuf where
  | p0 | p1
  deriving DecidableEq, Repr

/-- A complex sample: a real and an imaginary part of 64 raw bits (R11, R21, R38). -/
structure Sample where
  re : Word64
  im : Word64
  deriving DecidableEq, Repr

/-- A pixel: four bytes in RGBA order (R35). -/
structure Pixel where
  r : Byte
  g : Byte
  b : Byte
  a : Byte
  deriving DecidableEq, Repr

/-- The commands, one constructor for each row of the opcode map (R89). -/
inductive Instr where
  /-- NOP (R220). -/
  | nop
  /-- CADD cd, ca, cb (R139). -/
  | cadd (cd ca cb : CReg)
  /-- CSUB cd, ca, cb (R140). -/
  | csub (cd ca cb : CReg)
  /-- CMUL cd, ca, cb (R141). -/
  | cmul (cd ca cb : CReg)
  /-- CCONJ cd, ca (R142). -/
  | cconj (cd ca : CReg)
  /-- CMAG cd, ca (R143). -/
  | cmag (cd ca : CReg)
  /-- CPOLAR cd, ca, cb: magnitude `ca.re`, angle `cb.re` (R144). -/
  | cpolar (cd ca cb : CReg)
  /-- FFT1D (`ns = false`) and FFT1D.NS (`ns = true`) (R85, R158). -/
  | fft1d (ns : Bool)
  /-- IFFT1D (R160). -/
  | ifft1d
  /-- GRAY ps (R172). -/
  | gray (ps : PixBuf)
  /-- PAD pd, ps (R175). -/
  | pad (pd ps : PixBuf)
  /-- FWD2D ps (R192). -/
  | fwd2d (ps : PixBuf)
  /-- INV2D pd (R196). -/
  | inv2d (pd : PixBuf)
  /-- VIS pd (R212). -/
  | vis (pd : PixBuf)
  deriving DecidableEq, Repr

/-- The six address spaces of the host port (R50). -/
inductive Space where
  | reg | creg | vec | grid | pix0 | pix1
  deriving DecidableEq, Repr

/-- A register index of the typed accesses, 0 to 63 (R50, R51). -/
abbrev RegIndex := Fin 64

/-- A sample index, a grid index or a pixel coordinate of the typed accesses: `i, j, x, y < NMAX` (R51). The bound is in
the type, so an index out of range cannot be written (R58). -/
abbrev Coord := Fin Config.nmax

/-- The two parts of a sample as the typed accesses name them: `RE` = 0, `IM` = 1 (R51). -/
inductive Part where
  | re | im
  deriving DecidableEq, Repr

/-- The four channels of a pixel: `R` = 0, `G` = 1, `B` = 2, `A` = 3 (R51). -/
inductive Channel where
  | r | g | b | a
  deriving DecidableEq, Repr

/-- What can happen to the block: the two host accesses of R51, addressed `sp:idx` with a byte count, and the
platform's reset (R260). An access that breaks a condition of R50 is written here too and is refused by the machine
(R55, R58). -/
inductive HostEvent where
  /-- `MemRead(sp:idx, n)`. -/
  | memRead (sp : Space) (idx n : Nat)
  /-- `MemWrite(sp:idx, n, v)`. -/
  | memWrite (sp : Space) (idx n v : Nat)
  /-- The reset event (R260). -/
  | reset
  deriving DecidableEq, Repr

/-- The reply to a host read: one whole element (R53, R222). -/
inductive Reply where
  | word (v : Word32)
  | part (v : Word64)
  | byte (v : Byte)
  deriving DecidableEq, Repr

end Sys2Proof
end

