-- ==== Sys2Proof/WellFormed.lean ====
section
/-! DEFINITION. Which terms of the syntax are meant: the conditions of the host port on an access (spec/20_memory.md
R50, R51) and the conditions on a command's operands (spec/30_encoding.md R83 to R88). -/

namespace Sys2Proof

/-- The element size of a space in bytes (R50). -/
def Space.elemBytes : Space → Nat
  | .reg => 4
  | .creg => 8
  | .vec => 8
  | .grid => 8
  | .pix0 => 1
  | .pix1 => 1

/-- How many elements a space has (R50). -/
def Space.elems : Space → Nat
  | .reg => 64
  | .creg => 32
  | .vec => 2 * Config.nmax
  | .grid => 2 * Config.nmax ^ 2
  | .pix0 => 4 * Config.nmax ^ 2
  | .pix1 => 4 * Config.nmax ^ 2

/-- The access moves exactly one whole element (R51, R55). -/
def HostEvent.sizeOk : HostEvent → Bool
  | .memRead sp _ n => n == sp.elemBytes
  | .memWrite sp _ n _ => n == sp.elemBytes
  | .reset => true

/-- The element exists (R50, R58). -/
def HostEvent.indexOk : HostEvent → Bool
  | .memRead sp idx _ => decide (idx < sp.elems)
  | .memWrite sp idx _ _ => decide (idx < sp.elems)
  | .reset => true

/-- The written value has `n` bytes (R51). -/
def HostEvent.valueOk : HostEvent → Bool
  | .memRead _ _ _ => true
  | .memWrite _ _ n v => decide (v < 2 ^ (8 * n))
  | .reset => true

/-- The access is an operation of the port (R51, R55, R58). -/
def HostEvent.wellFormed (e : HostEvent) : Bool := e.sizeOk && e.indexOk && e.valueOk

/-- A command is well formed. The operand types of `Instr` are the field ranges of R83 to R88 exactly, every value of
them is legal ("every value is legal and the three may be equal in any combination", R83; PAD may name one buffer
twice, R88), so every term is well formed (log entry 20). -/
def Instr.wellFormed : Instr → Bool
  | .nop => true
  | .cadd _ _ _ => true
  | .csub _ _ _ => true
  | .cmul _ _ _ => true
  | .cconj _ _ => true
  | .cmag _ _ => true
  | .cpolar _ _ _ => true
  | .fft1d _ => true
  | .ifft1d => true
  | .gray _ => true
  | .pad _ _ => true
  | .fwd2d _ => true
  | .inv2d _ => true
  | .vis _ => true

end Sys2Proof
end

