-- ==== Sys2Proof/Decode.lean ====
section
/-! DEFINITION. The command decoder (spec/30_encoding.md R81 to R92), total on every 32-bit word and rejecting by
name, and after it the encoder (R93) and the assembler's mnemonics. Decoding reads no state (R91). -/

namespace Sys2Proof

/-- Why a word is illegal (R90, R91): its `OP` byte is not assigned, or a bit that must be zero is set. -/
inductive Illegal where
  | unassignedOpcode (op : BitVec 8)
  | mustBeZero (w : Word32)
  deriving DecidableEq, Repr

/-- What a word is: exactly one command, or illegal (R91). -/
inductive Decoded where
  | command (i : Instr)
  | illegal (why : Illegal)
  deriving DecidableEq, Repr

/-- The field `OP = w[31:24]` (R81). -/
def opField (w : Word32) : BitVec 8 := w.extractLsb' 24 8

/-- A 4-bit register number whose low bit is bit `lo` of the word (R92). -/
def regField (w : Word32) (lo : Nat) : CReg := Fin.ofNat 16 (w.extractLsb' lo 4).toNat

/-- The destination register `cd = w[23:20]` (R92). -/
def cdField (w : Word32) : CReg := regField w 20

/-- The first source register `ca = w[19:16]` (R92). -/
def caField (w : Word32) : CReg := regField w 16

/-- The second source register `cb = w[15:12]` (R92). -/
def cbField (w : Word32) : CReg := regField w 12

/-- A 1-bit buffer number (R92). -/
def pixField (w : Word32) (bit : Nat) : PixBuf := if w.getLsbD bit then .p1 else .p0

/-- The destination buffer `pd = w[20]` (R92). -/
def pdField (w : Word32) : PixBuf := pixField w 20

/-- The source buffer `ps = w[16]` (R92). -/
def psField (w : Word32) : PixBuf := pixField w 16

/-- The flag `NS = w[0]` (R92). -/
def nsField (w : Word32) : Bool := w.getLsbD 0

/-- One row of the opcode map (R89): a word encodes the row's command exactly when `w & mask = value`. -/
structure Row where
  op    : BitVec 8
  value : Word32
  mask  : Word32
  build : Word32 → Instr

/-- The complete opcode map (R89). -/
def opcodeTable : List Row := [
  ⟨0x00, 0x00000000, 0xFFFFFFFF, fun _ => .nop⟩,
  ⟨0x10, 0x10000000, 0xFF000FFF, fun w => .cadd (cdField w) (caField w) (cbField w)⟩,
  ⟨0x11, 0x11000000, 0xFF000FFF, fun w => .csub (cdField w) (caField w) (cbField w)⟩,
  ⟨0x12, 0x12000000, 0xFF000FFF, fun w => .cmul (cdField w) (caField w) (cbField w)⟩,
  ⟨0x13, 0x13000000, 0xFF00FFFF, fun w => .cconj (cdField w) (caField w)⟩,
  ⟨0x14, 0x14000000, 0xFF00FFFF, fun w => .cmag (cdField w) (caField w)⟩,
  ⟨0x15, 0x15000000, 0xFF000FFF, fun w => .cpolar (cdField w) (caField w) (cbField w)⟩,
  ⟨0x20, 0x20000000, 0xFFFFFFFE, fun w => .fft1d (nsField w)⟩,
  ⟨0x21, 0x21000000, 0xFFFFFFFF, fun _ => .ifft1d⟩,
  ⟨0x30, 0x30000000, 0xFFFEFFFF, fun w => .gray (psField w)⟩,
  ⟨0x31, 0x31000000, 0xFFEEFFFF, fun w => .pad (pdField w) (psField w)⟩,
  ⟨0x32, 0x32000000, 0xFFFEFFFF, fun w => .fwd2d (psField w)⟩,
  ⟨0x33, 0x33000000, 0xFFEFFFFF, fun w => .inv2d (pdField w)⟩,
  ⟨0x34, 0x34000000, 0xFFEFFFFF, fun w => .vis (pdField w)⟩]

/-- The decoding algorithm (R91): find the row of the `OP` byte, then check the must-be-zero bits. -/
def decode (w : Word32) : Decoded :=
  match opcodeTable.find? (fun row => row.op == opField w) with
  | none => .illegal (.unassignedOpcode (opField w))
  | some row => if w &&& row.mask = row.value then .command (row.build w) else .illegal (.mustBeZero w)

/-- The command of a word, if it has one. -/
def Decoded.instr? : Decoded → Option Instr
  | .command i => some i
  | .illegal _ => none

/-- The host's view of the decoder: an instruction of `nbits` bits numbered as the opcode table numbers them. Every
command is one 32-bit word that reaches the block as one value, so no byte order enters (R53, R80; log entry 13). -/
def decodeTableWord (nbits w : Nat) : Option Instr :=
  if nbits ≤ 32 ∧ w < 2 ^ 32 then (decode (BitVec.ofNat 32 w)).instr? else none

/-! ### The encoder (R93) -/

/-- A register number placed at bit `lo`. -/
def regBits (r : CReg) (lo : Nat) : Word32 := BitVec.ofNat 32 r.val <<< lo

/-- A buffer number placed at a bit. -/
def pixBits (p : PixBuf) (bit : Nat) : Word32 :=
  match p with
  | .p0 => 0
  | .p1 => 1#32 <<< bit

/-- The flag `NS` in bit 0 (R85). -/
def nsBits (ns : Bool) : Word32 := if ns then 1 else 0

/-- The word of a command (R93). -/
def encode : Instr → Word32
  | .nop => 0x00000000
  | .cadd cd ca cb => 0x10000000 ||| regBits cd 20 ||| regBits ca 16 ||| regBits cb 12
  | .csub cd ca cb => 0x11000000 ||| regBits cd 20 ||| regBits ca 16 ||| regBits cb 12
  | .cmul cd ca cb => 0x12000000 ||| regBits cd 20 ||| regBits ca 16 ||| regBits cb 12
  | .cconj cd ca => 0x13000000 ||| regBits cd 20 ||| regBits ca 16
  | .cmag cd ca => 0x14000000 ||| regBits cd 20 ||| regBits ca 16
  | .cpolar cd ca cb => 0x15000000 ||| regBits cd 20 ||| regBits ca 16 ||| regBits cb 12
  | .fft1d ns => 0x20000000 ||| nsBits ns
  | .ifft1d => 0x21000000
  | .gray ps => 0x30000000 ||| pixBits ps 16
  | .pad pd ps => 0x31000000 ||| pixBits pd 20 ||| pixBits ps 16
  | .fwd2d ps => 0x32000000 ||| pixBits ps 16
  | .inv2d pd => 0x33000000 ||| pixBits pd 20
  | .vis pd => 0x34000000 ||| pixBits pd 20

/-! ### The assembler (R93), after its text has been cut into a mnemonic and operands (log entry 19) -/

/-- An assembler operand: `c0` to `c15`, or `p0`, `p1` (R93). -/
inductive AsmOperand where
  | c (r : CReg)
  | p (k : PixBuf)
  deriving DecidableEq, Repr

/-- The command an assembler line spells: mnemonic and operands, destination first (R93). `FFT1D.PS` is the one
pseudo-instruction, the same word as `FFT1D`. -/
def assemble (mnemonic : String) (operands : List AsmOperand) : Option Instr :=
  match operands with
  | [] =>
    if mnemonic = "NOP" then some .nop
    else if mnemonic = "FFT1D" then some (.fft1d false)
    else if mnemonic = "FFT1D.PS" then some (.fft1d false)
    else if mnemonic = "FFT1D.NS" then some (.fft1d true)
    else if mnemonic = "IFFT1D" then some .ifft1d
    else none
  | [.p k] =>
    if mnemonic = "GRAY" then some (.gray k)
    else if mnemonic = "FWD2D" then some (.fwd2d k)
    else if mnemonic = "INV2D" then some (.inv2d k)
    else if mnemonic = "VIS" then some (.vis k)
    else none
  | [.p pd, .p ps] => if mnemonic = "PAD" then some (.pad pd ps) else none
  | [.c cd, .c ca] =>
    if mnemonic = "CCONJ" then some (.cconj cd ca)
    else if mnemonic = "CMAG" then some (.cmag cd ca)
    else none
  | [.c cd, .c ca, .c cb] =>
    if mnemonic = "CADD" then some (.cadd cd ca cb)
    else if mnemonic = "CSUB" then some (.csub cd ca cb)
    else if mnemonic = "CMUL" then some (.cmul cd ca cb)
    else if mnemonic = "CPOLAR" then some (.cpolar cd ca cb)
    else none
  | _ => none

end Sys2Proof
end

