-- ==== Sys2Proof/Machine/State.lean ====
section
/-! DEFINITION. The state of the block (spec/10_state.md R20), the error codes of a rejection, the reasons a step
can stop, and the state after reset (R39, spec/70_reset_and_hazards.md R261, R262). -/

namespace Sys2Proof.Machine

/-- Storage of a space, sparse: pairs of an element index and the element, in ONE canonical form (indices strictly
rising, no entry equal to what an unlisted element reads as; `Mem.wf`). The element is the smallest thing an access
can name, so no byte order enters (R53; log entry 1). -/
abbrev Mem (w : Nat) := List (Nat × BitVec w)

/-- The state. The fields down to `sticky` are the spec's whole state (R20, R37); the last four are the model's own
(log entries 3, 7, 9, 10). -/
structure State where
  /-- The complex registers (R21). -/
  c : Vector Sample 16
  /-- Space `VEC`: `V[i]`, by element index `2*i + part` (R33, R52). -/
  vec : Mem 64
  /-- Space `GRID`: `G[i][j]`, by element index `2*(i*NMAX + j) + part` (R34, R52). -/
  grid : Mem 64
  /-- Space `PIX0`: `P[0]`, by element index `4*(y*NMAX + x) + ch` (R35, R52). -/
  pix0 : Mem 8
  /-- Space `PIX1`: `P[1]` (R35, R52). -/
  pix1 : Mem 8
  /-- Register `PIX0_W` (R29). -/
  pix0W : BitVec 16
  /-- Register `PIX0_H` (R29). -/
  pix0H : BitVec 16
  /-- Register `PIX1_W` (R29). -/
  pix1W : BitVec 16
  /-- Register `PIX1_H` (R29). -/
  pix1H : BitVec 16
  /-- Register `GRID_LOG2N` (R30). -/
  gridLog2n : BitVec 5
  /-- Register `VEC_LOG2N` (R31). -/
  vecLog2n : BitVec 5
  /-- `STATUS.LAST_ERR` (R23, R27). -/
  lastErr : BitVec 4
  /-- `STATUS.STICKY` (R23, R27). -/
  sticky : Bool
  /-- The model's own: how many commands were accepted; it indexes the free NaN bits (log entry 3). -/
  draws : Nat
  /-- The model's own: how many resets there were; it indexes the free reset contents (log entry 10). -/
  resets : Nat
  /-- The model's own: the events not yet taken, oldest first (log entry 7). -/
  inbox : List HostEvent
  /-- The model's own: the replies to host reads so far, oldest first (R222, R270; log entry 9). -/
  replies : List Reply
  deriving DecidableEq, Repr

/-- The causes of a rejection (R231). -/
inductive ErrCode where
  /-- `ERR_ILLEGAL_CMD` (R232). -/
  | illegalCmd
  /-- `ERR_DIM_MISMATCH` (R233). -/
  | dimMismatch
  /-- `ERR_UNSUPPORTED_SIZE` (R234). -/
  | unsupportedSize
  /-- `ERR_ALIAS` (R235). -/
  | aliased
  /-- `ERR_CAPACITY` (R236). -/
  | capacity
  deriving DecidableEq, Repr

/-- The faults that stop the machine: none. The only exceptional event of the block is the rejection of a command,
after which it goes on (R230, R242, R243), and every command terminates (R269). -/
inductive Fault where
  deriving DecidableEq, Repr

/-- The reasons a step is refused. -/
inductive Refusal where
  /-- An instruction whose meaning is not written; raised by an arm of `exec` only. Safe: no next state. -/
  | notModelled (mnemonic : String)
  /-- An access of a size other than the element size of its space: "not an operation of the port", "a model refuses
  it (no step)" (R55, U7). Raised by the port. Safe: no next state. -/
  | accessSize
  /-- An element index outside its space: "addresses nothing", "a model refuses it (no step)" (R58, U7). Raised by the
  port. Safe: no next state. -/
  | accessIndex
  /-- A written value that does not fit the `n` bytes of the access, which R51's `MemWrite(sp:idx, n, v)` cannot carry
  (log entry 11). Raised by the port. Safe: no next state. -/
  | accessValue
  deriving DecidableEq, Repr

/-- What a step or a meaning answers. -/
abbrev Result := Host.Outcome State Fault Refusal

/-- The state after reset number `n`: the control registers and `STATUS` zero (R261), every element of the data
storage at its unspecified value (R262; log entry 2). A run's earlier replies and the events still to come are no
part of the block, so a reset keeps them (log entry 10). -/
def State.afterReset (n draws : Nat) (inbox : List HostEvent) (replies : List Reply) : State where
  c := Vector.ofFn fun r => ⟨Config.resetCreg n (2 * r.val), Config.resetCreg n (2 * r.val + 1)⟩
  vec := []
  grid := []
  pix0 := []
  pix1 := []
  pix0W := 0
  pix0H := 0
  pix1W := 0
  pix1H := 0
  gridLog2n := 0
  vecLog2n := 0
  lastErr := 0
  sticky := false
  draws := draws
  resets := n
  inbox := inbox
  replies := replies

/-- The machine right after reset (R39). -/
def State.reset : State := State.afterReset 0 0 [] []

end Sys2Proof.Machine
end

