-- ==== Sys2Proof/Machine/Flags.lean ====
section
/-! DEFINITION. The two status flags (spec/10_state.md R23, R27): how an accepted and a rejected command write them,
and the word a read of `STATUS` returns. There are no condition codes and no arithmetic flags (R23, R109). -/

namespace Sys2Proof.Machine

/-- The result code of a rejection (R231). -/
def ErrCode.code : ErrCode → BitVec 4
  | .illegalCmd => 1
  | .dimMismatch => 2
  | .unsupportedSize => 3
  | .aliased => 4
  | .capacity => 5

/-- `STATUS` after an accepted command: `LAST_ERR <- 0`, `STICKY` unchanged (R221). -/
def flagsAccepted (s : State) : State := { s with lastErr := 0 }

/-- `STATUS` after a rejected command: `LAST_ERR <- code`, `STICKY <- 1` (R242). -/
def flagsRejected (e : ErrCode) (s : State) : State := { s with lastErr := e.code, sticky := true }

/-- What a read of `STATUS` returns: bit 8 is `STICKY`, bits 3:0 are `LAST_ERR`, all other bits 0 (R27). -/
def statusWord (s : State) : Word32 :=
  (if s.sticky then 1#32 <<< 8 else 0#32) ||| s.lastErr.zeroExtend 32

end Sys2Proof.Machine
end

