-- ==== Sys2Proof/Machine/Binary64.lean ====
section
/-! DEFINITION. The scalar operations of spec/40_numerics.md that are fixed, not parameters: the binary64 format, the
one rounding mode, addition, subtraction, multiplication, division, square root, negation, comparison, floor and the
conversions. Operands are converted to exact integers times a power of two, the result is computed exactly, and one
rounding at the end narrows it. -/

namespace Sys2Proof.Machine

/-- The value a bit pattern stands for (R100): a NaN, an infinity with its sign, or `(-1)^sign * mant * 2^exp` with
`mant = 0` for a zero. -/
inductive Fp where
  | nan
  | inf (sign : Bool)
  | fin (sign : Bool) (mant : Nat) (exp : Int)
  deriving DecidableEq, Repr

/-- The biased exponent, bits 62:52 (R100). -/
def expField (a : Word64) : Nat := a.toNat / 2 ^ 52 % 2048

/-- The fraction, bits 51:0 (R100). -/
def fracField (a : Word64) : Nat := a.toNat % 2 ^ 52

/-- Bits 62:0 as a number: the magnitude in the order of the representable values. -/
def magBits (a : Word64) : Nat := a.toNat % 2 ^ 63

/-- Read a bit pattern (R100). -/
def unpack (a : Word64) : Fp :=
  if expField a = 2047 then
    if fracField a = 0 then .inf a.msb else .nan
  else if expField a = 0 then .fin a.msb (fracField a) (-1074)
  else .fin a.msb (2 ^ 52 + fracField a) ((expField a : Int) - 1075)

/-- The magnitude bits of the infinities, `2047 * 2^52`. -/
def infMag : Nat := 0x7FF0000000000000

/-- A bit pattern from a sign and magnitude bits. -/
def withSign (sign : Bool) (mag : Nat) : Word64 :=
  BitVec.ofNat 64 ((if sign then 2 ^ 63 else 0) + mag)

/-- `+0.0` (R115 `F0`). -/
def F0 : Word64 := 0x0000000000000000

/-- `1.0` (R115). -/
def F1 : Word64 := 0x3FF0000000000000

/-- `100.0` (R115). -/
def F100 : Word64 := 0x4059000000000000

/-- `255.0` (R115). -/
def F255 : Word64 := 0x406FE00000000000

/-- `256.0` (R115). -/
def F256 : Word64 := 0x4070000000000000

/-- `29.9` (R115). -/
def W_R : Word64 := 0x403DE66666666666

/-- `58.7` (R115). -/
def W_G : Word64 := 0x404D59999999999A

/-- `11.4` (R115). -/
def W_B : Word64 := 0x4026CCCCCCCCCCCD

/-- The binary64 value nearest π (R115). -/
def PI64 : Word64 := 0x400921FB54442D18

/-- `-2π`, the exact doubling of `PI64` (R115). -/
def NEG_TWO_PI : Word64 := 0xC01921FB54442D18

/-! ### Rounding (R101) -/

/-- Directions of rounding a magnitude. Arithmetic uses `nearest` only (R101); `down` and `up` give the two
representable values that bracket a real result, which the contract of R110 and R111 speaks of. -/
inductive Rounding where
  | down | nearest | up
  deriving DecidableEq, Repr

/-- `m / 2^d` rounded to a natural number; `nearest` takes the even one on a tie. -/
def roundShift (dir : Rounding) (m d : Nat) : Nat :=
  match dir with
  | .down => m / 2 ^ d
  | .up => (m + (2 ^ d - 1)) / 2 ^ d
  | .nearest =>
    if 2 ^ d < 2 * (m % 2 ^ d) ∨ (2 ^ d = 2 * (m % 2 ^ d) ∧ m / 2 ^ d % 2 = 1) then m / 2 ^ d + 1 else m / 2 ^ d

/-- The exponent of the last place of the binary64 values around `m * 2^e`, `m > 0`: 52 below the leading bit, and
never below that of the subnormals (R100, R108). -/
def ulpExp (m : Nat) (e : Int) : Int := max ((m.log2 : Int) + e - 52) (-1074)

/-- The magnitude bits of `m * 2^e` rounded. A rounded significand `n` at last place `q` has the bits
`(q + 1074) * 2^52 + n` for normal and subnormal values alike, and a carry out of the significand moves into the
exponent by itself; anything at or above the infinity's bits is the infinity (R101). -/
def roundMag (dir : Rounding) (m : Nat) (e : Int) : Nat :=
  if m = 0 then 0
  else
    let q := ulpExp m e
    let n := if q ≤ e then m * 2 ^ (e - q).toNat else roundShift dir m (q - e).toNat
    min ((q + 1074).toNat * 2 ^ 52 + n) infMag

/-- `(-1)^sign * m * 2^e` rounded to nearest even (R101). -/
def pack (sign : Bool) (m : Nat) (e : Int) : Word64 := withSign sign (roundMag .nearest m e)

/-! ### NaN (R105, R106) -/

/-- R105. -/
def isNaN (a : Word64) : Bool := expField a == 2047 && fracField a != 0

/-- A NaN with the drawn bits; bits that are no NaN give one fixed NaN, so that every NaN can be drawn and nothing
else can (R106; log entry 3). -/
def asNaN (raw : Word64) : Word64 := if isNaN raw then raw else 0x7FF8000000000000

/-- The NaN an operation returns (R106). -/
def makeNaN (fp : Fpu) (op : FpOp) (a b : Word64) : Word64 := asNaN (fp.nan op a b)

/-! ### The basic operations (R102 to R108) -/

/-- R104: the sign bit inverted, nothing else changed. -/
def fneg (a : Word64) : Word64 := a ^^^ 0x8000000000000000

/-- A magnitude with a sign as an integer. -/
def signed (sign : Bool) (m : Nat) : Int := if sign then -(m : Int) else m

/-- The sum of two finite values, exact and then rounded once; an exact zero is `-0.0` only when both operands are
negative (R102, R107). -/
def addFinite (s : Bool) (m : Nat) (e : Int) (t : Bool) (n : Nat) (f : Int) : Word64 :=
  let x := min e f
  let sum := signed s (m * 2 ^ (e - x).toNat) + signed t (n * 2 ^ (f - x).toNat)
  if sum = 0 then withSign (s && t) 0 else pack (decide (sum < 0)) sum.natAbs x

/-- The sum of two values, with the NaN to return where the sum is a NaN (R102, R106). -/
def sumWith (nan a b : Word64) : Word64 :=
  match unpack a, unpack b with
  | .nan, _ => nan
  | _, .nan => nan
  | .inf s, .inf t => if s = t then a else nan
  | .inf _, .fin _ _ _ => a
  | .fin _ _ _, .inf _ => b
  | .fin s m e, .fin t n f => addFinite s m e t n f

/-- R102. -/
def fadd (fp : Fpu) (a b : Word64) : Word64 := sumWith (makeNaN fp .add a b) a b

/-- R102: `a` minus `b`, the sum with `b`'s sign inverted. -/
def fsub (fp : Fpu) (a b : Word64) : Word64 := sumWith (makeNaN fp .sub a b) a (fneg b)

/-- R102, R106, R107, R108. -/
def fmul (fp : Fpu) (a b : Word64) : Word64 :=
  match unpack a, unpack b with
  | .nan, _ => makeNaN fp .mul a b
  | _, .nan => makeNaN fp .mul a b
  | .inf s, .inf t => withSign (s ^^ t) infMag
  | .inf s, .fin t n _ => if n = 0 then makeNaN fp .mul a b else withSign (s ^^ t) infMag
  | .fin s m _, .inf t => if m = 0 then makeNaN fp .mul a b else withSign (s ^^ t) infMag
  | .fin s m e, .fin t n f => pack (s ^^ t) (m * n) (e + f)

/-- The quotient of two nonzero finite values. 110 more bits than the divisor's leave at least 57 in the quotient, and
the bit below them says whether a remainder is left, so one rounding of it is the rounding of the exact quotient. -/
def divFinite (sign : Bool) (m : Nat) (e : Int) (n : Nat) (f : Int) : Word64 :=
  let num := m * 2 ^ 110
  pack sign (2 * (num / n) + (if num % n = 0 then 0 else 1)) (e - f - 111)

/-- R102, R106, R107. -/
def fdiv (fp : Fpu) (a b : Word64) : Word64 :=
  match unpack a, unpack b with
  | .nan, _ => makeNaN fp .div a b
  | _, .nan => makeNaN fp .div a b
  | .inf _, .inf _ => makeNaN fp .div a b
  | .inf s, .fin t _ _ => withSign (s ^^ t) infMag
  | .fin s _ _, .inf t => withSign (s ^^ t) 0
  | .fin s m e, .fin t n f =>
    if n = 0 then
      if m = 0 then makeNaN fp .div a b else withSign (s ^^ t) infMag
    else if m = 0 then withSign (s ^^ t) 0
    else divFinite (s ^^ t) m e n f

/-- The largest `r + (2^i - 1)` at most with `r^2 ≤ n`, one bit at a time from bit `i - 1` down. -/
def isqrtBits (n : Nat) : Nat → Nat → Nat
  | 0, r => r
  | i + 1, r => if (r + 2 ^ i) * (r + 2 ^ i) ≤ n then isqrtBits n i (r + 2 ^ i) else isqrtBits n i r

/-- The square root of a positive finite value. The radicand is scaled by an even power of two to at least `2^128`, so
the root has more than 64 bits; the bit below them says whether the root is inexact. -/
def sqrtFinite (m : Nat) (e : Int) : Word64 :=
  let odd := e % 2
  let n := m * 2 ^ (128 + odd.toNat)
  let r := isqrtBits n 92 0
  pack false (2 * r + (if r * r = n then 0 else 1)) ((e - odd) / 2 - 65)

/-- R103. -/
def fsqrt (fp : Fpu) (a : Word64) : Word64 :=
  match unpack a with
  | .nan => makeNaN fp .sqrt a 0
  | .inf s => if s then makeNaN fp .sqrt a 0 else a
  | .fin s m e =>
    if m = 0 then a
    else if s then makeNaN fp .sqrt a 0
    else sqrtFinite m e

/-! ### Comparison (R120) -/

/-- The position of a non-NaN value in the order of the values; both zeros stand at 0. -/
def ordKey (a : Word64) : Int := signed a.msb (magBits a)

/-- `a > b` (R120). -/
def fgt (a b : Word64) : Bool := !isNaN a && !isNaN b && decide (ordKey b < ordKey a)

/-- `a ≥ b` (R120). -/
def fge (a b : Word64) : Bool := !isNaN a && !isNaN b && decide (ordKey b ≤ ordKey a)

/-- `a ≤ b` (R120). -/
def fle (a b : Word64) : Bool := !isNaN a && !isNaN b && decide (ordKey a ≤ ordKey b)

/-! ### Conversions (R112 to R114) -/

/-- The integer part of a magnitude `m * 2^e`. -/
def intPart (m : Nat) (e : Int) : Nat :=
  if 0 ≤ e then m * 2 ^ e.toNat else m / 2 ^ (-e).toNat

/-- Whether `m * 2^e` is an integer. -/
def isIntegral (m : Nat) (e : Int) : Bool :=
  decide (0 ≤ e) || m % 2 ^ (-e).toNat == 0

/-- R112. A value strictly between -1 and 0 gives `-0.0`, as the rule's own words say (log entry 12). -/
def ffloor (fp : Fpu) (a : Word64) : Word64 :=
  match unpack a with
  | .nan => makeNaN fp .floor a 0
  | .inf _ => a
  | .fin s m e =>
    if isIntegral m e then a
    else if s then
      if intPart m e = 0 then withSign true 0 else pack true (intPart m e + 1) 0
    else pack false (intPart m e) 0

/-- R113, exact for every integer of magnitude at most `2^53`. -/
def intToF64 (i : Int) : Word64 := pack (decide (i < 0)) i.natAbs 0

/-- R113: the byte read as an unsigned integer. -/
def u8ToF64 (b : Byte) : Word64 := intToF64 b.toNat

/-- R114: truncation toward zero with saturation. -/
def toU8 (v : Word64) : Byte :=
  if isNaN v then 0
  else if fge v F256 then 255
  else if fle v F0 then 0
  else
    match unpack v with
    | .fin _ m e => BitVec.ofNat 8 (intPart m e)
    | _ => 0

/-! ### Integer laws (R116, R117) -/

/-- The loop of R116 from `n`, with at most `fuel` turns. -/
def nextPow2Loop (m : Nat) : Nat → Nat → Nat
  | 0, n => n
  | fuel + 1, n => if 2 ^ n < m then nextPow2Loop m fuel (n + 1) else n

/-- `NextPow2(m)` (R116): `m` turns always suffice, since `m < 2^m`. -/
def nextPow2 (m : Nat) : Nat := 2 ^ nextPow2Loop m m 0

/-- `IsPow2(m)` (R117). -/
def isPow2 (m : Nat) : Bool := 2 ^ m.log2 == m

end Sys2Proof.Machine
end

