-- ==== Sys2Proof/Machine/Transcendental.lean ====
section
/-! DEFINITION. The three configuration functions `fsin`, `fcos`, `flog10` (spec/40_numerics.md R110, R111). Their
special values are the contract's. For every other argument the exact real result is enclosed between two numbers
computed with integers, the enclosure is rounded outwards to the bracketing binary64 values, and a free value of Config
picks among those (log entries 5, 6): so every admissible `NUM` is allowed, but for the sign of one zero (log entry 21),
and, with the offsets zero, the result is the correctly rounded one (R6 "reference numerics"). -/

namespace Sys2Proof.Machine

/-- `⌊m * 2^z⌋`. -/
def scaleFloor (m : Nat) (z : Int) : Nat :=
  if 0 ≤ z then m * 2 ^ z.toNat else m / 2 ^ (-z).toNat

/-- Keep `v` within `lo` to `hi`. -/
def clampNat (lo hi : Nat) (v : Int) : Nat := min hi (max lo v.toNat)

/-! ### Sine and cosine: halve the angle until it is tiny, then double it back with an error bound -/

/-- Approximations of `sin x * 2^P` and `cos x * 2^P`, each within `err`. -/
structure SinCos where
  s   : Int
  c   : Int
  err : Nat
  deriving DecidableEq, Repr

/-- From `x` to `2x`: `sin 2x = 2 sin x cos x`, `cos 2x = 1 - 2 sin² x`. With both parts within `err` of true values of
magnitude at most 1, the new parts are within `4 err + 2 err² / 2^P` plus the rounding of the shift. -/
def doubleAngle (P : Nat) (b : SinCos) : SinCos where
  s := 2 * b.s * b.c / 2 ^ P
  c := 2 ^ P - 2 * b.s * b.s / 2 ^ P
  err := 4 * b.err + 2 * b.err * b.err / 2 ^ P + 3

/-- `k` doublings. -/
def doubleAngles (P : Nat) : Nat → SinCos → SinCos
  | 0, b => b
  | k + 1, b => doubleAngles P k (doubleAngle P b)

/-- The binary digits kept for an angle below `2^E`. -/
def anglePrecision (E : Nat) : Nat := 6 * E + 702

/-- `sin x` and `cos x` for `x = m * 2^e` below `2^E`, scaled by `2^P` with `P = anglePrecision E`. After `E + P/3` halvings
the angle `y` is below `2^(-P/3)`, where `y - sin y ≤ y³/6` and `cos y - (1 - y²/2) ≤ y⁴/24` are below one unit. -/
def sinCos (m : Nat) (e : Int) (E : Nat) : SinCos :=
  let P := anglePrecision E
  let k := E + P / 3
  let y := scaleFloor m (e - k + P)
  doubleAngles P k ⟨y, 2 ^ P - y * y / 2 ^ (P + 1), 4⟩

/-- A magnitude enclosed by `lo * 2^e` and `hi * 2^e`, and an approximation of it. -/
structure Enclosure where
  lo  : Nat
  mid : Nat
  hi  : Nat
  exp : Int
  deriving DecidableEq, Repr

/-- The enclosure of `|v|` from an approximation `v` of a sine or cosine scaled by `2^P`; no such value is above 1. -/
def encloseUnit (v : Int) (err P : Nat) : Enclosure where
  lo := v.natAbs - err
  mid := v.natAbs
  hi := min (v.natAbs + err) (2 ^ P)
  exp := -(P : Int)

/-- The faithful results of a magnitude (R110 item 4, R111 item 4): from the largest representable value not above it to the
smallest not below it. The offset counts representable values from the nearest one; the bracket cuts it off. -/
def faithfulMag (off : Int) (x : Enclosure) : Nat :=
  clampNat (roundMag .down x.lo x.exp) (roundMag .up x.hi x.exp) ((roundMag .nearest x.mid x.exp : Int) + off)

/-- The number of binary digits of `m * 2^e` before the binary point, at least 0: `m * 2^e < 2^(angleBits m e)`. -/
def angleBits (m : Nat) (e : Int) : Nat := ((m.log2 : Int) + e + 1).toNat

/-- Whether `m * 2^e < 2^(-27)`. -/
def isTinyAngle (m : Nat) (e : Int) : Bool := decide ((m.log2 : Int) + e < -27)

/-- The sign of `sin x` for `x = m * 2^e > 0`, and the enclosure of its magnitude. Below `2^(-27)` the sine lies between
`x - x³/4` and `x`. -/
def encloseSin (m : Nat) (e : Int) : Bool × Enclosure :=
  if isTinyAngle m e then
    let scale := 2 ^ (2 - 2 * e).toNat
    (false, ⟨m * scale - m * m * m, m * scale, m * scale, 3 * e - 2⟩)
  else
    let E := angleBits m e
    let b := sinCos m e E
    (decide (b.s < 0), encloseUnit b.s b.err (anglePrecision E))

/-- The sign of `cos x` for `x = m * 2^e > 0`, and the enclosure of its magnitude. Below `2^(-27)` the cosine lies between
`1 - x²/2` and 1. -/
def encloseCos (m : Nat) (e : Int) : Bool × Enclosure :=
  if isTinyAngle m e then
    let one := 2 ^ (1 - 2 * e).toNat
    (false, ⟨one - m * m, one, one, 2 * e - 1⟩)
  else
    let E := angleBits m e
    let b := sinCos m e E
    (decide (b.c < 0), encloseUnit b.c b.err (anglePrecision E))

/-- R110 for the sine. DESIGN CHOICE (log entry 21): a result that is the zero below the least subnormal, one of the two
values that bracket the sine of `±2^-1074`, carries the sign of the real sine; item 4 does not say which zero it is. -/
def fsin (fp : Fpu) (a : Word64) : Word64 :=
  match unpack a with
  | .nan => makeNaN fp .sin a 0
  | .inf _ => makeNaN fp .sin a 0
  | .fin s m e =>
    if m = 0 then a
    else withSign (s ^^ (encloseSin m e).1) (faithfulMag (fp.sinOffset a) (encloseSin m e).2)

/-- R110 for the cosine. -/
def fcos (fp : Fpu) (a : Word64) : Word64 :=
  match unpack a with
  | .nan => makeNaN fp .cos a 0
  | .inf _ => makeNaN fp .cos a 0
  | .fin _ m e =>
    if m = 0 then F1
    else withSign (encloseCos m e).1 (faithfulMag (fp.cosOffset a) (encloseCos m e).2)

/-! ### The decimal logarithm: the binary logarithm by repeated squaring, divided by that of ten -/

/-- The fraction digits kept of a binary logarithm; results are scaled by `2^logDigits`. -/
def logDigits : Nat := 256

/-- The binary digits kept of the number being squared. -/
def logPrecision : Nat := 512

/-- `x / 2^d` rounded down, or up. -/
def shiftTo (up : Bool) (x d : Nat) : Nat := if up then (x + (2 ^ d - 1)) / 2 ^ d else x / 2 ^ d

/-- `n` more digits of the binary logarithm of `y / 2^logPrecision`, a number from 1 to 2, after the digits `acc`. All
roundings go one way, so the digits are a lower bound, or an upper bound when one is added to the last. -/
def log2Digits (up : Bool) : Nat → Nat → Nat → Nat
  | 0, _, acc => acc
  | n + 1, y, acc =>
    let z := shiftTo up (y * y) logPrecision
    if 2 ^ (logPrecision + 1) ≤ z then log2Digits up n (shiftTo up z 1) (2 * acc + 1)
    else log2Digits up n z (2 * acc)

/-- A lower bound of the binary logarithm of `m / 2^(log2 m)`, scaled. -/
def log2FracLo (m : Nat) : Nat := log2Digits false logDigits (m * 2 ^ (logPrecision - m.log2)) 0

/-- An upper bound of the same. -/
def log2FracHi (m : Nat) : Nat := log2Digits true logDigits (m * 2 ^ (logPrecision - m.log2)) 0 + 1

/-- A lower bound of the binary logarithm of ten, scaled: ten is `5/4 * 2^3`. -/
def log2TenLo : Nat := 3 * 2 ^ logDigits + log2FracLo 5

/-- An upper bound of the same. -/
def log2TenHi : Nat := 3 * 2 ^ logDigits + log2FracHi 5

/-- From bounds of a nonnegative binary logarithm to bounds of the decimal one. -/
def toLog10Lo (lo : Nat) : Nat := lo * 2 ^ logDigits / log2TenHi

/-- The upper bound. -/
def toLog10Hi (hi : Nat) : Nat := (hi * 2 ^ logDigits + (log2TenLo - 1)) / log2TenLo

/-- The largest `d` with `10^d ≤ n`, at most `fuel`, for `n ≥ 1`. -/
def floorLog10 : Nat → Nat → Nat
  | 0, _ => 0
  | fuel + 1, n => if 10 ≤ n then floorLog10 fuel (n / 10) + 1 else 0

/-- Whether `m * 2^e` is exactly `10^d`. -/
def isPow10 (m : Nat) (e : Int) (d : Nat) : Bool := isIntegral m e && intPart m e == 10 ^ d

/-- The enclosure of `log10 (m * 2^e)` for `m * 2^e ≥ 1`, within the powers of ten around the argument. At a power of ten
the two bounds meet, so the exact result is returned (R111 items 2 and 4). -/
def encloseLog10 (m : Nat) (e : Int) : Enclosure :=
  let E := ((m.log2 : Int) + e).toNat
  let d := floorLog10 309 (intPart m e)
  let c := if isPow10 m e d then d else d + 1
  let lo := max (toLog10Lo (E * 2 ^ logDigits + log2FracLo m)) (d * 2 ^ logDigits)
  let hi := min (toLog10Hi (E * 2 ^ logDigits + log2FracHi m)) (c * 2 ^ logDigits)
  ⟨lo, lo, hi, -(logDigits : Int)⟩

/-- The enclosure of `-log10 (m * 2^e)` for `m * 2^e < 1`; there the exact result is never representable, as no negative
power of ten is a binary64 value. -/
def encloseNegLog10 (m : Nat) (e : Int) : Enclosure :=
  let E := (-((m.log2 : Int) + e)).toNat
  let lo := toLog10Lo (E * 2 ^ logDigits - log2FracHi m)
  let hi := toLog10Hi (E * 2 ^ logDigits - log2FracLo m)
  ⟨lo, lo, hi, -(logDigits : Int)⟩

/-- Where the logarithm from 1.0 on steps up to the result `v + 1`: the midpoint between `v` and `v + 1`, scaled by
`2^logDigits`, moved by the free offset of the upper value. -/
def log10Cut (off : Word64 → Int) (v : Nat) : Int :=
  match unpack (BitVec.ofNat 64 v) with
  | .fin _ m e => (scaleFloor (2 * m + 1) (e - 1 + logDigits) : Int) + off (BitVec.ofNat 64 (v + 1))
  | _ => off (BitVec.ofNat 64 (v + 1))

/-- Walk up the representable values while the logarithm has reached the cut below the next one. Whatever the cuts are,
a larger logarithm walks at least as far, so the result is monotone (R111 item 5). -/
def log10Walk (off : Word64 → Int) (x : Nat) : Nat → Nat → Nat
  | 0, v => v
  | fuel + 1, v => if log10Cut off v ≤ x then log10Walk off x fuel (v + 1) else v

/-- The faithful results of an enclosed logarithm from 1.0 on, picked by the cuts. -/
def faithfulLog (off : Word64 → Int) (x : Enclosure) : Nat :=
  let lo := roundMag .down x.lo x.exp
  log10Walk off x.mid (roundMag .up x.hi x.exp - lo) lo

/-- R111. From 1.0 on free cut points pick the result, so that it is monotone (item 5); below 1.0, where the rule asks for
no monotonicity, a free offset of the argument alone picks it, so nothing ties the two sides of 1.0 (log entry 6). -/
def flog10 (fp : Fpu) (a : Word64) : Word64 :=
  match unpack a with
  | .nan => makeNaN fp .log10 a 0
  | .inf s => if s then makeNaN fp .log10 a 0 else a
  | .fin s m e =>
    if m = 0 then withSign true infMag
    else if s then makeNaN fp .log10 a 0
    else if 0 ≤ (m.log2 : Int) + e then withSign false (faithfulLog fp.log10Cut (encloseLog10 m e))
    else withSign true (faithfulMag (fp.log10Offset a) (encloseNegLog10 m e))

end Sys2Proof.Machine
end

