-- ==== Sys2Proof/Machine/Complex.lean ====
section
/-! DEFINITION. The complex functions of spec/41_complex_unit.md R130 to R137, which the commands of every family
call. -/

namespace Sys2Proof.Machine

/-- The zero sample, both parts `+0.0` (R151). -/
def zeroSample : Sample := ⟨F0, F0⟩

/-- R130. -/
def Cadd (fp : Fpu) (a b : Sample) : Sample := ⟨fadd fp a.re b.re, fadd fp a.im b.im⟩

/-- R131. -/
def Csub (fp : Fpu) (a b : Sample) : Sample := ⟨fsub fp a.re b.re, fsub fp a.im b.im⟩

/-- R132: four rounded products, one rounded difference, one rounded sum. -/
def Cmul (fp : Fpu) (a b : Sample) : Sample where
  re := fsub fp (fmul fp a.re b.re) (fmul fp a.im b.im)
  im := fadd fp (fmul fp a.re b.im) (fmul fp a.im b.re)

/-- R133. -/
def Cconj (a : Sample) : Sample := ⟨a.re, fneg a.im⟩

/-- R134. -/
def Cmag (fp : Fpu) (a : Sample) : Word64 :=
  fsqrt fp (fadd fp (fmul fp a.re a.re) (fmul fp a.im a.im))

/-- R135: magnitude `m`, angle `t` in radians. -/
def Cpolar (fp : Fpu) (m t : Word64) : Sample := ⟨fmul fp m (fcos fp t), fmul fp m (fsin fp t)⟩

/-- R136. -/
def CdivR (fp : Fpu) (a : Sample) (d : Word64) : Sample := ⟨fdiv fp a.re d, fdiv fp a.im d⟩

/-- R137. -/
def CisNaN (a : Sample) : Bool := isNaN a.re || isNaN a.im

end Sys2Proof.Machine
end

