-- ==== Sys2Proof/Machine/Operands.lean ====
section
/-! DEFINITION. The operands of the commands (spec/30_encoding.md R92): complex registers, the flag `NS`, the buffer a
`ps` or `pd` field names with its two dimension registers, and the numerics a command computes with. -/

namespace Sys2Proof.Machine

/-- `c[r]` (R9, R21). -/
def readC (s : State) (r : CReg) : Sample := s.c.get r

/-- `c[r] <- v` (R9, R21): no register is hardwired. -/
def writeC (r : CReg) (v : Sample) (s : State) : State := { s with c := s.c.set r.val v r.isLt }

/-- `phaseShift = (NS == 0)` (R92). -/
def phaseShift (ns : Bool) : Bool := !ns

/-- The numerics of the command that runs now: `NUM` and the NaN bits of this command (R6, R106; log entry 3). -/
def fpuOf (s : State) : Fpu := Config.fpu s.draws

/-- `PIXk_W` as a number (R29). -/
def pixW (s : State) : PixBuf → Nat
  | .p0 => s.pix0W.toNat
  | .p1 => s.pix1W.toNat

/-- `PIXk_H` as a number (R29). -/
def pixH (s : State) : PixBuf → Nat
  | .p0 => s.pix0H.toNat
  | .p1 => s.pix1H.toNat

/-- The storage of pixel buffer `k` (R35). -/
def pixMem (s : State) : PixBuf → Mem 8
  | .p0 => s.pix0
  | .p1 => s.pix1

/-- The storage of pixel buffer `k` replaced. -/
def setPixMem (k : PixBuf) (m : Mem 8) (s : State) : State :=
  match k with
  | .p0 => { s with pix0 := m }
  | .p1 => { s with pix1 := m }

/-- `PIXk_W <- side`, `PIXk_H <- side`, as PAD, INV2D and VIS do (R29). -/
def setPixDims (k : PixBuf) (side : Nat) (s : State) : State :=
  match k with
  | .p0 => { s with pix0W := BitVec.ofNat 16 side, pix0H := BitVec.ofNat 16 side }
  | .p1 => { s with pix1W := BitVec.ofNat 16 side, pix1H := BitVec.ofNat 16 side }

/-- `VEC_LOG2N` as a number (R31). -/
def vecLog (s : State) : Nat := s.vecLog2n.toNat

/-- `GRID_LOG2N` as a number (R30). -/
def gridLog (s : State) : Nat := s.gridLog2n.toNat

/-- `GRID_LOG2N <- n`, as GRAY and FWD2D do (R30). -/
def setGridLog (n : Nat) (s : State) : State := { s with gridLog2n := BitVec.ofNat 5 n }

end Sys2Proof.Machine
end

