-- ==== Sys2Proof/Machine/Ops.lean ====
section
/-! DEFINITION. The named operations over storage (spec/20_memory.md R50 to R52, R58, R59, spec/10_state.md R33 to R36)
and the rejection of a command, the only exception of the block (spec/60_exceptions.md R230, R242), beside the normal
completion (spec/46_system.md R221). There is no return from a rejection (R243). -/

namespace Sys2Proof.Machine

/-! ### Sparse storage in canonical form (log entry 1) -/

/-- What an unlisted element of `VEC` reads as: its unspecified reset value (R39, R59). -/
def vecBackground (s : State) : Nat → Word64 := Config.resetVec s.resets

/-- What an unlisted element of `GRID` reads as (R39, R59). -/
def gridBackground (s : State) : Nat → Word64 := Config.resetGrid s.resets

/-- What an unlisted element of a pixel buffer reads as (R39, R59). -/
def pixBackground (s : State) : PixBuf → Nat → Byte
  | .p0 => Config.resetPix0 s.resets
  | .p1 => Config.resetPix1 s.resets

/-- Read the element of index `i`: the listed one, else the background. -/
def Mem.read {w : Nat} (bg : Nat → BitVec w) (i : Nat) : Mem w → BitVec w
  | [] => bg i
  | (j, u) :: rest => if i = j then u else Mem.read bg i rest

/-- Write the element of index `i`; writing what the background holds removes the entry. -/
def Mem.write {w : Nat} (bg : Nat → BitVec w) (i : Nat) (v : BitVec w) : Mem w → Mem w
  | [] => if v = bg i then [] else [(i, v)]
  | (j, u) :: rest =>
    if j < i then (j, u) :: Mem.write bg i v rest
    else if j = i then (if v = bg i then rest else (i, v) :: rest)
    else (if v = bg i then (j, u) :: rest else (i, v) :: (j, u) :: rest)

/-- Write a list of elements, the last of the list first. -/
def Mem.writeAll {w : Nat} (bg : Nat → BitVec w) (updates : List (Nat × BitVec w)) (m : Mem w) : Mem w :=
  updates.foldr (fun u acc => Mem.write bg u.1 u.2 acc) m

/-- The canonical form: indices strictly rising, and no entry equal to the background. -/
def Mem.wf {w : Nat} (bg : Nat → BitVec w) (m : Mem w) : Bool :=
  decide (m.Pairwise fun a b => a.1 < b.1) && m.all fun e => e.2 != bg e.1

/-- Every listed index is below a bound. -/
def Mem.below {w : Nat} (bound : Nat) (m : Mem w) : Bool := m.all fun e => decide (e.1 < bound)

/-! ### Element indices (R52) -/

/-- `RE` = 0, `IM` = 1 (R51). -/
def partIndex : Part → Nat
  | .re => 0
  | .im => 1

/-- `R` = 0, `G` = 1, `B` = 2, `A` = 3 (R51). -/
def channelIndex : Channel → Nat
  | .r => 0
  | .g => 1
  | .b => 2
  | .a => 3

/-- `CREG : idx = 2*r + part` (R52). -/
def cregIndex (r : CReg) (part : Part) : Nat := 2 * r.val + partIndex part

/-- `VEC : idx = 2*i + part` (R52). -/
def vecIndex (i : Nat) (part : Part) : Nat := 2 * i + partIndex part

/-- `GRID : idx = 2*(i*NMAX + j) + part` (R52). -/
def gridIndex (i j : Nat) (part : Part) : Nat := 2 * (i * Config.nmax + j) + partIndex part

/-- `PIXk : idx = 4*(y*NMAX + x) + ch` (R52). -/
def pixIndex (x y : Nat) (ch : Channel) : Nat := 4 * (y * Config.nmax + x) + channelIndex ch

/-! ### Samples and pixels in the buffers (R33 to R35) -/

/-- `V[i]` (R33). -/
def readVec (s : State) (i : Nat) : Sample where
  re := Mem.read (vecBackground s) (vecIndex i .re) s.vec
  im := Mem.read (vecBackground s) (vecIndex i .im) s.vec

/-- `G[i][j]` (R34). -/
def readGrid (s : State) (i j : Nat) : Sample where
  re := Mem.read (gridBackground s) (gridIndex i j .re) s.grid
  im := Mem.read (gridBackground s) (gridIndex i j .im) s.grid

/-- One channel of `P[k](x, y)` (R35). -/
def readChannel (s : State) (k : PixBuf) (x y : Nat) (ch : Channel) : Byte :=
  Mem.read (pixBackground s k) (pixIndex x y ch) (pixMem s k)

/-- `P[k](x, y)` (R35). -/
def readPixel (s : State) (k : PixBuf) (x y : Nat) : Pixel where
  r := readChannel s k x y .r
  g := readChannel s k x y .g
  b := readChannel s k x y .b
  a := readChannel s k x y .a

/-- The two elements of a sample of `VEC`. -/
def vecElements (i : Nat) (v : Sample) : List (Nat × Word64) :=
  [(vecIndex i .re, v.re), (vecIndex i .im, v.im)]

/-- The two elements of a sample of `GRID`. -/
def gridElements (i j : Nat) (v : Sample) : List (Nat × Word64) :=
  [(gridIndex i j .re, v.re), (gridIndex i j .im, v.im)]

/-- The four elements of a pixel. -/
def pixElements (x y : Nat) (p : Pixel) : List (Nat × Byte) :=
  [(pixIndex x y .r, p.r), (pixIndex x y .g, p.g), (pixIndex x y .b, p.b), (pixIndex x y .a, p.a)]

/-- A sequence of samples: what D00's 1D contracts take and return (R33). -/
abbrev Samples := List Sample

/-- A square grid of samples as a list of its rows, a row being a first-index slice (R34, R190). -/
abbrev SampleGrid := List Samples

/-- Element `i` of a sequence. -/
def sampleAt (y : Samples) (i : Nat) : Sample := y.getD i zeroSample

/-- Element `[i][j]` of a grid. -/
def gridAt (a : SampleGrid) (i j : Nat) : Sample := sampleAt (a.getD i []) j

/-- `[ V[0], ..., V[n-1] ]`. -/
def activeVec (s : State) (n : Nat) : Samples := (List.range n).map fun i => readVec s i

/-- The elements of `y[i]` for `i < n`. -/
def vecUpdates (n : Nat) (y : Samples) : List (Nat × Word64) :=
  (List.range n).flatMap fun i => vecElements i (sampleAt y i)

/-- `for i < n: V[i] <- y[i]` (R158). -/
def writeVec (n : Nat) (y : Samples) (s : State) : State :=
  { s with vec := Mem.writeAll (vecBackground s) (vecUpdates n y) s.vec }

/-- `[ G[i][j] for i, j < N ]`. -/
def activeGrid (s : State) (n : Nat) : SampleGrid :=
  (List.range n).map fun i => (List.range n).map fun j => readGrid s i j

/-- The elements of `a[i][j]` for `i, j < n`. -/
def gridUpdates (n : Nat) (a : SampleGrid) : List (Nat × Word64) :=
  (List.range n).flatMap fun i => (List.range n).flatMap fun j => gridElements i j (gridAt a i j)

/-- `for i < N, for j < N: G[i][j] <- a[i][j]` (R172, R192). -/
def writeGrid (n : Nat) (a : SampleGrid) (s : State) : State :=
  { s with grid := Mem.writeAll (gridBackground s) (gridUpdates n a) s.grid }

/-- The elements of `q(x, y)` for `x, y < n`. -/
def pixUpdates (n : Nat) (q : Nat → Nat → Pixel) : List (Nat × Byte) :=
  (List.range n).flatMap fun y => (List.range n).flatMap fun x => pixElements x y (q x y)

/-- `for x < N, for y < N: P[k](x, y) <- q(x, y)` (R175, R196, R212). -/
def writePixels (k : PixBuf) (n : Nat) (q : Nat → Nat → Pixel) (s : State) : State :=
  setPixMem k (Mem.writeAll (pixBackground s k) (pixUpdates n q) (pixMem s k)) s

/-! ### Completing a command (R221) -/

/-- Rejection, the one exception (R230, R242): it writes `STATUS` and nothing else. -/
def reject (e : ErrCode) (s : State) : State := flagsRejected e s

/-- Normal completion (R221): `LAST_ERR <- 0`. The count of accepted commands indexes the NaN bits of the next one
(log entry 3). -/
def accept (s : State) : State := { flagsAccepted s with draws := s.draws + 1 }

/-- Run the body of a decoded command (R221): a body raises its rejection before its first write, so it either gives
the state with all its writes or none. -/
def runBody (body : State → Except ErrCode State) (s : State) : Result :=
  match body s with
  | .error e => .next (reject e s)
  | .ok s' => .next (accept s')

end Sys2Proof.Machine
end

