-- ==== Sys2Proof/Machine/ComplexUnit.lean ====
section
/-! DEFINITION. The six commands of the complex arithmetic unit (spec/41_complex_unit.md R138 to R144). All source
registers are read before the destination is written; none of the six is ever rejected (R138). -/

namespace Sys2Proof.Machine

/-- CADD cd, ca, cb (R139). -/
def execCadd (cd ca cb : CReg) (s : State) : Result :=
  runBody (fun t => .ok (writeC cd (Cadd (fpuOf t) (readC t ca) (readC t cb)) t)) s

/-- CSUB cd, ca, cb: `ca` minus `cb` (R140). -/
def execCsub (cd ca cb : CReg) (s : State) : Result :=
  runBody (fun t => .ok (writeC cd (Csub (fpuOf t) (readC t ca) (readC t cb)) t)) s

/-- CMUL cd, ca, cb (R141). -/
def execCmul (cd ca cb : CReg) (s : State) : Result :=
  runBody (fun t => .ok (writeC cd (Cmul (fpuOf t) (readC t ca) (readC t cb)) t)) s

/-- CCONJ cd, ca (R142). -/
def execCconj (cd ca : CReg) (s : State) : Result :=
  runBody (fun t => .ok (writeC cd (Cconj (readC t ca)) t)) s

/-- CMAG cd, ca: the magnitude in the real part, positive zero in the imaginary part (R143). -/
def execCmag (cd ca : CReg) (s : State) : Result :=
  runBody (fun t => .ok (writeC cd ⟨Cmag (fpuOf t) (readC t ca), F0⟩ t)) s

/-- CPOLAR cd, ca, cb: magnitude `c[ca].re`, angle `c[cb].re`, both imaginary parts ignored (R144). -/
def execCpolar (cd ca cb : CReg) (s : State) : Result :=
  runBody (fun t => .ok (writeC cd (Cpolar (fpuOf t) (readC t ca).re (readC t cb).re) t)) s

end Sys2Proof.Machine
end

