-- ==== Sys2Proof/Machine/Fft1d.lean ====
section
/-! DEFINITION. The radix-2 one-dimensional transform and its inverse (spec/42_fft1d.md): the recursive functions, which
are normative, the iterative form the spec permits (R156), and the commands FFT1D and IFFT1D. A length is given by its
base-2 logarithm, so no other length can be expressed (R31, R155 (e); log entry 16). -/

namespace Sys2Proof.Machine

/-- The samples at even indices, in order (R152). -/
def evens : Samples → Samples
  | [] => []
  | [a] => [a]
  | a :: _ :: rest => a :: evens rest

/-- The samples at odd indices, in order (R152). -/
def odds : Samples → Samples
  | [] => []
  | [_] => []
  | _ :: b :: rest => b :: odds rest

/-- The base case with the NaN guard: a sample with a NaN in either part becomes `(+0.0, +0.0)` (R151). -/
def guardNaN (x : Sample) : Sample := if CisNaN x then zeroSample else x

/-- The phase at position `k` of a level whose half length is `h`: the only signed integer of the block (R153, R118). -/
def phaseOf (ps : Bool) (h k : Nat) : Int := if ps then (k : Int) - h else k

/-- The twiddle factor at position `k` of a level whose half length is `h` (R153): `omega = -2π / n` with `n = 2h`, the
angle `omega * phase`, the unit-magnitude complex number at that angle. -/
def twiddle (fp : Fpu) (ps : Bool) (h k : Nat) : Sample :=
  Cpolar fp F1 (fmul fp (fdiv fp NEG_TWO_PI (intToF64 (2 * h : Nat))) (intToF64 (phaseOf ps h k)))

/-- The odd half multiplied by the twiddle factors, position by position from `k` on (R153). -/
def twiddled (fp : Fpu) (ps : Bool) (h : Nat) : Nat → Samples → Samples
  | _, [] => []
  | k, o :: rest => Cmul fp o (twiddle fp ps h k) :: twiddled fp ps h (k + 1) rest

/-- `Fft1(x, ps)` for `x` of length `2^L` (R150). The combination (R154) is `y[k] = E[k] + t[k]`,
`y[k + h] = E[k] - t[k]` with the same `t` in both. -/
def Fft1 (fp : Fpu) (ps : Bool) : Nat → Samples → Samples
  | 0, x => x.map guardNaN
  | L + 1, x =>
    let E := Fft1 fp ps L (evens x)
    let t := twiddled fp ps (2 ^ L) 0 (Fft1 fp ps L (odds x))
    List.zipWith (Cadd fp) E t ++ List.zipWith (Csub fp) E t

/-- `Ifft1(X)` (R159): conjugate, transform with `phaseShift = false`, conjugate; no division. -/
def Ifft1 (fp : Fpu) (L : Nat) (x : Samples) : Samples :=
  (Fft1 fp false L (x.map Cconj)).map Cconj

/-! ### The iterative form of R156 -/

/-- `bitrev_L(i)`: the `L`-bit binary representation of `i` reversed (R152, R156). -/
def bitrev : Nat → Nat → Nat
  | 0, _ => 0
  | L + 1, i => (i % 2) * 2 ^ L + bitrev L (i / 2)

/-- The leaves: the guarded input samples in bit-reversed order (R156). -/
def fftLeaves (L : Nat) (x : Samples) : Samples :=
  (List.range (2 ^ L)).map fun i => guardNaN (sampleAt x (bitrev L i))

/-- One level of R156, of current length `m = 2h`. Position `i` lies in the block that starts at `i - i % m`; in its first
half it becomes `e + t`, in its second half `e - t`. Each pair of positions is read and written by one turn of the
inner loops, so the in-place loops compute exactly this. -/
def fftStage (fp : Fpu) (ps : Bool) (h n : Nat) (a : Samples) : Samples :=
  (List.range n).map fun i =>
    let k := i % h
    let base := i - i % (2 * h)
    let t := Cmul fp (sampleAt a (base + k + h)) (twiddle fp ps h k)
    if i % (2 * h) < h then Cadd fp (sampleAt a (base + k)) t else Csub fp (sampleAt a (base + k)) t

/-- The levels with half lengths `1, 2, 4, ..., 2^(levels-1)`, in that order (R156). -/
def fftStages (fp : Fpu) (ps : Bool) (n : Nat) : Nat → Samples → Samples
  | 0, a => a
  | levels + 1, a => fftStage fp ps (2 ^ levels) n (fftStages fp ps n levels a)

/-- `FftIter(x, ps)` for `x` of length `2^L` (R156). -/
def FftIter (fp : Fpu) (ps : Bool) (L : Nat) (x : Samples) : Samples :=
  fftStages fp ps (2 ^ L) L (fftLeaves L x)

/-! ### The commands -/

/-- The body of FFT1D (R158). -/
def bodyFft1d (ns : Bool) (s : State) : Except ErrCode State :=
  if Config.log2Nmax < vecLog s then .error .capacity
  else
    .ok (writeVec (2 ^ vecLog s) (Fft1 (fpuOf s) (phaseShift ns) (vecLog s) (activeVec s (2 ^ vecLog s))) s)

/-- FFT1D and FFT1D.NS (R158). -/
def execFft1d (ns : Bool) (s : State) : Result := runBody (bodyFft1d ns) s

/-- The body of IFFT1D (R160). -/
def bodyIfft1d (s : State) : Except ErrCode State :=
  if Config.log2Nmax < vecLog s then .error .capacity
  else .ok (writeVec (2 ^ vecLog s) (Ifft1 (fpuOf s) (vecLog s) (activeVec s (2 ^ vecLog s))) s)

/-- IFFT1D (R160). -/
def execIfft1d (s : State) : Result := runBody bodyIfft1d s

end Sys2Proof.Machine
end

