-- ==== Sys2Proof/Machine/GrayPad.lean ====
section
/-! DEFINITION. Grayscale extraction and padding (spec/43_grayscale_padding.md): the functions `Luma`, `Gray`, `Pad`,
`CheckSquarePow2` and the commands GRAY and PAD. -/

namespace Sys2Proof.Machine

/-- `Luma(r, g, b)` (R170): three products, two sums from the left, one division, each rounded. -/
def Luma (fp : Fpu) (r g b : Byte) : Word64 :=
  let p1 := fmul fp W_R (u8ToF64 r)
  let p2 := fmul fp W_G (u8ToF64 g)
  let p3 := fmul fp W_B (u8ToF64 b)
  fdiv fp (fadd fp (fadd fp p1 p2) p3) F100

/-- The sample of a pixel: its luma and `+0.0`; alpha is not read (R171). -/
def graySample (fp : Fpu) (p : Pixel) : Sample := ⟨Luma fp p.r p.g p.b, F0⟩

/-- `Gray(P, S)`: `A[x][y]` is the sample of `P(x, y)`, the column first (R171). -/
def Gray (fp : Fpu) (P : Nat → Nat → Pixel) (side : Nat) : SampleGrid :=
  (List.range side).map fun x => (List.range side).map fun y => graySample fp (P x y)

/-- `CheckSquarePow2(W, H)` (R173): capacity, then squareness, then power of two; it answers `Log2(W)`. -/
def CheckSquarePow2 (W H : Nat) : Except ErrCode Nat :=
  if Config.nmax < W ∨ Config.nmax < H then .error .capacity
  else if W ≠ H then .error .dimMismatch
  else if isPow2 W then .ok W.log2
  else .error .unsupportedSize

/-- The body of GRAY (R172). -/
def bodyGray (ps : PixBuf) (s : State) : Except ErrCode State :=
  match CheckSquarePow2 (pixW s ps) (pixH s ps) with
  | .error e => .error e
  | .ok n => .ok (setGridLog n (writeGrid (pixW s ps) (Gray (fpuOf s) (readPixel s ps) (pixW s ps)) s))

/-- GRAY ps (R172). -/
def execGray (ps : PixBuf) (s : State) : Result := runBody (bodyGray ps) s

/-- Opaque white (R174). -/
def whitePixel : Pixel := ⟨255, 255, 255, 255⟩

/-- The side of the padded canvas (R174). -/
def padSide (W H : Nat) : Nat := nextPow2 (max W H)

/-- The padded canvas (R174): the content centred, left and top margins rounded down, all four bytes copied unchanged,
the rest opaque white. -/
def padPixel (P : Nat → Nat → Pixel) (W H : Nat) (x y : Nat) : Pixel :=
  let ox := (padSide W H - W) / 2
  let oy := (padSide W H - H) / 2
  if ox ≤ x ∧ x < ox + W ∧ oy ≤ y ∧ y < oy + H then P (x - ox) (y - oy) else whitePixel

/-- The body of PAD (R175): alias, then capacity. -/
def bodyPad (pd ps : PixBuf) (s : State) : Except ErrCode State :=
  if pd = ps then .error .aliased
  else if Config.nmax < pixW s ps ∨ Config.nmax < pixH s ps then .error .capacity
  else
    let side := padSide (pixW s ps) (pixH s ps)
    .ok (setPixDims pd side (writePixels pd side (padPixel (readPixel s ps) (pixW s ps) (pixH s ps)) s))

/-- PAD pd, ps (R175). -/
def execPad (pd ps : PixBuf) (s : State) : Result := runBody (bodyPad pd ps) s

end Sys2Proof.Machine
end

