-- ==== Sys2Proof/Machine/Fft2d.lean ====
section
/-! DEFINITION. The two-dimensional forward and inverse transforms (spec/44_fft2d.md): the grid functions and the
commands FWD2D and INV2D. -/

namespace Sys2Proof.Machine

/-- `Transpose(B, N)`: `C[j][i] = B[i][j]`, each sample copied (R191). -/
def Transpose (n : Nat) (b : SampleGrid) : SampleGrid :=
  (List.range n).map fun j => (List.range n).map fun i => gridAt b i j

/-- `Fwd2DGrid(A, N)` with `N = 2^L` (R190): transform the rows, transpose, transform the rows; no further transpose. -/
def Fwd2DGrid (fp : Fpu) (L : Nat) (a : SampleGrid) : SampleGrid :=
  (Transpose (2 ^ L) (a.map (Fft1 fp true L))).map (Fft1 fp true L)

/-- `Inv2DGrid(S, N)` with `N = 2^L` (R194): inverse of the rows, transpose, division by `N²`, inverse of the rows. -/
def Inv2DGrid (fp : Fpu) (L : Nat) (g : SampleGrid) : SampleGrid :=
  let d := intToF64 (2 ^ L * 2 ^ L : Nat)
  let t := (Transpose (2 ^ L) (g.map (Ifft1 fp L))).map fun row => row.map fun z => CdivR fp z d
  t.map (Ifft1 fp L)

/-- The output pixel of a sample: its magnitude truncated to a byte in the three colours, alpha opaque (R195). -/
def magPixel (fp : Fpu) (z : Sample) : Pixel :=
  let b := toU8 (Cmag fp z)
  ⟨b, b, b, 255⟩

/-- The body of FWD2D (R192). -/
def bodyFwd2d (ps : PixBuf) (s : State) : Except ErrCode State :=
  match CheckSquarePow2 (pixW s ps) (pixH s ps) with
  | .error e => .error e
  | .ok n =>
    .ok (setGridLog n (writeGrid (pixW s ps)
      (Fwd2DGrid (fpuOf s) n (Gray (fpuOf s) (readPixel s ps) (pixW s ps))) s))

/-- FWD2D ps (R192). -/
def execFwd2d (ps : PixBuf) (s : State) : Result := runBody (bodyFwd2d ps) s

/-- The body of INV2D (R196). -/
def bodyInv2d (pd : PixBuf) (s : State) : Except ErrCode State :=
  if Config.log2Nmax < gridLog s then .error .capacity
  else
    let n := 2 ^ gridLog s
    let q := Inv2DGrid (fpuOf s) (gridLog s) (activeGrid s n)
    .ok (setPixDims pd n (writePixels pd n (fun x y => magPixel (fpuOf s) (gridAt q x y)) s))

/-- INV2D pd (R196). -/
def execInv2d (pd : PixBuf) (s : State) : Result := runBody (bodyInv2d pd) s

end Sys2Proof.Machine
end

