-- ==== Sys2Proof/Machine/System.lean ====
section
/-! DEFINITION. NOP (spec/46_system.md R220). The command set has no other system, control-transfer, load, store or
integer command (R223 to R226, spec/20_memory.md R64). -/

namespace Sys2Proof.Machine

/-- NOP (R220): nothing but `LAST_ERR <- 0`. -/
def execNop (s : State) : Result := runBody (fun t => .ok t) s

end Sys2Proof.Machine
end

