-- ==== Sys2Proof/Machine/Visualization.lean ====
section
/-! DEFINITION. Spectrum visualization, the logarithmic magnitude picture (spec/45_visualization.md): `MaxMag`,
`VisValue` and the command VIS. -/

namespace Sys2Proof.Machine

/-- One turn of the scan of R210: strict, so a NaN never becomes the maximum. -/
def maxStep (mx m : Word64) : Word64 := if fgt m mx then m else mx

/-- `MaxMag(S, N)` (R210). -/
def MaxMag (fp : Fpu) (g : SampleGrid) : Word64 :=
  g.foldl (fun mx row => row.foldl (fun mx' z => maxStep mx' (Cmag fp z)) mx) F0

/-- `VisValue(m, mx)` (R211): `floor(255 * log10(1 + m) / log10(1 + mx))`, each operation rounded. -/
def VisValue (fp : Fpu) (m mx : Word64) : Word64 :=
  let lf := flog10 fp (fadd fp F1 m)
  let lmax := flog10 fp (fadd fp F1 mx)
  ffloor fp (fdiv fp (fmul fp F255 lf) lmax)

/-- The pixel of a value (R212): a NaN gives the default pixel, all zero bytes. -/
def visPixel (v : Word64) : Pixel :=
  if isNaN v then ⟨0, 0, 0, 0⟩ else ⟨toU8 v, toU8 v, toU8 v, 255⟩

/-- The body of VIS (R212): grid element `[i][j]` goes to column `i`, row `j`. -/
def bodyVis (pd : PixBuf) (s : State) : Except ErrCode State :=
  if Config.log2Nmax < gridLog s then .error .capacity
  else
    let n := 2 ^ gridLog s
    let mx := MaxMag (fpuOf s) (activeGrid s n)
    .ok (setPixDims pd n (writePixels pd n
      (fun x y => visPixel (VisValue (fpuOf s) (Cmag (fpuOf s) (readGrid s x y)) mx)) s))

/-- VIS pd (R212). -/
def execVis (pd : PixBuf) (s : State) : Result := runBody (bodyVis pd) s

end Sys2Proof.Machine
end

