-- ==== Sys2Proof/Machine/Dispatch.lean ====
section
/-! DEFINITION. The dispatch of a decoded command to its meaning (spec/30_encoding.md R89, spec/46_system.md R221). -/

namespace Sys2Proof.Machine

def exec (i : Instr) (s : State) : Host.Outcome State Fault Refusal :=
  match i with
  | .nop => Sys2Proof.Machine.execNop s
  | .cadd cd ca cb => Sys2Proof.Machine.execCadd cd ca cb s
  | .csub cd ca cb => Sys2Proof.Machine.execCsub cd ca cb s
  | .cmul cd ca cb => Sys2Proof.Machine.execCmul cd ca cb s
  | .cconj cd ca => Sys2Proof.Machine.execCconj cd ca s
  | .cmag cd ca => Sys2Proof.Machine.execCmag cd ca s
  | .cpolar cd ca cb => Sys2Proof.Machine.execCpolar cd ca cb s
  | .fft1d ns => Sys2Proof.Machine.execFft1d ns s
  | .ifft1d => Sys2Proof.Machine.execIfft1d s
  | .gray ps => Sys2Proof.Machine.execGray ps s
  | .pad pd ps => Sys2Proof.Machine.execPad pd ps s
  | .fwd2d ps => Sys2Proof.Machine.execFwd2d ps s
  | .inv2d pd => Sys2Proof.Machine.execInv2d pd s
  | .vis pd => Sys2Proof.Machine.execVis pd s

end Sys2Proof.Machine
end

