-- ==== Sys2Proof/Machine/Port.lean ====
section
/-! DEFINITION. The host port but for the execution of commands (spec/20_memory.md R50 to R58, spec/10_state.md R24 to
R32, spec/46_system.md R222): register reads and writes, element reads and writes, and the typed forms of R51. -/

namespace Sys2Proof.Machine

/-- What a host read of a control register returns; it changes nothing (R25 to R32, R222). -/
def regRead (s : State) (i : Nat) : Word32 :=
  match i with
  | 0 => Config.idWord
  | 1 => 0
  | 2 => statusWord s
  | 3 => BitVec.ofNat 32 Config.log2Nmax
  | 4 => s.pix0W.zeroExtend 32
  | 5 => s.pix0H.zeroExtend 32
  | 6 => s.pix1W.zeroExtend 32
  | 7 => s.pix1H.zeroExtend 32
  | 8 => s.gridLog2n.zeroExtend 32
  | 9 => s.vecLog2n.zeroExtend 32
  | _ => 0

/-- A host write to a control register other than `CMD`: a dimension register stores the low bits, every other one
ignores the write (R25, R27 to R32, R222). -/
def regWrite (i : Nat) (w : Word32) (s : State) : State :=
  match i with
  | 4 => { s with pix0W := w.truncate 16 }
  | 5 => { s with pix0H := w.truncate 16 }
  | 6 => { s with pix1W := w.truncate 16 }
  | 7 => { s with pix1H := w.truncate 16 }
  | 8 => { s with gridLog2n := w.truncate 5 }
  | 9 => { s with vecLog2n := w.truncate 5 }
  | _ => s

/-- The register number of an element index of space `CREG` (R52). -/
def cregOf (idx : Nat) : CReg := Fin.ofNat 16 (idx / 2)

/-- One part of a complex register. -/
def cregRead (s : State) (idx : Nat) : Word64 :=
  if idx % 2 = 0 then (readC s (cregOf idx)).re else (readC s (cregOf idx)).im

/-- One part of a complex register written, the other kept (R56). -/
def cregWrite (idx : Nat) (v : Word64) (s : State) : State :=
  let old := readC s (cregOf idx)
  writeC (cregOf idx) (if idx % 2 = 0 then ⟨v, old.im⟩ else ⟨old.re, v⟩) s

/-- One element of a pixel buffer written. -/
def pixWrite (k : PixBuf) (idx : Nat) (v : Byte) (s : State) : State :=
  setPixMem k (Mem.write (pixBackground s k) idx v (pixMem s k)) s

/-- The reply to a host read of an element that exists (R51, R222). -/
def portRead (s : State) (sp : Space) (idx : Nat) : Reply :=
  match sp with
  | .reg => .word (regRead s idx)
  | .creg => .part (cregRead s idx)
  | .vec => .part (Mem.read (vecBackground s) idx s.vec)
  | .grid => .part (Mem.read (gridBackground s) idx s.grid)
  | .pix0 => .byte (Mem.read (pixBackground s .p0) idx s.pix0)
  | .pix1 => .byte (Mem.read (pixBackground s .p1) idx s.pix1)

/-- A host write of an element that exists, `CMD` apart (R51, R222). -/
def portWrite (sp : Space) (idx v : Nat) (s : State) : State :=
  match sp with
  | .reg => regWrite idx (BitVec.ofNat 32 v) s
  | .creg => cregWrite idx (BitVec.ofNat 64 v) s
  | .vec => { s with vec := Mem.write (vecBackground s) idx (BitVec.ofNat 64 v) s.vec }
  | .grid => { s with grid := Mem.write (gridBackground s) idx (BitVec.ofNat 64 v) s.grid }
  | .pix0 => pixWrite .p0 idx (BitVec.ofNat 8 v) s
  | .pix1 => pixWrite .p1 idx (BitVec.ofNat 8 v) s

/-! ### The typed accesses of R51, as the events they are

Their index types are bounded (R58): every one of them is an operation of the port. -/

/-- The space of a pixel buffer (R50). -/
def pixSpace : PixBuf → Space
  | .p0 => .pix0
  | .p1 => .pix1

/-- `RegRead(i)`. -/
def RegRead (i : RegIndex) : HostEvent := .memRead .reg i.val 4

/-- `RegWrite(i, w32)`. -/
def RegWrite (i : RegIndex) (w : Word32) : HostEvent := .memWrite .reg i.val 4 w.toNat

/-- `CRead(r, part)`. -/
def CRead (r : CReg) (part : Part) : HostEvent := .memRead .creg (cregIndex r part) 8

/-- `CWrite(r, part, w64)`. -/
def CWrite (r : CReg) (part : Part) (v : Word64) : HostEvent := .memWrite .creg (cregIndex r part) 8 v.toNat

/-- `VecRead(i, part)`. -/
def VecRead (i : Coord) (part : Part) : HostEvent := .memRead .vec (vecIndex i.val part) 8

/-- `VecWrite(i, part, w64)`. -/
def VecWrite (i : Coord) (part : Part) (v : Word64) : HostEvent := .memWrite .vec (vecIndex i.val part) 8 v.toNat

/-- `GridRead(i, j, part)`. -/
def GridRead (i j : Coord) (part : Part) : HostEvent := .memRead .grid (gridIndex i.val j.val part) 8

/-- `GridWrite(i, j, part, w64)`. -/
def GridWrite (i j : Coord) (part : Part) (v : Word64) : HostEvent := .memWrite .grid (gridIndex i.val j.val part) 8 v.toNat

/-- `PixRead(k, x, y, ch)`. -/
def PixRead (k : PixBuf) (x y : Coord) (ch : Channel) : HostEvent := .memRead (pixSpace k) (pixIndex x.val y.val ch) 1

/-- `PixWrite(k, x, y, ch, w8)`. -/
def PixWrite (k : PixBuf) (x y : Coord) (ch : Channel) (v : Byte) : HostEvent :=
  .memWrite (pixSpace k) (pixIndex x.val y.val ch) 1 v.toNat

end Sys2Proof.Machine
end

