-- ==== Sys2Proof/Machine/Execute.lean ====
section
/-! DEFINITION. What one event does to the block: the execution of a command word (spec/46_system.md R221) and the step
function of R222 over host events and the platform's reset. -/

namespace Sys2Proof.Machine

/-- `Execute(w)` (R221): an illegal word is rejected with `ERR_ILLEGAL_CMD`, a command runs its meaning. -/
def execute (w : Word32) (s : State) : Result :=
  match decode w with
  | .illegal _ => .next (reject .illegalCmd s)
  | .command i => exec i s

/-- The reply to a read joins the replies given so far (R222, R270; log entry 9). -/
def giveReply (r : Reply) (s : State) : State := { s with replies := s.replies ++ [r] }

/-- The platform's reset (R260): unspecified data contents anew, control registers zero (log entry 10). -/
def platformReset (s : State) : State := State.afterReset (s.resets + 1) s.draws s.inbox s.replies

/-- An event that is an operation of the port (R222). Only a write to `REG:1` executes a command (R26, R56). -/
def portEvent (e : HostEvent) (s : State) : Result :=
  match e with
  | .memRead sp idx _ => .next (giveReply (portRead s sp idx) s)
  | .memWrite sp idx _ v =>
    if sp = .reg ∧ idx = 1 then execute (BitVec.ofNat 32 v) s else .next (portWrite sp idx v s)
  | .reset => .next (platformReset s)

/-- One event. An access outside the port is refused: no next state (R55, R58, U7; log entry 11). -/
def event (e : HostEvent) (s : State) : Result :=
  if !e.sizeOk then .refused .accessSize
  else if !e.indexOk then .refused .accessIndex
  else if !e.valueOk then .refused .accessValue
  else portEvent e s

/-- Take the oldest pending event. With none pending the block is idle and holds its state (R222, R247; log entry 8). -/
def takeEvent (s : State) : Result :=
  match s.inbox with
  | [] => .next s
  | e :: rest => event e { s with inbox := rest }

/-- A command word as the host's next event: `RegWrite(1, w)` before everything pending (R26, R51; log entry 7). -/
def placeCommand (w : Nat) (s : State) : State :=
  { s with inbox := .memWrite .reg 1 4 (w % 2 ^ 32) :: s.inbox }

end Sys2Proof.Machine
end

