-- ==== Sys2Proof/Machine/Step.lean ====
section
/-! DEFINITION. One step of the machine: one host or platform event (spec/46_system.md R222). The block has no program
counter and fetches no instructions (spec/10_state.md R22): a command reaches it as the event that writes `CMD`. -/

namespace Sys2Proof.Machine

/-- One step (R222). -/
def step (s : State) : Host.Outcome State Fault Refusal := takeEvent s

/-- The state whose next step runs the command word `w`: the write of `CMD` is the next event. A command is one 32-bit
word, so the bits above `nbits` are zero and `nbits` says nothing more (R80; log entries 7, 13). -/
def State.withFetchWord (s : State) (_nbits w : Nat) : State := placeCommand w s

end Sys2Proof.Machine
end

