-- ==== Sys2Proof/Safety.lean ====
section
/-! DEFINITION. What the claims speak of: the invariant of the block, a run inside the port, and the frame of a command
in the host's own terms, that is by what a host read of each element returns (spec/46_system.md R222,
spec/20_memory.md R51, R64). -/

namespace Sys2Proof.Machine

/-- Every space's storage is in its canonical form (log entry 1). -/
def State.canonical (s : State) : Bool :=
  Mem.wf (vecBackground s) s.vec && Mem.wf (gridBackground s) s.grid &&
    Mem.wf (pixBackground s .p0) s.pix0 && Mem.wf (pixBackground s .p1) s.pix1

/-- No element outside a space is stored (R50, R58). -/
def State.inRange (s : State) : Bool :=
  Mem.below Space.vec.elems s.vec && Mem.below Space.grid.elems s.grid &&
    Mem.below Space.pix0.elems s.pix0 && Mem.below Space.pix1.elems s.pix1

/-- `LAST_ERR` takes only the values 0 to 5 (R27, R231), and an error code never stands there without `STICKY`
(R242, R243). -/
def State.statusOk (s : State) : Bool := decide (s.lastErr.toNat ≤ 5) && (decide (s.lastErr = 0) || s.sticky)

/-- The invariant of the block. -/
def State.inv (s : State) : Bool := s.canonical && s.inRange && s.statusOk

/-- Every pending event is an operation of the port (R55, R58): nothing can be proved about a run that contains another
(U7). -/
def State.insidePort (s : State) : Bool := s.inbox.all HostEvent.wellFormed

/-- The step answers a next state: the block does not stop. -/
def answersNext : Result → Bool
  | .next _ => true
  | .fault _ => false
  | .refused _ => false

/-- The command was accepted (R221): `LAST_ERR` is 0 and `STICKY` is as it was. -/
def Accepted (s t : State) : Prop := t.lastErr = 0 ∧ t.sticky = s.sticky

/-- Outside the named elements every host read returns what it returned before, and the events still to come, the
replies given and the count of resets are as they were. -/
def UnchangedOutside (touched : Space → Nat → Prop) (s t : State) : Prop :=
  (∀ sp idx, idx < sp.elems → ¬ touched sp idx → portRead t sp idx = portRead s sp idx) ∧
    t.resets = s.resets ∧ t.inbox = s.inbox ∧ t.replies = s.replies

/-- `STATUS` (R24). -/
def statusTouch (sp : Space) (idx : Nat) : Prop := sp = .reg ∧ idx = 2

/-- `STATUS` and the two parts of `c[cd]` (R64). -/
def cregTouch (cd : CReg) (sp : Space) (idx : Nat) : Prop :=
  statusTouch sp idx ∨ sp = .creg ∧ ∃ part, idx = cregIndex cd part

/-- `STATUS` and `V[i]` for `i < n` (R64). -/
def vecTouch (n : Nat) (sp : Space) (idx : Nat) : Prop :=
  statusTouch sp idx ∨ sp = .vec ∧ ∃ i part, i < n ∧ idx = vecIndex i part

/-- `STATUS`, `GRID_LOG2N` and `G[i][j]` for `i, j < n` (R64). -/
def gridTouch (n : Nat) (sp : Space) (idx : Nat) : Prop :=
  statusTouch sp idx ∨ sp = .reg ∧ idx = 8 ∨ sp = .grid ∧ ∃ i j part, i < n ∧ j < n ∧ idx = gridIndex i j part

/-- The register index of `PIXk_W` (R24). -/
def pixWReg : PixBuf → Nat
  | .p0 => 4
  | .p1 => 6

/-- The register index of `PIXk_H` (R24). -/
def pixHReg : PixBuf → Nat
  | .p0 => 5
  | .p1 => 7

/-- `STATUS`, the dimension registers of buffer `k` and `P[k](x, y)` for `x, y < n` (R64). -/
def pixTouch (k : PixBuf) (n : Nat) (sp : Space) (idx : Nat) : Prop :=
  statusTouch sp idx ∨ sp = .reg ∧ (idx = pixWReg k ∨ idx = pixHReg k) ∨
    sp = pixSpace k ∧ ∃ x y ch, x < n ∧ y < n ∧ idx = pixIndex x y ch

/-! ### Exact values (R100, R101) -/

/-- The bits stand for a number: neither an infinity nor a NaN (R100). -/
def isFinite (a : Word64) : Bool := expField a != 2047

/-- The exact value of a finite bit pattern (R100); 0 for the others. -/
def f64 (a : Word64) : ℚ :=
  match unpack a with
  | .fin s m e => (if s then -1 else 1) * m * (2 : ℚ) ^ e
  | _ => 0

/-- The value of a bit pattern that is no NaN, with `-inf` below and `+inf` above every number (R100, R120); a NaN has
no value, and no claim rests on the 0 written for it. -/
def extendedValue (a : Word64) : WithBot (WithTop ℚ) :=
  match unpack a with
  | .nan => ((0 : WithTop ℚ) : WithBot (WithTop ℚ))
  | .inf s => if s then ⊥ else ((⊤ : WithTop ℚ) : WithBot (WithTop ℚ))
  | .fin _ _ _ => ((f64 a : WithTop ℚ) : WithBot (WithTop ℚ))

/-- The least magnitude that rounds to an infinity (R101). -/
def overflowBound : ℚ := 2 ^ 1024 - 2 ^ 970

/-- `r` is the exact result `x` correctly rounded (R101): an infinity of its sign from `2^1024 - 2^970` on, otherwise a
finite value that no finite value is nearer to `x` than, with fraction bit 0 clear where another value is as near. The
sign of a zero is R107's. -/
def CorrectlyRounded (x : ℝ) (r : Word64) : Prop :=
  ((overflowBound : ℝ) ≤ x → r = 0x7FF0000000000000) ∧
    (x ≤ -(overflowBound : ℝ) → r = 0xFFF0000000000000) ∧
    (|x| < (overflowBound : ℝ) → isFinite r = true ∧ ∀ c, isFinite c = true →
      |(f64 r : ℝ) - x| ≤ |(f64 c : ℝ) - x| ∧
        (|(f64 r : ℝ) - x| = |(f64 c : ℝ) - x| → f64 c ≠ f64 r → r.getLsbD 0 = false))

end Sys2Proof.Machine
end

