-- ==== Sys2Proof/Certificates/Slice0/Obligations.lean ====
section
/-! DEFINITION. The statements about the model. Each docstring names the rule of spec/ it formalises. Those about a
command give the next state `exec` answers, every result by the rule's own operations, that the command was accepted,
and its frame: outside the named elements every host read returns what it returned before. Where a result is read back
from storage, the premise is the canonical form of storage, which `StepKeepsInvariant` keeps. -/

open Sys2Proof Sys2Proof.Machine

/-! ### Encoding (spec/30_encoding.md) -/

/-- Words written out from R93's table and examples and from R90's examples. -/
def Obligations.SpecWordsDecode : Prop :=
  decode 0x00000000 = .command .nop ∧
    decode 0x10312000 = .command (.cadd 3 1 2) ∧
    decode 0x11312000 = .command (.csub 3 1 2) ∧
    decode 0x12312000 = .command (.cmul 3 1 2) ∧
    decode 0x13640000 = .command (.cconj 6 4) ∧
    decode 0x14210000 = .command (.cmag 2 1) ∧
    decode 0x15312000 = .command (.cpolar 3 1 2) ∧
    decode 0x20000000 = .command (.fft1d false) ∧
    decode 0x20000001 = .command (.fft1d true) ∧
    decode 0x21000000 = .command .ifft1d ∧
    decode 0x30010000 = .command (.gray .p1) ∧
    decode 0x31100000 = .command (.pad .p1 .p0) ∧
    decode 0x32010000 = .command (.fwd2d .p1) ∧
    decode 0x33100000 = .command (.inv2d .p1) ∧
    decode 0x34000000 = .command (.vis .p0) ∧
    decode 0x00000001 = .illegal (.mustBeZero 0x00000001) ∧
    decode 0x21000001 = .illegal (.mustBeZero 0x21000001) ∧
    decode 0x13121000 = .illegal (.mustBeZero 0x13121000) ∧
    decode 0x32020000 = .illegal (.mustBeZero 0x32020000) ∧
    decode 0x01000000 = .illegal (.unassignedOpcode 0x01)

/-- R89, R91: a word encodes a command exactly when `(w & mask) == match`, its operands are the fields of R92, and a
word that matches no row is illegal. -/
def Obligations.DecodeFollowsOpcodeMap : Prop :=
  ∀ w : Word32,
    let r3 (cd ca cb : CReg) : Prop := cd.val = (w.extractLsb' 20 4).toNat ∧ ca.val = (w.extractLsb' 16 4).toNat ∧
      cb.val = (w.extractLsb' 12 4).toNat
    let r2 (cd ca : CReg) : Prop := cd.val = (w.extractLsb' 20 4).toNat ∧ ca.val = (w.extractLsb' 16 4).toNat
    let p (k : PixBuf) (bit : Nat) : Prop := (k = .p1 ↔ w.getLsbD bit = true)
    (decode w = .command .nop ↔ w &&& 0xFFFFFFFF = 0x00000000) ∧
    (∀ cd ca cb, decode w = .command (.cadd cd ca cb) ↔ w &&& 0xFF000FFF = 0x10000000 ∧ r3 cd ca cb) ∧
    (∀ cd ca cb, decode w = .command (.csub cd ca cb) ↔ w &&& 0xFF000FFF = 0x11000000 ∧ r3 cd ca cb) ∧
    (∀ cd ca cb, decode w = .command (.cmul cd ca cb) ↔ w &&& 0xFF000FFF = 0x12000000 ∧ r3 cd ca cb) ∧
    (∀ cd ca, decode w = .command (.cconj cd ca) ↔ w &&& 0xFF00FFFF = 0x13000000 ∧ r2 cd ca) ∧
    (∀ cd ca, decode w = .command (.cmag cd ca) ↔ w &&& 0xFF00FFFF = 0x14000000 ∧ r2 cd ca) ∧
    (∀ cd ca cb, decode w = .command (.cpolar cd ca cb) ↔ w &&& 0xFF000FFF = 0x15000000 ∧ r3 cd ca cb) ∧
    (∀ ns, decode w = .command (.fft1d ns) ↔ w &&& 0xFFFFFFFE = 0x20000000 ∧ ns = w.getLsbD 0) ∧
    (decode w = .command .ifft1d ↔ w &&& 0xFFFFFFFF = 0x21000000) ∧
    (∀ ps, decode w = .command (.gray ps) ↔ w &&& 0xFFFEFFFF = 0x30000000 ∧ p ps 16) ∧
    (∀ pd ps, decode w = .command (.pad pd ps) ↔ w &&& 0xFFEEFFFF = 0x31000000 ∧ p pd 20 ∧ p ps 16) ∧
    (∀ ps, decode w = .command (.fwd2d ps) ↔ w &&& 0xFFFEFFFF = 0x32000000 ∧ p ps 16) ∧
    (∀ pd, decode w = .command (.inv2d pd) ↔ w &&& 0xFFEFFFFF = 0x33000000 ∧ p pd 20) ∧
    (∀ pd, decode w = .command (.vis pd) ↔ w &&& 0xFFEFFFFF = 0x34000000 ∧ p pd 20) ∧
    ((∃ why, decode w = .illegal why) ↔
      w &&& 0xFFFFFFFF ≠ 0x00000000 ∧ w &&& 0xFF000FFF ≠ 0x10000000 ∧ w &&& 0xFF000FFF ≠ 0x11000000 ∧
      w &&& 0xFF000FFF ≠ 0x12000000 ∧ w &&& 0xFF00FFFF ≠ 0x13000000 ∧ w &&& 0xFF00FFFF ≠ 0x14000000 ∧
      w &&& 0xFF000FFF ≠ 0x15000000 ∧ w &&& 0xFFFFFFFE ≠ 0x20000000 ∧ w &&& 0xFFFFFFFF ≠ 0x21000000 ∧
      w &&& 0xFFFEFFFF ≠ 0x30000000 ∧ w &&& 0xFFEEFFFF ≠ 0x31000000 ∧ w &&& 0xFFFEFFFF ≠ 0x32000000 ∧
      w &&& 0xFFEFFFFF ≠ 0x33000000 ∧ w &&& 0xFFEFFFFF ≠ 0x34000000)

/-- Decode and encode agree on every command with every operand (R91, R93). -/
def Obligations.DecodeInvertsEncode : Prop :=
  ∀ i : Instr, i.wellFormed = true → decode (encode i) = .command i

/-- Each command has one word: a word that decodes is the word its command encodes to (R91, R93). -/
def Obligations.EncodeInvertsDecode : Prop :=
  ∀ (w : Word32) (i : Instr), decode w = .command i → encode i = w

/-- R232: an unassigned `OP` byte, or an assigned one with a must-be-zero bit set, is rejected with code 1 in every
state, and nothing else changes. -/
def Obligations.IllegalWordRejected : Prop :=
  ∀ (w : Word32) (s : State),
    ((∀ row ∈ opcodeTable, row.op ≠ w.extractLsb' 24 8) ∨
      (∃ row ∈ opcodeTable, row.op = w.extractLsb' 24 8 ∧ w &&& row.mask ≠ row.value)) →
    event (RegWrite 1 w) s = .next { s with lastErr := 1, sticky := true }

/-! ### Reset and the control registers (spec/10_state.md, spec/70_reset_and_hazards.md) -/

/-- R261, for the state after reset and for every reset event. -/
def Obligations.ResetControlRegisters : Prop :=
  (∀ s, ∃ t, event .reset s = .next t) ∧
    ∀ s t, (t = State.reset ∨ event .reset s = .next t) →
      t.lastErr = 0 ∧ t.sticky = false ∧ portRead t .reg 2 = .word 0x00000000 ∧
        t.pix0W = 0 ∧ t.pix0H = 0 ∧ t.pix1W = 0 ∧ t.pix1H = 0 ∧ t.gridLog2n = 0 ∧ t.vecLog2n = 0 ∧
        portRead t .reg 0 = .word 0x49464654 ∧ portRead t .reg 3 = .word (BitVec.ofNat 32 Config.log2Nmax) ∧
        (∀ k, pixW t k = 0 ∧ pixH t k = 0) ∧ 2 ^ gridLog t = 1 ∧ 2 ^ vecLog t = 1

/-- R25, R26, R28: `ID`, `CMD` and `CAP`. -/
def Obligations.ConstantAndCommandRegisters : Prop :=
  ∀ (s : State) (w : Word32),
    event (RegRead 0) s = .next { s with replies := s.replies ++ [.word 0x49464654] } ∧
    event (RegWrite 0 w) s = .next s ∧
    event (RegRead 1) s = .next { s with replies := s.replies ++ [.word 0x00000000] } ∧
    event (RegWrite 1 w) s = execute w s ∧
    event (RegRead 3) s = .next { s with replies := s.replies ++ [.word (BitVec.ofNat 32 Config.log2Nmax)] } ∧
    event (RegWrite 3 w) s = .next s

/-- R27: a read of `STATUS` is `zext_32(STICKY ++ 0b0000 ++ LAST_ERR)` and changes nothing, a write is ignored, every
command writes `LAST_ERR`, and it never leaves the values 0 to 5. -/
def Obligations.StatusRegister : Prop :=
  (∀ s : State, event (RegRead 2) s = .next { s with replies := s.replies ++
      [.word (((BitVec.ofBool s.sticky ++ 0#4) ++ s.lastErr).zeroExtend 32)] }) ∧
    (∀ (s : State) (w : Word32), event (RegWrite 2 w) s = .next s) ∧
    (∀ (s : State) (w : Word32), ∃ t, execute w s = .next t ∧ t.lastErr.toNat ≤ 5 ∧
      t.sticky = if t.lastErr = 0 then s.sticky else true) ∧
    State.reset.lastErr.toNat ≤ 5 ∧
    ∀ s t : State, s.lastErr.toNat ≤ 5 → step s = .next t → t.lastErr.toNat ≤ 5

/-- R29, R30, R31, R222: a host write stores the low bits and changes nothing else; a host read replies them
zero-extended and changes nothing else. -/
def Obligations.DimensionRegisters : Prop :=
  ∀ (s : State) (w : Word32),
    event (RegWrite 4 w) s = .next { s with pix0W := w.extractLsb' 0 16 } ∧
    event (RegWrite 5 w) s = .next { s with pix0H := w.extractLsb' 0 16 } ∧
    event (RegWrite 6 w) s = .next { s with pix1W := w.extractLsb' 0 16 } ∧
    event (RegWrite 7 w) s = .next { s with pix1H := w.extractLsb' 0 16 } ∧
    event (RegWrite 8 w) s = .next { s with gridLog2n := w.extractLsb' 0 5 } ∧
    event (RegWrite 9 w) s = .next { s with vecLog2n := w.extractLsb' 0 5 } ∧
    event (RegRead 4) s = .next { s with replies := s.replies ++ [.word (s.pix0W.zeroExtend 32)] } ∧
    event (RegRead 5) s = .next { s with replies := s.replies ++ [.word (s.pix0H.zeroExtend 32)] } ∧
    event (RegRead 6) s = .next { s with replies := s.replies ++ [.word (s.pix1W.zeroExtend 32)] } ∧
    event (RegRead 7) s = .next { s with replies := s.replies ++ [.word (s.pix1H.zeroExtend 32)] } ∧
    event (RegRead 8) s = .next { s with replies := s.replies ++ [.word (s.gridLog2n.zeroExtend 32)] } ∧
    event (RegRead 9) s = .next { s with replies := s.replies ++ [.word (s.vecLog2n.zeroExtend 32)] }

/-- R32: indices 10 to 63 read as 0 and ignore writes; the bits documented as zero read as 0 whatever was written. -/
def Obligations.ReservedRegisterSpace : Prop :=
  ∀ (s : State) (w : Word32),
    (∀ i : RegIndex, 10 ≤ i.val →
      event (RegRead i) s = .next { s with replies := s.replies ++ [.word 0x00000000] } ∧
      event (RegWrite i w) s = .next s) ∧
    (∀ i ∈ [(4 : RegIndex), 5, 6, 7], ∃ t, event (RegWrite i w) s = .next t ∧ t.lastErr = s.lastErr ∧ t.sticky = s.sticky ∧
      portRead t .reg i.val = .word (w &&& 0x0000FFFF)) ∧
    (∀ i ∈ [(8 : RegIndex), 9], ∃ t, event (RegWrite i w) s = .next t ∧ t.lastErr = s.lastErr ∧ t.sticky = s.sticky ∧
      portRead t .reg i.val = .word (w &&& 0x0000001F)) ∧
    (∃ v, portRead s .reg 2 = .word v ∧ v &&& 0xFFFFFEF0 = 0) ∧
    (∃ v, portRead s .reg 3 = .word v ∧ v &&& 0xFFFFFFE0 = 0)

/-! ### Rejection (spec/60_exceptions.md) -/

/-- R242: a rejected command leaves the state before it with only `STATUS` changed. -/
def Obligations.RejectionChangesStatusAlone : Prop :=
  ∀ (w : Word32) (s t : State), execute w s = .next t → t.lastErr ≠ 0 →
    ∃ code : BitVec 4, 1 ≤ code.toNat ∧ code.toNat ≤ 5 ∧ t = { s with lastErr := code, sticky := true }

/-- R240, R233 to R236: exactly one code is reported, the first that applies. -/
def Obligations.RejectionCodeByPriority : Prop :=
  ∀ s : State,
    (∀ w, (∀ i, decode w ≠ .command i) → execute w s = .next { s with lastErr := 1, sticky := true }) ∧
    (∀ k, exec (.pad k k) s = .next { s with lastErr := 4, sticky := true }) ∧
    (∀ pd ps, pd ≠ ps → Config.nmax < pixW s ps ∨ Config.nmax < pixH s ps →
      exec (.pad pd ps) s = .next { s with lastErr := 5, sticky := true }) ∧
    (∀ ps, ∀ i ∈ [Instr.gray ps, Instr.fwd2d ps],
      (Config.nmax < pixW s ps ∨ Config.nmax < pixH s ps →
        exec i s = .next { s with lastErr := 5, sticky := true }) ∧
      (pixW s ps ≤ Config.nmax → pixH s ps ≤ Config.nmax → pixW s ps ≠ pixH s ps →
        exec i s = .next { s with lastErr := 2, sticky := true }) ∧
      (pixW s ps ≤ Config.nmax → pixW s ps = pixH s ps → (∀ n, pixW s ps ≠ 2 ^ n) →
        exec i s = .next { s with lastErr := 3, sticky := true })) ∧
    (Config.log2Nmax < vecLog s → ∀ i ∈ [Instr.fft1d false, Instr.fft1d true, Instr.ifft1d],
      exec i s = .next { s with lastErr := 5, sticky := true }) ∧
    (Config.log2Nmax < gridLog s → ∀ pd, ∀ i ∈ [Instr.inv2d pd, Instr.vis pd],
      exec i s = .next { s with lastErr := 5, sticky := true })

/-- R23: no command's behaviour depends on `STATUS`. Two states that differ in `STATUS` alone run every word alike, and
afterwards differ at most in a `STICKY` bit that neither run set. -/
def Obligations.NoCommandReadsStatus : Prop :=
  ∀ (w : Word32) (s : State) (err : BitVec 4) (st : Bool),
    ∃ t, execute w s = .next t ∧
      execute w { s with lastErr := err, sticky := st } =
        .next { t with sticky := if t.lastErr = 0 then st else true }

/-! ### The commands -/

/-- R220: NOP completes, clears `LAST_ERR` and changes nothing else; no other word of `OP` 0x00 is NOP. -/
def Obligations.NopChangesNothingElse : Prop :=
  (∀ s : State, ∃ t, exec .nop s = .next t ∧ Accepted s t ∧ UnchangedOutside statusTouch s t ∧
      portRead t .reg 2 = .word (if s.sticky then 0x00000100 else 0x00000000)) ∧
    decode 0x00000000 = .command .nop ∧
    ∀ w : Word32, w ≠ 0x00000000 → w &&& 0xFF000000 = 0x00000000 → ∃ why, decode w = .illegal why

/-- R139, R140, R141 with R130, R131, R132 and R138: CADD, CSUB, CMUL complete for every register triple, a destination
that is also a source included. -/
def Obligations.ComplexSumDifferenceProduct : Prop :=
  ∀ (cd ca cb : CReg) (s : State),
    let fp := fpuOf s
    let a := readC s ca
    let b := readC s cb
    (∃ t, exec (.cadd cd ca cb) s = .next t ∧ readC t cd = ⟨fadd fp a.re b.re, fadd fp a.im b.im⟩ ∧
      Accepted s t ∧ UnchangedOutside (cregTouch cd) s t) ∧
    (∃ t, exec (.csub cd ca cb) s = .next t ∧ readC t cd = ⟨fsub fp a.re b.re, fsub fp a.im b.im⟩ ∧
      Accepted s t ∧ UnchangedOutside (cregTouch cd) s t) ∧
    (∃ t, exec (.cmul cd ca cb) s = .next t ∧
      readC t cd = ⟨fsub fp (fmul fp a.re b.re) (fmul fp a.im b.im), fadd fp (fmul fp a.re b.im) (fmul fp a.im b.re)⟩ ∧
      Accepted s t ∧ UnchangedOutside (cregTouch cd) s t)

/-- R142, R143 with R133, R134: CCONJ and CMAG complete for every register pair. -/
def Obligations.ConjugateAndMagnitude : Prop :=
  ∀ (cd ca : CReg) (s : State),
    let fp := fpuOf s
    let a := readC s ca
    (∃ t, exec (.cconj cd ca) s = .next t ∧ readC t cd = ⟨a.re, a.im ^^^ 0x8000000000000000⟩ ∧
      Accepted s t ∧ UnchangedOutside (cregTouch cd) s t) ∧
    (∃ t, exec (.cmag cd ca) s = .next t ∧
      readC t cd = ⟨fsqrt fp (fadd fp (fmul fp a.re a.re) (fmul fp a.im a.im)), 0x0000000000000000⟩ ∧
      Accepted s t ∧ UnchangedOutside (cregTouch cd) s t)

/-- R144 with R135: CPOLAR completes for every register triple and ignores both imaginary parts. -/
def Obligations.PolarConstruction : Prop :=
  ∀ (cd ca cb : CReg) (s : State),
    let fp := fpuOf s
    ∃ t, exec (.cpolar cd ca cb) s = .next t ∧
      readC t cd = ⟨fmul fp (readC s ca).re (fcos fp (readC s cb).re), fmul fp (readC s ca).re (fsin fp (readC s cb).re)⟩ ∧
      Accepted s t ∧ UnchangedOutside (cregTouch cd) s t

/-- R158: FFT1D and FFT1D.NS replace the active region of `VEC` by its transform. `Fft1` is R150's (`ForwardTransform`). -/
def Obligations.ForwardTransformCommand : Prop :=
  ∀ (ns : Bool) (s : State), s.canonical = true → vecLog s ≤ Config.log2Nmax →
    let n := 2 ^ vecLog s
    let y := Fft1 (fpuOf s) (!ns) (vecLog s) ((List.range n).map fun i => readVec s i)
    ∃ t, exec (.fft1d ns) s = .next t ∧ (∀ i, i < n → readVec t i = sampleAt y i) ∧
      Accepted s t ∧ UnchangedOutside (vecTouch n) s t

/-- R160 with R159: IFFT1D conjugates, transforms with `phaseShift = false`, conjugates; no division. -/
def Obligations.InverseTransformCommand : Prop :=
  ∀ s : State, s.canonical = true → vecLog s ≤ Config.log2Nmax →
    let n := 2 ^ vecLog s
    let x := (List.range n).map fun i => Sample.mk (readVec s i).re (fneg (readVec s i).im)
    let y := Fft1 (fpuOf s) false (vecLog s) x
    ∃ t, exec .ifft1d s = .next t ∧ (∀ i, i < n → readVec t i = ⟨(sampleAt y i).re, fneg (sampleAt y i).im⟩) ∧
      Accepted s t ∧ UnchangedOutside (vecTouch n) s t

/-- R172 with R170, R171, R173: GRAY on a square power-of-two source within capacity, column first. -/
def Obligations.GrayscaleCommand : Prop :=
  ∀ (ps : PixBuf) (n : Nat) (s : State), s.canonical = true → n ≤ Config.log2Nmax →
    pixW s ps = 2 ^ n → pixH s ps = 2 ^ n →
    let fp := fpuOf s
    let luma (p : Pixel) := fdiv fp (fadd fp (fadd fp (fmul fp 0x403DE66666666666 (u8ToF64 p.r))
      (fmul fp 0x404D59999999999A (u8ToF64 p.g))) (fmul fp 0x4026CCCCCCCCCCCD (u8ToF64 p.b))) 0x4059000000000000
    ∃ t, exec (.gray ps) s = .next t ∧
      (∀ x y, x < 2 ^ n → y < 2 ^ n → readGrid t x y = ⟨luma (readPixel s ps x y), 0x0000000000000000⟩) ∧
      gridLog t = n ∧ Accepted s t ∧ UnchangedOutside (gridTouch (2 ^ n)) s t

/-- R175 with R174, R116: PAD completes for every width and height within capacity, zero included. -/
def Obligations.PadCommand : Prop :=
  ∀ (pd ps : PixBuf) (s : State), s.canonical = true → pd ≠ ps →
    pixW s ps ≤ Config.nmax → pixH s ps ≤ Config.nmax →
    let W := pixW s ps
    let H := pixH s ps
    ∃ n t, max W H ≤ 2 ^ n ∧ (∀ m, max W H ≤ 2 ^ m → n ≤ m) ∧ exec (.pad pd ps) s = .next t ∧
      (∀ x y, x < 2 ^ n → y < 2 ^ n → readPixel t pd x y =
        if (2 ^ n - W) / 2 ≤ x ∧ x < (2 ^ n - W) / 2 + W ∧ (2 ^ n - H) / 2 ≤ y ∧ y < (2 ^ n - H) / 2 + H then
          readPixel s ps (x - (2 ^ n - W) / 2) (y - (2 ^ n - H) / 2)
        else ⟨255, 255, 255, 255⟩) ∧
      pixW t pd = 2 ^ n ∧ pixH t pd = 2 ^ n ∧ Accepted s t ∧ UnchangedOutside (pixTouch pd (2 ^ n)) s t

/-- R192 with R190, R191: FWD2D transforms the rows of the luma grid, transposes, transforms the rows again, both with
`phaseShift = true`, and does not transpose back. -/
def Obligations.ForwardImageTransformCommand : Prop :=
  ∀ (ps : PixBuf) (n : Nat) (s : State), s.canonical = true → n ≤ Config.log2Nmax →
    pixW s ps = 2 ^ n → pixH s ps = 2 ^ n →
    let fp := fpuOf s
    let A (x y : Nat) : Sample :=
      ⟨Luma fp (readPixel s ps x y).r (readPixel s ps x y).g (readPixel s ps x y).b, 0x0000000000000000⟩
    let B (i : Nat) : Samples := Fft1 fp true n ((List.range (2 ^ n)).map fun j => A i j)
    let D (j : Nat) : Samples := Fft1 fp true n ((List.range (2 ^ n)).map fun i => sampleAt (B i) j)
    ∃ t, exec (.fwd2d ps) s = .next t ∧
      (∀ i j, i < 2 ^ n → j < 2 ^ n → readGrid t i j = sampleAt (D i) j) ∧
      gridLog t = n ∧ Accepted s t ∧ UnchangedOutside (gridTouch (2 ^ n)) s t

/-- R196 with R194, R195: INV2D inverts the rows, transposes and divides by `N * N`, inverts the rows again, and writes
the truncated magnitudes with opaque alpha. -/
def Obligations.InverseImageTransformCommand : Prop :=
  ∀ (pd : PixBuf) (s : State), s.canonical = true → gridLog s ≤ Config.log2Nmax →
    let fp := fpuOf s
    let N := 2 ^ gridLog s
    let inv (x : Samples) : Samples := (Fft1 fp false (gridLog s) (x.map Cconj)).map Cconj
    let d := intToF64 (N * N : Nat)
    let R (a : Nat) : Samples := inv ((List.range N).map fun j => readGrid s a j)
    let T (b a : Nat) : Sample := ⟨fdiv fp (sampleAt (R a) b).re d, fdiv fp (sampleAt (R a) b).im d⟩
    let Q (b : Nat) : Samples := inv ((List.range N).map fun a => T b a)
    ∃ t, exec (.inv2d pd) s = .next t ∧
      (∀ x y, x < N → y < N →
        let m := toU8 (Cmag fp (sampleAt (Q x) y))
        readPixel t pd x y = ⟨m, m, m, 255⟩) ∧
      pixW t pd = N ∧ pixH t pd = N ∧ Accepted s t ∧ UnchangedOutside (pixTouch pd N) s t

/-- R212 with R210, R211: VIS writes the logarithmic picture of the grid, element `[i][j]` to column `i`, row `j`, and
four zero bytes where the value is a NaN. `MaxMag` is the greatest magnitude (`MaxMagIsTheGreatest`). -/
def Obligations.VisualizationCommand : Prop :=
  ∀ (pd : PixBuf) (s : State), s.canonical = true → gridLog s ≤ Config.log2Nmax →
    let fp := fpuOf s
    let N := 2 ^ gridLog s
    let mx := MaxMag fp ((List.range N).map fun i => (List.range N).map fun j => readGrid s i j)
    let lmax := flog10 fp (fadd fp 0x3FF0000000000000 mx)
    ∃ t, exec (.vis pd) s = .next t ∧
      (∀ i j, i < N → j < N →
        let lf := flog10 fp (fadd fp 0x3FF0000000000000 (Cmag fp (readGrid s i j)))
        let v := ffloor fp (fdiv fp (fmul fp 0x406FE00000000000 lf) lmax)
        readPixel t pd i j = if isNaN v then ⟨0, 0, 0, 0⟩ else ⟨toU8 v, toU8 v, toU8 v, 255⟩) ∧
      pixW t pd = N ∧ pixH t pd = N ∧ Accepted s t ∧ UnchangedOutside (pixTouch pd N) s t

/-! ### The host port and the step (spec/20_memory.md, spec/46_system.md) -/

/-- When the next event writes a command word to `CMD`, the step is the meaning of the decoded command (R26, R221). The
block has no program counter (R22); `withFetchWord` places that event. -/
def Obligations.StepRunsDecodedCommand : Prop :=
  (∀ (s : State) (w : Word32) (i : Instr) (rest : List HostEvent), decode w = .command i →
      s.inbox = RegWrite 1 w :: rest → step s = exec i { s with inbox := rest }) ∧
    ∀ (s : State) (w : Word32) (i : Instr), decode w = .command i →
      step (s.withFetchWord 32 w.toNat) = exec i s

/-- R55, R58, R269, R222, R247: a step answers a next state exactly when no event is pending or the next one is an
operation of the port; otherwise it is refused by name. No step faults. Two clauses are the model's own, DEDUCED: that a
step with nothing pending answers the state itself (log entry 8, from R222 and R247), and the refusal `accessValue` of a
value wider than its access (log entry 11, from R51). -/
def Obligations.StepStopsOnlyOutsideThePort : Prop :=
  ∀ s : State,
    (s.inbox = [] → step s = .next s) ∧
    (∀ e rest, s.inbox = e :: rest →
      ((∃ t, step s = .next t) ↔ e.wellFormed = true) ∧
      (e.wellFormed = false →
        step s = .refused .accessSize ∨ step s = .refused .accessIndex ∨ step s = .refused .accessValue))

/-- R222, R56, R59: a data read changes nothing but the replies; a data write stores the element and changes no other
element of any space, and the next read of it returns the value. A typed read replies the part or channel that the
commands read there (R51, R52). -/
def Obligations.DataAccesses : Prop :=
  (∀ (s : State) (r : CReg) (i j x y : Coord) (k : PixBuf),
    let replied (e : HostEvent) (v : Reply) : Prop := event e s = .next { s with replies := s.replies ++ [v] }
    replied (CRead r .re) (.part (readC s r).re) ∧ replied (CRead r .im) (.part (readC s r).im) ∧
    replied (VecRead i .re) (.part (readVec s i.val).re) ∧ replied (VecRead i .im) (.part (readVec s i.val).im) ∧
    replied (GridRead i j .re) (.part (readGrid s i.val j.val).re) ∧
    replied (GridRead i j .im) (.part (readGrid s i.val j.val).im) ∧
    replied (PixRead k x y .r) (.byte (readPixel s k x.val y.val).r) ∧
    replied (PixRead k x y .g) (.byte (readPixel s k x.val y.val).g) ∧
    replied (PixRead k x y .b) (.byte (readPixel s k x.val y.val).b) ∧
    replied (PixRead k x y .a) (.byte (readPixel s k x.val y.val).a)) ∧
  ∀ (sp : Space) (idx : Nat) (s : State), s.canonical = true → sp ≠ .reg → idx < sp.elems →
    event (.memRead sp idx sp.elemBytes) s = .next { s with replies := s.replies ++ [portRead s sp idx] } ∧
    ∀ v, v < 2 ^ (8 * sp.elemBytes) →
      ∃ t, event (.memWrite sp idx sp.elemBytes v) s = .next t ∧
        portRead t sp idx = (if sp = .pix0 ∨ sp = .pix1 then .byte (BitVec.ofNat 8 v) else .part (BitVec.ofNat 64 v)) ∧
        UnchangedOutside (fun sp' idx' => sp' = sp ∧ idx' = idx) s t

/-- R52, R50, R51, R58: the element indices of the typed locations lie inside their spaces, two locations never share
one, and every typed access is an operation of the port. -/
def Obligations.TypedLocationsAreDistinct : Prop :=
  (∀ (i : RegIndex) (w : Word32), (RegRead i).wellFormed = true ∧ (RegWrite i w).wellFormed = true) ∧
    (∀ (r : CReg) (i j : Coord) (part : Part) (v : Word64),
      (CRead r part).wellFormed = true ∧ (CWrite r part v).wellFormed = true ∧
      (VecRead i part).wellFormed = true ∧ (VecWrite i part v).wellFormed = true ∧
      (GridRead i j part).wellFormed = true ∧ (GridWrite i j part v).wellFormed = true) ∧
    (∀ (k : PixBuf) (x y : Coord) (ch : Channel) (v : Byte),
      (PixRead k x y ch).wellFormed = true ∧ (PixWrite k x y ch v).wellFormed = true) ∧
    (∀ r part, cregIndex r part < 32 ∧ ∀ r' part', cregIndex r part = cregIndex r' part' → r = r' ∧ part = part') ∧
    (∀ i part, i < Config.nmax → vecIndex i part < 2 * Config.nmax ∧
      ∀ i' part', vecIndex i part = vecIndex i' part' → i = i' ∧ part = part') ∧
    (∀ i j part, i < Config.nmax → j < Config.nmax → gridIndex i j part < 2 * Config.nmax ^ 2 ∧
      ∀ i' j' part', i' < Config.nmax → j' < Config.nmax → gridIndex i j part = gridIndex i' j' part' →
        i = i' ∧ j = j' ∧ part = part') ∧
    ∀ x y ch, x < Config.nmax → y < Config.nmax → pixIndex x y ch < 4 * Config.nmax ^ 2 ∧
      ∀ x' y' ch', x' < Config.nmax → y' < Config.nmax → pixIndex x y ch = pixIndex x' y' ch' →
        x = x' ∧ y = y' ∧ ch = ch'

/-- R222, R230: only `RegWrite(1, w)` changes `STATUS`, reset apart. -/
def Obligations.OnlyCommandsChangeStatus : Prop :=
  ∀ (e : HostEvent) (s t : State), event e s = .next t → e ≠ .reset → (∀ w, e ≠ RegWrite 1 w) →
    t.lastErr = s.lastErr ∧ t.sticky = s.sticky

/-- R23, R243: `STICKY` stays 1 until reset, whatever the step. -/
def Obligations.StickyStaysUntilReset : Prop :=
  ∀ s t : State, step s = .next t → s.sticky = true → (∀ rest, s.inbox ≠ .reset :: rest) → t.sticky = true

/-- R21: FFT1D, IFFT1D, GRAY, PAD, FWD2D, INV2D, VIS and NOP leave all sixteen complex registers unchanged. -/
def Obligations.OtherCommandsKeepComplexRegisters : Prop :=
  ∀ (ns : Bool) (pd ps : PixBuf) (s t : State),
    ∀ i ∈ [Instr.fft1d ns, Instr.ifft1d, Instr.gray ps, Instr.pad pd ps, Instr.fwd2d ps, Instr.inv2d pd,
      Instr.vis pd, Instr.nop], exec i s = .next t → t.c = s.c

/-- R171 "Alpha is ignored", for GRAY and FWD2D: two states that agree on the size and on the red, green and blue
bytes of the active region give the same grid. The two states draw the same NaN bits (log entry 3). -/
def Obligations.AlphaNeverReachesTheGrid : Prop :=
  ∀ (ps : PixBuf) (s s' t t' : State), s.canonical = true → s'.canonical = true → s.draws = s'.draws →
    pixW s ps = pixW s' ps → pixH s ps = pixH s' ps →
    (∀ x y, x < pixW s ps → y < pixH s ps →
      (readPixel s ps x y).r = (readPixel s' ps x y).r ∧ (readPixel s ps x y).g = (readPixel s' ps x y).g ∧
      (readPixel s ps x y).b = (readPixel s' ps x y).b) →
    ∀ i ∈ [Instr.gray ps, Instr.fwd2d ps], exec i s = .next t → exec i s' = .next t' →
      t.lastErr = t'.lastErr ∧
      (t.lastErr = 0 → gridLog t = gridLog t' ∧
        ∀ x y, x < pixW s ps → y < pixW s ps → readGrid t x y = readGrid t' x y)

/-! ### Invariants -/

/-- Every step keeps the invariant: storage is canonical and inside its spaces, and `STATUS` is one the rules produce. -/
def Obligations.StepKeepsInvariant : Prop :=
  ∀ s t : State, s.inv = true → step s = .next t → t.inv = true

/-- The state after reset meets the invariant. -/
def Obligations.ResetMeetsInvariant : Prop :=
  State.reset.inv = true

/-! ### Numerics (spec/40_numerics.md) -/

/-- R100, R105: the value of a bit pattern in each of the five classes, and `isNaN`. -/
def Obligations.FormatOfBinary64 : Prop :=
  ∀ a : Word64,
    let sgn : ℚ := if a.getLsbD 63 then -1 else 1
    let e := (a.extractLsb' 52 11).toNat
    let f := (a.extractLsb' 0 52).toNat
    (1 ≤ e → e ≤ 2046 → isFinite a = true ∧ f64 a = sgn * 2 ^ ((e : ℤ) - 1023) * (1 + f / 2 ^ 52)) ∧
    (e = 0 → isFinite a = true ∧ f64 a = sgn * 2 ^ (-1022 : ℤ) * (f / 2 ^ 52)) ∧
    (e = 2047 → isFinite a = false) ∧
    (isNaN a = true ↔ e = 2047 ∧ f ≠ 0) ∧
    (e = 2047 → f = 0 → a = if a.getLsbD 63 then 0xFFF0000000000000 else 0x7FF0000000000000) ∧
    (e = 0 → f = 0 → a = if a.getLsbD 63 then 0x8000000000000000 else 0x0000000000000000)

/-- R102, R101: sums, differences, products and quotients of finite operands are correctly rounded. -/
def Obligations.BasicOperationsCorrectlyRounded : Prop :=
  ∀ (fp : Fpu) (a b : Word64), isFinite a = true → isFinite b = true →
    CorrectlyRounded ((f64 a + f64 b : ℚ) : ℝ) (fadd fp a b) ∧
    CorrectlyRounded ((f64 a - f64 b : ℚ) : ℝ) (fsub fp a b) ∧
    CorrectlyRounded ((f64 a * f64 b : ℚ) : ℝ) (fmul fp a b) ∧
    (f64 b ≠ 0 → CorrectlyRounded ((f64 a / f64 b : ℚ) : ℝ) (fdiv fp a b))

/-- R103: the square root is correctly rounded, with its special cases. -/
def Obligations.SquareRootCorrectlyRounded : Prop :=
  ∀ fp : Fpu,
    fsqrt fp 0x0000000000000000 = 0x0000000000000000 ∧ fsqrt fp 0x8000000000000000 = 0x8000000000000000 ∧
    fsqrt fp 0x7FF0000000000000 = 0x7FF0000000000000 ∧
    (∀ a, fgt F0 a = true → isNaN (fsqrt fp a) = true) ∧ (∀ a, isNaN a = true → isNaN (fsqrt fp a) = true) ∧
    ∀ a, isFinite a = true → 0 ≤ f64 a → CorrectlyRounded (Real.sqrt (f64 a : ℝ)) (fsqrt fp a)

/-- R102: addition and multiplication are commutative bit for bit on results that are no NaN. -/
def Obligations.SumAndProductCommute : Prop :=
  ∀ (fp : Fpu) (a b : Word64),
    (isNaN (fadd fp a b) = false → fadd fp b a = fadd fp a b) ∧
    (isNaN (fmul fp a b) = false → fmul fp b a = fmul fp a b)

/-- R104, R133: negation inverts bit 63 alone, zeros, infinities and NaNs included; conjugation keeps the real part bit
for bit and is its own inverse; `NEG_TWO_PI` is `fneg(fmul(2.0, PI64))`. -/
def Obligations.NegationAndConjugation : Prop :=
  (∀ a : Word64, (fneg a).getLsbD 63 = !a.getLsbD 63 ∧ ∀ i, i < 63 → (fneg a).getLsbD i = a.getLsbD i) ∧
    fneg 0x0000000000000000 = 0x8000000000000000 ∧
    (∀ fp, fneg (fmul fp 0x4000000000000000 0x400921FB54442D18) = NEG_TWO_PI) ∧
    ∀ z : Sample, (Cconj z).re = z.re ∧ (Cconj z).im = fneg z.im ∧ Cconj (Cconj z) = z

/-- R106: an operation returns a NaN exactly in the listed cases, and then any NaN may be the one returned. -/
def Obligations.NaNExactlyInTheListedCases : Prop :=
  let pinf : Word64 := 0x7FF0000000000000
  let ninf : Word64 := 0xFFF0000000000000
  let isInf (a : Word64) : Prop := a = pinf ∨ a = ninf
  let isZero (a : Word64) : Prop := a = 0x0000000000000000 ∨ a = 0x8000000000000000
  (∀ (fp : Fpu) (a b : Word64),
    (isNaN (fadd fp a b) = true ↔
      isNaN a = true ∨ isNaN b = true ∨ (a = pinf ∧ b = ninf) ∨ (a = ninf ∧ b = pinf)) ∧
    (isNaN (fsub fp a b) = true ↔
      isNaN a = true ∨ isNaN b = true ∨ (a = pinf ∧ b = pinf) ∨ (a = ninf ∧ b = ninf)) ∧
    (isNaN (fmul fp a b) = true ↔
      isNaN a = true ∨ isNaN b = true ∨ (isZero a ∧ isInf b) ∨ (isInf a ∧ isZero b)) ∧
    (isNaN (fdiv fp a b) = true ↔
      isNaN a = true ∨ isNaN b = true ∨ (isZero a ∧ isZero b) ∨ (isInf a ∧ isInf b)) ∧
    (isNaN (fsqrt fp a) = true ↔ isNaN a = true ∨ fgt 0x0000000000000000 a = true) ∧
    (isNaN (fsin fp a) = true ↔ isNaN a = true ∨ isInf a) ∧
    (isNaN (fcos fp a) = true ↔ isNaN a = true ∨ isInf a) ∧
    (isNaN (flog10 fp a) = true ↔ isNaN a = true ∨ fgt 0x0000000000000000 a = true) ∧
    (isNaN (ffloor fp a) = true ↔ isNaN a = true)) ∧
  (∀ f ∈ [fadd, fsub, fmul, fdiv], ∀ fp a b, isNaN (f fp a b) = true →
    ∀ x, isNaN x = true → ∃ fp', f fp' a b = x) ∧
  (∀ f ∈ [fsqrt, fsin, fcos, flog10, ffloor], ∀ fp a, isNaN (f fp a) = true →
    ∀ x, isNaN x = true → ∃ fp', f fp' a = x)

/-- R107: the signs of zero results, and that nothing but bit 63 and `fdiv` tells the zeros apart. -/
def Obligations.SignedZeros : Prop :=
  let pz : Word64 := 0x0000000000000000
  let nz : Word64 := 0x8000000000000000
  ∀ fp : Fpu,
    (∀ x, isFinite x = true → fadd fp x (fneg x) = pz ∧ fsub fp x x = pz) ∧
    fadd fp pz nz = pz ∧ fadd fp nz pz = pz ∧ fadd fp nz nz = nz ∧
    fsub fp pz pz = pz ∧ fsub fp nz pz = nz ∧ fsub fp pz nz = pz ∧ fsub fp nz nz = pz ∧
    (∀ a b, isNaN (fmul fp a b) = false → (fmul fp a b).getLsbD 63 = (a.getLsbD 63 ^^ b.getLsbD 63)) ∧
    (∀ a b, isNaN (fdiv fp a b) = false → (fdiv fp a b).getLsbD 63 = (a.getLsbD 63 ^^ b.getLsbD 63)) ∧
    (∀ x, isFinite x = true → (fdiv fp x 0x7FF0000000000000) &&& 0x7FFFFFFFFFFFFFFF = pz ∧
      (fdiv fp x 0xFFF0000000000000) &&& 0x7FFFFFFFFFFFFFFF = pz) ∧
    (∀ x, isFinite x = true → f64 x ≠ 0 → (fdiv fp x pz) &&& 0x7FFFFFFFFFFFFFFF = 0x7FF0000000000000 ∧
      (fdiv fp x nz) &&& 0x7FFFFFFFFFFFFFFF = 0x7FF0000000000000) ∧
    toU8 pz = toU8 nz ∧ isNaN pz = isNaN nz ∧
    (∀ x, fgt pz x = fgt nz x ∧ fgt x pz = fgt x nz ∧ fge pz x = fge nz x ∧ fge x pz = fge x nz ∧
      fle pz x = fle nz x ∧ fle x pz = fle x nz)

/-- R120: on operands that are no NaN a comparison is that of the values, the infinities' among them; a NaN compares with
nothing; the zeros compare equal; `+inf` is above every finite value. -/
def Obligations.ComparisonOfValues : Prop :=
  (∀ a b, isNaN a = false → isNaN b = false →
    (fgt a b = true ↔ extendedValue b < extendedValue a) ∧ (fge a b = true ↔ extendedValue b ≤ extendedValue a) ∧
    (fle a b = true ↔ extendedValue a ≤ extendedValue b)) ∧
  (∀ a b, isNaN a = true ∨ isNaN b = true → fgt a b = false ∧ fge a b = false ∧ fle a b = false) ∧
  fge 0x0000000000000000 0x8000000000000000 = true ∧ fle 0x0000000000000000 0x8000000000000000 = true ∧
  fge 0x8000000000000000 0x0000000000000000 = true ∧ fle 0x8000000000000000 0x0000000000000000 = true ∧
  ∀ a, isFinite a = true → fgt 0x7FF0000000000000 a = true ∧ fgt a 0xFFF0000000000000 = true ∧
    fgt a 0x7FF0000000000000 = false ∧ fgt 0xFFF0000000000000 a = false

/-- R110 items 2 and 3 and the bound of item 4: the special values of the sine and cosine, whatever `NUM` is. -/
def Obligations.SineAndCosineContract : Prop :=
  ∀ fp : Fpu,
    fsin fp 0x0000000000000000 = 0x0000000000000000 ∧ fsin fp 0x8000000000000000 = 0x8000000000000000 ∧
    fcos fp 0x0000000000000000 = 0x3FF0000000000000 ∧ fcos fp 0x8000000000000000 = 0x3FF0000000000000 ∧
    (∀ a, isFinite a = false → isNaN (fsin fp a) = true ∧ isNaN (fcos fp a) = true) ∧
    ∀ a, isFinite a = true → isFinite (fsin fp a) = true ∧ isFinite (fcos fp a) = true ∧
      |f64 (fsin fp a)| ≤ 1 ∧ |f64 (fcos fp a)| ≤ 1

/-- R111 items 2, 3 and 5: the special values of the logarithm and its monotonicity from 1.0 on, whatever `NUM` is. -/
def Obligations.LogarithmContract : Prop :=
  ∀ fp : Fpu,
    flog10 fp 0x3FF0000000000000 = 0x0000000000000000 ∧ flog10 fp 0x7FF0000000000000 = 0x7FF0000000000000 ∧
    flog10 fp 0x0000000000000000 = 0xFFF0000000000000 ∧ flog10 fp 0x8000000000000000 = 0xFFF0000000000000 ∧
    (∀ a, isNaN a = true ∨ fgt 0x0000000000000000 a = true → isNaN (flog10 fp a) = true) ∧
    (∀ a b, fle 0x3FF0000000000000 a = true → fle a b = true → fle (flog10 fp a) (flog10 fp b) = true) ∧
    ∀ a, fle 0x3FF0000000000000 a = true → (flog10 fp a).getLsbD 63 = false

/-- R110 item 4 and R111 item 4, as far as the model carries them (log entries 5 and 6). The real sine, cosine and
logarithm lie in the enclosure, and the result lies between the representable values around the enclosure. So where no
representable value lies inside the enclosure, none lies between the result and the real value. The enclosure is narrow:
for an argument below `2^-27` its width is at most an eighth of the last place of the result; from there on it is below
`2^-200` for the sine and the cosine and below `2^-240` for the logarithm. Where the result is a zero, which is possible
for the sine of the least subnormals only, its sign is the model's choice (log entry 21). -/
def Obligations.ConfigurationFunctionsEnclosed : Prop :=
  ∀ (fp : Fpu) (a : Word64) (s : Bool) (m : Nat) (e : ℤ), unpack a = .fin s m e → m ≠ 0 →
    let x : ℝ := m * 2 ^ e
    let width (b : Enclosure) : ℝ := ((b.hi : ℝ) - b.lo) * 2 ^ b.exp
    let nothingInside (b : Enclosure) : Prop := ∀ c, isFinite c = true →
      ¬ ((b.lo : ℝ) * 2 ^ b.exp < |(f64 c : ℝ)| ∧ |(f64 c : ℝ)| < b.hi * 2 ^ b.exp)
    let nothingBetween (v : ℝ) (r : Word64) : Prop := ∀ c, isFinite c = true →
      ¬ (|(f64 r : ℝ)| < |(f64 c : ℝ)| ∧ |(f64 c : ℝ)| < v) ∧ ¬ (v < |(f64 c : ℝ)| ∧ |(f64 c : ℝ)| < |(f64 r : ℝ)|)
    let within (b : Enclosure) (v : ℝ) (r : Word64) : Prop :=
      (b.lo : ℝ) * 2 ^ b.exp ≤ v ∧ v ≤ b.hi * 2 ^ b.exp ∧ isFinite r = true ∧
        roundMag .down b.lo b.exp ≤ magBits r ∧ magBits r ≤ roundMag .up b.hi b.exp ∧
        (nothingInside b → nothingBetween v r)
    within (encloseSin m e).2 |Real.sin x| (fsin fp a) ∧
    width (encloseSin m e).2 ≤ (if x < 2 ^ (-27 : ℤ) then x * 2 ^ (-56 : ℤ) else 2 ^ (-200 : ℤ)) ∧
    (0 < (encloseSin m e).2.lo → ((fsin fp a).getLsbD 63 = true ↔ Real.sin (f64 a) < 0)) ∧
    within (encloseCos m e).2 |Real.cos x| (fcos fp a) ∧
    width (encloseCos m e).2 ≤ (if x < 2 ^ (-27 : ℤ) then 2 ^ (-55 : ℤ) else 2 ^ (-200 : ℤ)) ∧
    (0 < (encloseCos m e).2.lo → ((fcos fp a).getLsbD 63 = true ↔ Real.cos (f64 a) < 0)) ∧
    (s = false → 1 ≤ x → within (encloseLog10 m e) (Real.logb 10 x) (flog10 fp a) ∧
      width (encloseLog10 m e) ≤ 2 ^ (-240 : ℤ) ∧ (flog10 fp a).getLsbD 63 = false) ∧
    (s = false → x < 1 → within (encloseNegLog10 m e) (-Real.logb 10 x) (flog10 fp a) ∧
      width (encloseNegLog10 m e) ≤ 2 ^ (-240 : ℤ) ∧ (flog10 fp a).getLsbD 63 = true)

/-- R112. Strictly between -1 and 0 the rule names `-0.0`, which its first words do not (log entry 12). -/
def Obligations.FloorOfValues : Prop :=
  ∀ fp : Fpu,
    (∀ a, isFinite a = true → ¬ (-1 < f64 a ∧ f64 a < 0) →
      isFinite (ffloor fp a) = true ∧ f64 (ffloor fp a) = ⌊f64 a⌋) ∧
    (∀ a, isFinite a = true → -1 < f64 a → f64 a < 0 → ffloor fp a = 0x8000000000000000) ∧
    (∀ a ∈ [0x0000000000000000, 0x8000000000000000, 0x7FF0000000000000, 0xFFF0000000000000], ffloor fp a = a) ∧
    ∀ a, isNaN a = true → isNaN (ffloor fp a) = true

/-- R113: integers and bytes are converted exactly. -/
def Obligations.IntegerConversionsExact : Prop :=
  (∀ i : Int, i.natAbs ≤ 2 ^ 53 → isFinite (intToF64 i) = true ∧ f64 (intToF64 i) = i) ∧
    (∀ b : Byte, isFinite (u8ToF64 b) = true ∧ f64 (u8ToF64 b) = b.toNat) ∧
    u8ToF64 0 = 0x0000000000000000 ∧ intToF64 0 = 0x0000000000000000

/-- R114: truncation toward zero with saturation, and the rule's examples. -/
def Obligations.ByteConversion : Prop :=
  (∀ v, isNaN v = true → toU8 v = 0) ∧
    (∀ v, fge v 0x4070000000000000 = true → toU8 v = 255) ∧
    (∀ v, fle v 0x0000000000000000 = true → toU8 v = 0) ∧
    (∀ v, isFinite v = true → 0 < f64 v → f64 v < 256 → ((toU8 v).toNat : ℤ) = ⌊f64 v⌋) ∧
    toU8 0x406FDFFFFFFFFFFF = 254 ∧ toU8 0x406FE00000000000 = 255 ∧ toU8 0x406FFFFF2E48E8A7 = 255 ∧
    toU8 0x4070000000000000 = 255 ∧ toU8 0x3FEFF7CED916872B = 0 ∧ toU8 0x8000000000000000 = 0

/-- R116, R117: the smallest power of two that is at least `m`; powers of two and their logarithms. -/
def Obligations.PowersOfTwo : Prop :=
  (∀ m, ∃ n, nextPow2 m = 2 ^ n ∧ m ≤ 2 ^ n ∧ ∀ k, m ≤ 2 ^ k → 2 ^ n ≤ 2 ^ k) ∧
    (∀ m, m ≤ Config.nmax → nextPow2 m ≤ Config.nmax) ∧
    nextPow2 0 = 1 ∧ nextPow2 1 = 1 ∧ nextPow2 2 = 2 ∧ nextPow2 3 = 4 ∧ nextPow2 4 = 4 ∧ nextPow2 5 = 8 ∧
    nextPow2 64 = 64 ∧ nextPow2 65 = 128 ∧
    (∀ m, isPow2 m = true ↔ ∃ n, m = 2 ^ n) ∧ ∀ n, (2 ^ n).log2 = n

/-- R134: a magnitude is a NaN or has its sign bit clear, and is a NaN when a part is one; the rule's examples. -/
def Obligations.MagnitudeIsNeverNegative : Prop :=
  ∀ fp : Fpu,
    (∀ z, isNaN (Cmag fp z) = true ∨ (Cmag fp z).getLsbD 63 = false) ∧
    (∀ z : Sample, isNaN z.re = true ∨ isNaN z.im = true → isNaN (Cmag fp z) = true) ∧
    Cmag fp ⟨0x4008000000000000, 0x4010000000000000⟩ = 0x4014000000000000 ∧
    Cmag fp ⟨0x8000000000000000, 0x8000000000000000⟩ = 0x0000000000000000 ∧
    Cmag fp ⟨0x6974E718D7D7625A, 0x0000000000000000⟩ = 0x7FF0000000000000 ∧
    Cmag fp ⟨0x16687E92154EF7AC, 0x16687E92154EF7AC⟩ = 0x0000000000000000

/-- R135: with magnitude 1.0 the products are exact; the rule's examples at angle zero. -/
def Obligations.UnitPolarIsExact : Prop :=
  ∀ fp : Fpu,
    (∀ t, isNaN (fcos fp t) = false → isNaN (fsin fp t) = false →
      Cpolar fp 0x3FF0000000000000 t = ⟨fcos fp t, fsin fp t⟩) ∧
    Cpolar fp 0xC000000000000000 0x0000000000000000 = ⟨0xC000000000000000, 0x8000000000000000⟩ ∧
    Cpolar fp 0x4008000000000000 0x8000000000000000 = ⟨0x4008000000000000, 0x8000000000000000⟩

/-- R170: the luma lies between 0 and 255 for every pixel, reaches both ends exactly, and the rule's example. -/
def Obligations.LumaWithinRange : Prop :=
  ∀ fp : Fpu,
    (∀ r g b, fle 0x0000000000000000 (Luma fp r g b) = true ∧ fle (Luma fp r g b) 0x406FE00000000000 = true ∧
      (Luma fp r g b).getLsbD 63 = false) ∧
    Luma fp 0 0 0 = 0x0000000000000000 ∧ Luma fp 255 255 255 = 0x406FE00000000000 ∧
    Luma fp 12 34 56 = 0x403DEE147AE147AF

/-! ### The transforms (spec/42_fft1d.md to spec/45_visualization.md) -/

/-- R150 to R154: the base case with its guard, and the two halves, twiddles and butterflies of every level. -/
def Obligations.ForwardTransform : Prop :=
  ∀ (fp : Fpu) (ps : Bool),
    (∀ z : Sample, Fft1 fp ps 0 [z] =
      if isNaN z.re || isNaN z.im then [⟨0x0000000000000000, 0x0000000000000000⟩] else [z]) ∧
    ∀ (L : Nat) (x : Samples), x.length = 2 ^ (L + 1) →
      let h := 2 ^ L
      let E := Fft1 fp ps L ((List.range h).map fun k => sampleAt x (2 * k))
      let O := Fft1 fp ps L ((List.range h).map fun k => sampleAt x (2 * k + 1))
      let omega := fdiv fp 0xC01921FB54442D18 (intToF64 (2 * h : Nat))
      let y := Fft1 fp ps (L + 1) x
      y.length = 2 ^ (L + 1) ∧ ∀ k, k < h →
        let phase : Int := if ps then (k : Int) - h else k
        let t := Cmul fp (sampleAt O k) (Cpolar fp 0x3FF0000000000000 (fmul fp omega (intToF64 phase)))
        sampleAt y k = Cadd fp (sampleAt E k) t ∧ sampleAt y (k + h) = Csub fp (sampleAt E k) t

/-- R151: the guard acts on each input sample and only there: the transform of the guarded input is the transform; an
infinite sample passes through the base case; and a NaN that the arithmetic creates stays in the output (R155 (b), its
example with `phaseShift` false). -/
def Obligations.GuardActsOnInputsOnly : Prop :=
  ∀ fp : Fpu,
    (∀ (ps : Bool) (L : Nat) (x : Samples), x.length = 2 ^ L →
      Fft1 fp ps L (x.map fun z => if CisNaN z then ⟨0x0000000000000000, 0x0000000000000000⟩ else z) =
        Fft1 fp ps L x) ∧
    (∀ (ps : Bool) (z : Sample), isNaN z.re = false → isNaN z.im = false → Fft1 fp ps 0 [z] = [z]) ∧
    let one : Word64 := 0x3FF0000000000000
    let y := Fft1 fp false 1 [⟨one, 0x0000000000000000⟩, ⟨0x7FF0000000000000, one⟩]
    y.length = 2 ∧ (sampleAt y 0).re = 0x7FF0000000000000 ∧ isNaN (sampleAt y 0).im = true ∧
      (sampleAt y 1).re = 0xFFF0000000000000 ∧ isNaN (sampleAt y 1).im = true

/-- R156: the iterative in-place form returns the same bits for every input of every power-of-two length. -/
def Obligations.IterativeFormIsTheRecursion : Prop :=
  ∀ (fp : Fpu) (ps : Bool) (L : Nat) (x : Samples), x.length = 2 ^ L → FftIter fp ps L x = Fft1 fp ps L x

/-- R210: the result is `+0.0` or a magnitude of the grid, no NaN, no magnitude is greater, and the order of the scan
does not matter. -/
def Obligations.MaxMagIsTheGreatest : Prop :=
  ∀ (fp : Fpu) (g : SampleGrid),
    isNaN (MaxMag fp g) = false ∧
    (MaxMag fp g = 0x0000000000000000 ∨ ∃ row ∈ g, ∃ z ∈ row, MaxMag fp g = Cmag fp z) ∧
    (∀ row ∈ g, ∀ z ∈ row, isNaN (Cmag fp z) = true ∨ fle (Cmag fp z) (MaxMag fp g) = true) ∧
    ∀ g' : SampleGrid, g'.flatten.Perm g.flatten → MaxMag fp g' = MaxMag fp g

/-- Monotonicity of the picture (R211, R213's argument): with `0 < Lmax < +inf`, a greater magnitude has no smaller
byte. -/
def Obligations.VisualizationIsMonotone : Prop :=
  ∀ (fp : Fpu) (m1 m2 mx : Word64), fle 0x0000000000000000 m1 = true → fle m1 m2 = true →
    fgt (flog10 fp (fadd fp 0x3FF0000000000000 mx)) 0x0000000000000000 = true →
    fgt 0x7FF0000000000000 (flog10 fp (fadd fp 0x3FF0000000000000 mx)) = true →
    (toU8 (VisValue fp m1 mx)).toNat ≤ (toU8 (VisValue fp m2 mx)).toNat

/-- After an accepted `PAD pd, ps` the command `PAD ps, pd` is accepted and leaves the active region of `P[ps]` equal,
byte for byte, to that of `P[pd]`. -/
def Obligations.PaddingTwiceChangesNothing : Prop :=
  ∀ (pd ps : PixBuf) (s t : State), s.canonical = true → exec (.pad pd ps) s = .next t → t.lastErr = 0 →
    ∃ u, exec (.pad ps pd) t = .next u ∧ u.lastErr = 0 ∧ pixW u ps = pixW t pd ∧ pixH u ps = pixH t pd ∧
      pixW t pd = pixH t pd ∧
      ∀ x y, x < pixW t pd → y < pixH t pd → readPixel u ps x y = readPixel t pd x y

/-- `PAD pd, ps`, once accepted, makes `FWD2D pd` and `GRAY pd` accepted, on a grid of the padded side. -/
def Obligations.PaddedImageIsAlwaysTransformable : Prop :=
  ∀ (pd ps : PixBuf) (s t : State), exec (.pad pd ps) s = .next t → t.lastErr = 0 →
    ∀ i ∈ [Instr.fwd2d pd, Instr.gray pd],
      ∃ u, exec i t = .next u ∧ u.lastErr = 0 ∧ u.sticky = t.sticky ∧ 2 ^ gridLog u = pixW t pd

/-- A register that holds `(-0.0, -0.0)` makes CADD a copy of every sample without a NaN part (the derivation in
R226 from R107). -/
def Obligations.AddingNegativeZeroCopies : Prop :=
  ∀ (cd ca cz : CReg) (s : State), readC s cz = ⟨0x8000000000000000, 0x8000000000000000⟩ →
    isNaN (readC s ca).re = false → isNaN (readC s ca).im = false →
    ∃ t, exec (.cadd cd ca cz) s = .next t ∧ readC t cd = readC s ca
end

