-- ==== Sys2Proof/Laws/State.lean ====
section
/-! SUPPORT. One lemma per field per update of the state, so that no proof unfolds a record update. The updates that
name a pixel buffer have their own fields' lemmas in terms of the buffer (`pixMem`, `pixW`, `pixH`). -/

namespace Sys2Proof.Machine

variable (s : State)

/-! ### `flagsAccepted` -/

@[simp] theorem flagsAccepted_c : (flagsAccepted s).c = s.c := rfl
@[simp] theorem flagsAccepted_vec : (flagsAccepted s).vec = s.vec := rfl
@[simp] theorem flagsAccepted_grid : (flagsAccepted s).grid = s.grid := rfl
@[simp] theorem flagsAccepted_pix0 : (flagsAccepted s).pix0 = s.pix0 := rfl
@[simp] theorem flagsAccepted_pix1 : (flagsAccepted s).pix1 = s.pix1 := rfl
@[simp] theorem flagsAccepted_pix0W : (flagsAccepted s).pix0W = s.pix0W := rfl
@[simp] theorem flagsAccepted_pix0H : (flagsAccepted s).pix0H = s.pix0H := rfl
@[simp] theorem flagsAccepted_pix1W : (flagsAccepted s).pix1W = s.pix1W := rfl
@[simp] theorem flagsAccepted_pix1H : (flagsAccepted s).pix1H = s.pix1H := rfl
@[simp] theorem flagsAccepted_gridLog2n : (flagsAccepted s).gridLog2n = s.gridLog2n := rfl
@[simp] theorem flagsAccepted_vecLog2n : (flagsAccepted s).vecLog2n = s.vecLog2n := rfl
@[simp] theorem flagsAccepted_lastErr : (flagsAccepted s).lastErr = 0 := rfl
@[simp] theorem flagsAccepted_sticky : (flagsAccepted s).sticky = s.sticky := rfl
@[simp] theorem flagsAccepted_draws : (flagsAccepted s).draws = s.draws := rfl
@[simp] theorem flagsAccepted_resets : (flagsAccepted s).resets = s.resets := rfl
@[simp] theorem flagsAccepted_inbox : (flagsAccepted s).inbox = s.inbox := rfl
@[simp] theorem flagsAccepted_replies : (flagsAccepted s).replies = s.replies := rfl

/-! ### `flagsRejected` -/

@[simp] theorem flagsRejected_c (e : ErrCode) : (flagsRejected e s).c = s.c := rfl
@[simp] theorem flagsRejected_vec (e : ErrCode) : (flagsRejected e s).vec = s.vec := rfl
@[simp] theorem flagsRejected_grid (e : ErrCode) : (flagsRejected e s).grid = s.grid := rfl
@[simp] theorem flagsRejected_pix0 (e : ErrCode) : (flagsRejected e s).pix0 = s.pix0 := rfl
@[simp] theorem flagsRejected_pix1 (e : ErrCode) : (flagsRejected e s).pix1 = s.pix1 := rfl
@[simp] theorem flagsRejected_pix0W (e : ErrCode) : (flagsRejected e s).pix0W = s.pix0W := rfl
@[simp] theorem flagsRejected_pix0H (e : ErrCode) : (flagsRejected e s).pix0H = s.pix0H := rfl
@[simp] theorem flagsRejected_pix1W (e : ErrCode) : (flagsRejected e s).pix1W = s.pix1W := rfl
@[simp] theorem flagsRejected_pix1H (e : ErrCode) : (flagsRejected e s).pix1H = s.pix1H := rfl
@[simp] theorem flagsRejected_gridLog2n (e : ErrCode) : (flagsRejected e s).gridLog2n = s.gridLog2n := rfl
@[simp] theorem flagsRejected_vecLog2n (e : ErrCode) : (flagsRejected e s).vecLog2n = s.vecLog2n := rfl
@[simp] theorem flagsRejected_lastErr (e : ErrCode) : (flagsRejected e s).lastErr = e.code := rfl
@[simp] theorem flagsRejected_sticky (e : ErrCode) : (flagsRejected e s).sticky = true := rfl
@[simp] theorem flagsRejected_draws (e : ErrCode) : (flagsRejected e s).draws = s.draws := rfl
@[simp] theorem flagsRejected_resets (e : ErrCode) : (flagsRejected e s).resets = s.resets := rfl
@[simp] theorem flagsRejected_inbox (e : ErrCode) : (flagsRejected e s).inbox = s.inbox := rfl
@[simp] theorem flagsRejected_replies (e : ErrCode) : (flagsRejected e s).replies = s.replies := rfl

/-! ### `accept` -/

@[simp] theorem accept_c : (accept s).c = s.c := rfl
@[simp] theorem accept_vec : (accept s).vec = s.vec := rfl
@[simp] theorem accept_grid : (accept s).grid = s.grid := rfl
@[simp] theorem accept_pix0 : (accept s).pix0 = s.pix0 := rfl
@[simp] theorem accept_pix1 : (accept s).pix1 = s.pix1 := rfl
@[simp] theorem accept_pix0W : (accept s).pix0W = s.pix0W := rfl
@[simp] theorem accept_pix0H : (accept s).pix0H = s.pix0H := rfl
@[simp] theorem accept_pix1W : (accept s).pix1W = s.pix1W := rfl
@[simp] theorem accept_pix1H : (accept s).pix1H = s.pix1H := rfl
@[simp] theorem accept_gridLog2n : (accept s).gridLog2n = s.gridLog2n := rfl
@[simp] theorem accept_vecLog2n : (accept s).vecLog2n = s.vecLog2n := rfl
@[simp] theorem accept_lastErr : (accept s).lastErr = 0 := rfl
@[simp] theorem accept_sticky : (accept s).sticky = s.sticky := rfl
@[simp] theorem accept_draws : (accept s).draws = s.draws + 1 := rfl
@[simp] theorem accept_resets : (accept s).resets = s.resets := rfl
@[simp] theorem accept_inbox : (accept s).inbox = s.inbox := rfl
@[simp] theorem accept_replies : (accept s).replies = s.replies := rfl

/-! ### `reject` -/

@[simp] theorem reject_c (e : ErrCode) : (reject e s).c = s.c := rfl
@[simp] theorem reject_vec (e : ErrCode) : (reject e s).vec = s.vec := rfl
@[simp] theorem reject_grid (e : ErrCode) : (reject e s).grid = s.grid := rfl
@[simp] theorem reject_pix0 (e : ErrCode) : (reject e s).pix0 = s.pix0 := rfl
@[simp] theorem reject_pix1 (e : ErrCode) : (reject e s).pix1 = s.pix1 := rfl
@[simp] theorem reject_pix0W (e : ErrCode) : (reject e s).pix0W = s.pix0W := rfl
@[simp] theorem reject_pix0H (e : ErrCode) : (reject e s).pix0H = s.pix0H := rfl
@[simp] theorem reject_pix1W (e : ErrCode) : (reject e s).pix1W = s.pix1W := rfl
@[simp] theorem reject_pix1H (e : ErrCode) : (reject e s).pix1H = s.pix1H := rfl
@[simp] theorem reject_gridLog2n (e : ErrCode) : (reject e s).gridLog2n = s.gridLog2n := rfl
@[simp] theorem reject_vecLog2n (e : ErrCode) : (reject e s).vecLog2n = s.vecLog2n := rfl
@[simp] theorem reject_lastErr (e : ErrCode) : (reject e s).lastErr = e.code := rfl
@[simp] theorem reject_sticky (e : ErrCode) : (reject e s).sticky = true := rfl
@[simp] theorem reject_draws (e : ErrCode) : (reject e s).draws = s.draws := rfl
@[simp] theorem reject_resets (e : ErrCode) : (reject e s).resets = s.resets := rfl
@[simp] theorem reject_inbox (e : ErrCode) : (reject e s).inbox = s.inbox := rfl
@[simp] theorem reject_replies (e : ErrCode) : (reject e s).replies = s.replies := rfl

/-! ### `writeC` -/

@[simp] theorem writeC_c (r : CReg) (v : Sample) : (writeC r v s).c = s.c.set r.val v r.isLt := rfl
@[simp] theorem writeC_vec (r : CReg) (v : Sample) : (writeC r v s).vec = s.vec := rfl
@[simp] theorem writeC_grid (r : CReg) (v : Sample) : (writeC r v s).grid = s.grid := rfl
@[simp] theorem writeC_pix0 (r : CReg) (v : Sample) : (writeC r v s).pix0 = s.pix0 := rfl
@[simp] theorem writeC_pix1 (r : CReg) (v : Sample) : (writeC r v s).pix1 = s.pix1 := rfl
@[simp] theorem writeC_pix0W (r : CReg) (v : Sample) : (writeC r v s).pix0W = s.pix0W := rfl
@[simp] theorem writeC_pix0H (r : CReg) (v : Sample) : (writeC r v s).pix0H = s.pix0H := rfl
@[simp] theorem writeC_pix1W (r : CReg) (v : Sample) : (writeC r v s).pix1W = s.pix1W := rfl
@[simp] theorem writeC_pix1H (r : CReg) (v : Sample) : (writeC r v s).pix1H = s.pix1H := rfl
@[simp] theorem writeC_gridLog2n (r : CReg) (v : Sample) : (writeC r v s).gridLog2n = s.gridLog2n := rfl
@[simp] theorem writeC_vecLog2n (r : CReg) (v : Sample) : (writeC r v s).vecLog2n = s.vecLog2n := rfl
@[simp] theorem writeC_lastErr (r : CReg) (v : Sample) : (writeC r v s).lastErr = s.lastErr := rfl
@[simp] theorem writeC_sticky (r : CReg) (v : Sample) : (writeC r v s).sticky = s.sticky := rfl
@[simp] theorem writeC_draws (r : CReg) (v : Sample) : (writeC r v s).draws = s.draws := rfl
@[simp] theorem writeC_resets (r : CReg) (v : Sample) : (writeC r v s).resets = s.resets := rfl
@[simp] theorem writeC_inbox (r : CReg) (v : Sample) : (writeC r v s).inbox = s.inbox := rfl
@[simp] theorem writeC_replies (r : CReg) (v : Sample) : (writeC r v s).replies = s.replies := rfl

/-! ### `setGridLog` -/

@[simp] theorem setGridLog_c (n : Nat) : (setGridLog n s).c = s.c := rfl
@[simp] theorem setGridLog_vec (n : Nat) : (setGridLog n s).vec = s.vec := rfl
@[simp] theorem setGridLog_grid (n : Nat) : (setGridLog n s).grid = s.grid := rfl
@[simp] theorem setGridLog_pix0 (n : Nat) : (setGridLog n s).pix0 = s.pix0 := rfl
@[simp] theorem setGridLog_pix1 (n : Nat) : (setGridLog n s).pix1 = s.pix1 := rfl
@[simp] theorem setGridLog_pix0W (n : Nat) : (setGridLog n s).pix0W = s.pix0W := rfl
@[simp] theorem setGridLog_pix0H (n : Nat) : (setGridLog n s).pix0H = s.pix0H := rfl
@[simp] theorem setGridLog_pix1W (n : Nat) : (setGridLog n s).pix1W = s.pix1W := rfl
@[simp] theorem setGridLog_pix1H (n : Nat) : (setGridLog n s).pix1H = s.pix1H := rfl
@[simp] theorem setGridLog_gridLog2n (n : Nat) : (setGridLog n s).gridLog2n = BitVec.ofNat 5 n := rfl
@[simp] theorem setGridLog_vecLog2n (n : Nat) : (setGridLog n s).vecLog2n = s.vecLog2n := rfl
@[simp] theorem setGridLog_lastErr (n : Nat) : (setGridLog n s).lastErr = s.lastErr := rfl
@[simp] theorem setGridLog_sticky (n : Nat) : (setGridLog n s).sticky = s.sticky := rfl
@[simp] theorem setGridLog_draws (n : Nat) : (setGridLog n s).draws = s.draws := rfl
@[simp] theorem setGridLog_resets (n : Nat) : (setGridLog n s).resets = s.resets := rfl
@[simp] theorem setGridLog_inbox (n : Nat) : (setGridLog n s).inbox = s.inbox := rfl
@[simp] theorem setGridLog_replies (n : Nat) : (setGridLog n s).replies = s.replies := rfl

/-! ### `writeVec` -/

@[simp] theorem writeVec_c (n : Nat) (y : Samples) : (writeVec n y s).c = s.c := rfl
@[simp] theorem writeVec_vec (n : Nat) (y : Samples) : (writeVec n y s).vec = Mem.writeAll (vecBackground s) (vecUpdates n y) s.vec := rfl
@[simp] theorem writeVec_grid (n : Nat) (y : Samples) : (writeVec n y s).grid = s.grid := rfl
@[simp] theorem writeVec_pix0 (n : Nat) (y : Samples) : (writeVec n y s).pix0 = s.pix0 := rfl
@[simp] theorem writeVec_pix1 (n : Nat) (y : Samples) : (writeVec n y s).pix1 = s.pix1 := rfl
@[simp] theorem writeVec_pix0W (n : Nat) (y : Samples) : (writeVec n y s).pix0W = s.pix0W := rfl
@[simp] theorem writeVec_pix0H (n : Nat) (y : Samples) : (writeVec n y s).pix0H = s.pix0H := rfl
@[simp] theorem writeVec_pix1W (n : Nat) (y : Samples) : (writeVec n y s).pix1W = s.pix1W := rfl
@[simp] theorem writeVec_pix1H (n : Nat) (y : Samples) : (writeVec n y s).pix1H = s.pix1H := rfl
@[simp] theorem writeVec_gridLog2n (n : Nat) (y : Samples) : (writeVec n y s).gridLog2n = s.gridLog2n := rfl
@[simp] theorem writeVec_vecLog2n (n : Nat) (y : Samples) : (writeVec n y s).vecLog2n = s.vecLog2n := rfl
@[simp] theorem writeVec_lastErr (n : Nat) (y : Samples) : (writeVec n y s).lastErr = s.lastErr := rfl
@[simp] theorem writeVec_sticky (n : Nat) (y : Samples) : (writeVec n y s).sticky = s.sticky := rfl
@[simp] theorem writeVec_draws (n : Nat) (y : Samples) : (writeVec n y s).draws = s.draws := rfl
@[simp] theorem writeVec_resets (n : Nat) (y : Samples) : (writeVec n y s).resets = s.resets := rfl
@[simp] theorem writeVec_inbox (n : Nat) (y : Samples) : (writeVec n y s).inbox = s.inbox := rfl
@[simp] theorem writeVec_replies (n : Nat) (y : Samples) : (writeVec n y s).replies = s.replies := rfl

/-! ### `writeGrid` -/

@[simp] theorem writeGrid_c (n : Nat) (a : SampleGrid) : (writeGrid n a s).c = s.c := rfl
@[simp] theorem writeGrid_vec (n : Nat) (a : SampleGrid) : (writeGrid n a s).vec = s.vec := rfl
@[simp] theorem writeGrid_grid (n : Nat) (a : SampleGrid) : (writeGrid n a s).grid = Mem.writeAll (gridBackground s) (gridUpdates n a) s.grid := rfl
@[simp] theorem writeGrid_pix0 (n : Nat) (a : SampleGrid) : (writeGrid n a s).pix0 = s.pix0 := rfl
@[simp] theorem writeGrid_pix1 (n : Nat) (a : SampleGrid) : (writeGrid n a s).pix1 = s.pix1 := rfl
@[simp] theorem writeGrid_pix0W (n : Nat) (a : SampleGrid) : (writeGrid n a s).pix0W = s.pix0W := rfl
@[simp] theorem writeGrid_pix0H (n : Nat) (a : SampleGrid) : (writeGrid n a s).pix0H = s.pix0H := rfl
@[simp] theorem writeGrid_pix1W (n : Nat) (a : SampleGrid) : (writeGrid n a s).pix1W = s.pix1W := rfl
@[simp] theorem writeGrid_pix1H (n : Nat) (a : SampleGrid) : (writeGrid n a s).pix1H = s.pix1H := rfl
@[simp] theorem writeGrid_gridLog2n (n : Nat) (a : SampleGrid) : (writeGrid n a s).gridLog2n = s.gridLog2n := rfl
@[simp] theorem writeGrid_vecLog2n (n : Nat) (a : SampleGrid) : (writeGrid n a s).vecLog2n = s.vecLog2n := rfl
@[simp] theorem writeGrid_lastErr (n : Nat) (a : SampleGrid) : (writeGrid n a s).lastErr = s.lastErr := rfl
@[simp] theorem writeGrid_sticky (n : Nat) (a : SampleGrid) : (writeGrid n a s).sticky = s.sticky := rfl
@[simp] theorem writeGrid_draws (n : Nat) (a : SampleGrid) : (writeGrid n a s).draws = s.draws := rfl
@[simp] theorem writeGrid_resets (n : Nat) (a : SampleGrid) : (writeGrid n a s).resets = s.resets := rfl
@[simp] theorem writeGrid_inbox (n : Nat) (a : SampleGrid) : (writeGrid n a s).inbox = s.inbox := rfl
@[simp] theorem writeGrid_replies (n : Nat) (a : SampleGrid) : (writeGrid n a s).replies = s.replies := rfl

/-! ### `giveReply` -/

@[simp] theorem giveReply_c (r : Reply) : (giveReply r s).c = s.c := rfl
@[simp] theorem giveReply_vec (r : Reply) : (giveReply r s).vec = s.vec := rfl
@[simp] theorem giveReply_grid (r : Reply) : (giveReply r s).grid = s.grid := rfl
@[simp] theorem giveReply_pix0 (r : Reply) : (giveReply r s).pix0 = s.pix0 := rfl
@[simp] theorem giveReply_pix1 (r : Reply) : (giveReply r s).pix1 = s.pix1 := rfl
@[simp] theorem giveReply_pix0W (r : Reply) : (giveReply r s).pix0W = s.pix0W := rfl
@[simp] theorem giveReply_pix0H (r : Reply) : (giveReply r s).pix0H = s.pix0H := rfl
@[simp] theorem giveReply_pix1W (r : Reply) : (giveReply r s).pix1W = s.pix1W := rfl
@[simp] theorem giveReply_pix1H (r : Reply) : (giveReply r s).pix1H = s.pix1H := rfl
@[simp] theorem giveReply_gridLog2n (r : Reply) : (giveReply r s).gridLog2n = s.gridLog2n := rfl
@[simp] theorem giveReply_vecLog2n (r : Reply) : (giveReply r s).vecLog2n = s.vecLog2n := rfl
@[simp] theorem giveReply_lastErr (r : Reply) : (giveReply r s).lastErr = s.lastErr := rfl
@[simp] theorem giveReply_sticky (r : Reply) : (giveReply r s).sticky = s.sticky := rfl
@[simp] theorem giveReply_draws (r : Reply) : (giveReply r s).draws = s.draws := rfl
@[simp] theorem giveReply_resets (r : Reply) : (giveReply r s).resets = s.resets := rfl
@[simp] theorem giveReply_inbox (r : Reply) : (giveReply r s).inbox = s.inbox := rfl
@[simp] theorem giveReply_replies (r : Reply) : (giveReply r s).replies = s.replies ++ [r] := rfl

/-! ### `placeCommand` -/

@[simp] theorem placeCommand_c (w : Nat) : (placeCommand w s).c = s.c := rfl
@[simp] theorem placeCommand_vec (w : Nat) : (placeCommand w s).vec = s.vec := rfl
@[simp] theorem placeCommand_grid (w : Nat) : (placeCommand w s).grid = s.grid := rfl
@[simp] theorem placeCommand_pix0 (w : Nat) : (placeCommand w s).pix0 = s.pix0 := rfl
@[simp] theorem placeCommand_pix1 (w : Nat) : (placeCommand w s).pix1 = s.pix1 := rfl
@[simp] theorem placeCommand_pix0W (w : Nat) : (placeCommand w s).pix0W = s.pix0W := rfl
@[simp] theorem placeCommand_pix0H (w : Nat) : (placeCommand w s).pix0H = s.pix0H := rfl
@[simp] theorem placeCommand_pix1W (w : Nat) : (placeCommand w s).pix1W = s.pix1W := rfl
@[simp] theorem placeCommand_pix1H (w : Nat) : (placeCommand w s).pix1H = s.pix1H := rfl
@[simp] theorem placeCommand_gridLog2n (w : Nat) : (placeCommand w s).gridLog2n = s.gridLog2n := rfl
@[simp] theorem placeCommand_vecLog2n (w : Nat) : (placeCommand w s).vecLog2n = s.vecLog2n := rfl
@[simp] theorem placeCommand_lastErr (w : Nat) : (placeCommand w s).lastErr = s.lastErr := rfl
@[simp] theorem placeCommand_sticky (w : Nat) : (placeCommand w s).sticky = s.sticky := rfl
@[simp] theorem placeCommand_draws (w : Nat) : (placeCommand w s).draws = s.draws := rfl
@[simp] theorem placeCommand_resets (w : Nat) : (placeCommand w s).resets = s.resets := rfl
@[simp] theorem placeCommand_inbox (w : Nat) : (placeCommand w s).inbox = .memWrite .reg 1 4 (w % 2 ^ 32) :: s.inbox := rfl
@[simp] theorem placeCommand_replies (w : Nat) : (placeCommand w s).replies = s.replies := rfl

/-! ### `setPixMem` -/

@[simp] theorem setPixMem_c (k : PixBuf) (m : Mem 8) : (setPixMem k m s).c = s.c := by cases k <;> rfl
@[simp] theorem setPixMem_vec (k : PixBuf) (m : Mem 8) : (setPixMem k m s).vec = s.vec := by cases k <;> rfl
@[simp] theorem setPixMem_grid (k : PixBuf) (m : Mem 8) : (setPixMem k m s).grid = s.grid := by cases k <;> rfl
@[simp] theorem setPixMem_pix0W (k : PixBuf) (m : Mem 8) : (setPixMem k m s).pix0W = s.pix0W := by cases k <;> rfl
@[simp] theorem setPixMem_pix0H (k : PixBuf) (m : Mem 8) : (setPixMem k m s).pix0H = s.pix0H := by cases k <;> rfl
@[simp] theorem setPixMem_pix1W (k : PixBuf) (m : Mem 8) : (setPixMem k m s).pix1W = s.pix1W := by cases k <;> rfl
@[simp] theorem setPixMem_pix1H (k : PixBuf) (m : Mem 8) : (setPixMem k m s).pix1H = s.pix1H := by cases k <;> rfl
@[simp] theorem setPixMem_gridLog2n (k : PixBuf) (m : Mem 8) : (setPixMem k m s).gridLog2n = s.gridLog2n := by cases k <;> rfl
@[simp] theorem setPixMem_vecLog2n (k : PixBuf) (m : Mem 8) : (setPixMem k m s).vecLog2n = s.vecLog2n := by cases k <;> rfl
@[simp] theorem setPixMem_lastErr (k : PixBuf) (m : Mem 8) : (setPixMem k m s).lastErr = s.lastErr := by cases k <;> rfl
@[simp] theorem setPixMem_sticky (k : PixBuf) (m : Mem 8) : (setPixMem k m s).sticky = s.sticky := by cases k <;> rfl
@[simp] theorem setPixMem_draws (k : PixBuf) (m : Mem 8) : (setPixMem k m s).draws = s.draws := by cases k <;> rfl
@[simp] theorem setPixMem_resets (k : PixBuf) (m : Mem 8) : (setPixMem k m s).resets = s.resets := by cases k <;> rfl
@[simp] theorem setPixMem_inbox (k : PixBuf) (m : Mem 8) : (setPixMem k m s).inbox = s.inbox := by cases k <;> rfl
@[simp] theorem setPixMem_replies (k : PixBuf) (m : Mem 8) : (setPixMem k m s).replies = s.replies := by cases k <;> rfl

/-! ### `setPixDims` -/

@[simp] theorem setPixDims_c (k : PixBuf) (n : Nat) : (setPixDims k n s).c = s.c := by cases k <;> rfl
@[simp] theorem setPixDims_vec (k : PixBuf) (n : Nat) : (setPixDims k n s).vec = s.vec := by cases k <;> rfl
@[simp] theorem setPixDims_grid (k : PixBuf) (n : Nat) : (setPixDims k n s).grid = s.grid := by cases k <;> rfl
@[simp] theorem setPixDims_pix0 (k : PixBuf) (n : Nat) : (setPixDims k n s).pix0 = s.pix0 := by cases k <;> rfl
@[simp] theorem setPixDims_pix1 (k : PixBuf) (n : Nat) : (setPixDims k n s).pix1 = s.pix1 := by cases k <;> rfl
@[simp] theorem setPixDims_gridLog2n (k : PixBuf) (n : Nat) : (setPixDims k n s).gridLog2n = s.gridLog2n := by cases k <;> rfl
@[simp] theorem setPixDims_vecLog2n (k : PixBuf) (n : Nat) : (setPixDims k n s).vecLog2n = s.vecLog2n := by cases k <;> rfl
@[simp] theorem setPixDims_lastErr (k : PixBuf) (n : Nat) : (setPixDims k n s).lastErr = s.lastErr := by cases k <;> rfl
@[simp] theorem setPixDims_sticky (k : PixBuf) (n : Nat) : (setPixDims k n s).sticky = s.sticky := by cases k <;> rfl
@[simp] theorem setPixDims_draws (k : PixBuf) (n : Nat) : (setPixDims k n s).draws = s.draws := by cases k <;> rfl
@[simp] theorem setPixDims_resets (k : PixBuf) (n : Nat) : (setPixDims k n s).resets = s.resets := by cases k <;> rfl
@[simp] theorem setPixDims_inbox (k : PixBuf) (n : Nat) : (setPixDims k n s).inbox = s.inbox := by cases k <;> rfl
@[simp] theorem setPixDims_replies (k : PixBuf) (n : Nat) : (setPixDims k n s).replies = s.replies := by cases k <;> rfl

/-! ### `writePixels` -/

@[simp] theorem writePixels_c (k : PixBuf) (n : Nat) (q : Nat → Nat → Pixel) : (writePixels k n q s).c = s.c := by cases k <;> rfl
@[simp] theorem writePixels_vec (k : PixBuf) (n : Nat) (q : Nat → Nat → Pixel) : (writePixels k n q s).vec = s.vec := by cases k <;> rfl
@[simp] theorem writePixels_grid (k : PixBuf) (n : Nat) (q : Nat → Nat → Pixel) : (writePixels k n q s).grid = s.grid := by cases k <;> rfl
@[simp] theorem writePixels_pix0W (k : PixBuf) (n : Nat) (q : Nat → Nat → Pixel) : (writePixels k n q s).pix0W = s.pix0W := by cases k <;> rfl
@[simp] theorem writePixels_pix0H (k : PixBuf) (n : Nat) (q : Nat → Nat → Pixel) : (writePixels k n q s).pix0H = s.pix0H := by cases k <;> rfl
@[simp] theorem writePixels_pix1W (k : PixBuf) (n : Nat) (q : Nat → Nat → Pixel) : (writePixels k n q s).pix1W = s.pix1W := by cases k <;> rfl
@[simp] theorem writePixels_pix1H (k : PixBuf) (n : Nat) (q : Nat → Nat → Pixel) : (writePixels k n q s).pix1H = s.pix1H := by cases k <;> rfl
@[simp] theorem writePixels_gridLog2n (k : PixBuf) (n : Nat) (q : Nat → Nat → Pixel) : (writePixels k n q s).gridLog2n = s.gridLog2n := by cases k <;> rfl
@[simp] theorem writePixels_vecLog2n (k : PixBuf) (n : Nat) (q : Nat → Nat → Pixel) : (writePixels k n q s).vecLog2n = s.vecLog2n := by cases k <;> rfl
@[simp] theorem writePixels_lastErr (k : PixBuf) (n : Nat) (q : Nat → Nat → Pixel) : (writePixels k n q s).lastErr = s.lastErr := by cases k <;> rfl
@[simp] theorem writePixels_sticky (k : PixBuf) (n : Nat) (q : Nat → Nat → Pixel) : (writePixels k n q s).sticky = s.sticky := by cases k <;> rfl
@[simp] theorem writePixels_draws (k : PixBuf) (n : Nat) (q : Nat → Nat → Pixel) : (writePixels k n q s).draws = s.draws := by cases k <;> rfl
@[simp] theorem writePixels_resets (k : PixBuf) (n : Nat) (q : Nat → Nat → Pixel) : (writePixels k n q s).resets = s.resets := by cases k <;> rfl
@[simp] theorem writePixels_inbox (k : PixBuf) (n : Nat) (q : Nat → Nat → Pixel) : (writePixels k n q s).inbox = s.inbox := by cases k <;> rfl
@[simp] theorem writePixels_replies (k : PixBuf) (n : Nat) (q : Nat → Nat → Pixel) : (writePixels k n q s).replies = s.replies := by cases k <;> rfl

/-- Writing a buffer's storage changes that buffer alone. -/
@[simp] theorem setPixMem_pixMem (k j : PixBuf) (m : Mem 8) :
    pixMem (setPixMem k m s) j = if k = j then m else pixMem s j := by
  cases k <;> cases j <;> rfl

@[simp] theorem writePixels_pixMem (k j : PixBuf) (n : Nat) (q : Nat → Nat → Pixel) :
    pixMem (writePixels k n q s) j =
      if k = j then Mem.writeAll (pixBackground s k) (pixUpdates n q) (pixMem s k) else pixMem s j := by
  cases k <;> cases j <;> rfl

@[simp] theorem setPixDims_pixMem (k j : PixBuf) (n : Nat) : pixMem (setPixDims k n s) j = pixMem s j := by
  cases k <;> cases j <;> rfl

@[simp] theorem setPixDims_pixW (k j : PixBuf) (n : Nat) :
    pixW (setPixDims k n s) j = if k = j then n % 2 ^ 16 else pixW s j := by
  cases k <;> cases j <;> simp [setPixDims, pixW]

@[simp] theorem setPixDims_pixH (k j : PixBuf) (n : Nat) :
    pixH (setPixDims k n s) j = if k = j then n % 2 ^ 16 else pixH s j := by
  cases k <;> cases j <;> simp [setPixDims, pixH]

@[simp] theorem setPixMem_pixW (k j : PixBuf) (m : Mem 8) : pixW (setPixMem k m s) j = pixW s j := by
  cases k <;> cases j <;> rfl

@[simp] theorem setPixMem_pixH (k j : PixBuf) (m : Mem 8) : pixH (setPixMem k m s) j = pixH s j := by
  cases k <;> cases j <;> rfl

@[simp] theorem writePixels_pixW (k j : PixBuf) (n : Nat) (q : Nat → Nat → Pixel) :
    pixW (writePixels k n q s) j = pixW s j := by
  cases k <;> cases j <;> rfl

@[simp] theorem writePixels_pixH (k j : PixBuf) (n : Nat) (q : Nat → Nat → Pixel) :
    pixH (writePixels k n q s) j = pixH s j := by
  cases k <;> cases j <;> rfl

/-! ### The register file -/

/-- A register write is read back, and changes no other register (R21: no aliases, banks or windows). -/
@[simp] theorem readC_writeC (r q : CReg) (v : Sample) :
    readC (writeC r v s) q = if r = q then v else readC s q := by
  simp only [readC, writeC, Vector.get_eq_getElem, Vector.getElem_set, Fin.val_inj]

@[simp] theorem readC_accept (q : CReg) : readC (accept s) q = readC s q := rfl

@[simp] theorem readC_reject (e : ErrCode) (q : CReg) : readC (reject e s) q = readC s q := rfl

end Sys2Proof.Machine
end

