-- ==== Sys2Proof/Laws/Memory.lean ====
section
/-! SUPPORT. The laws of sparse storage: a read after a write, and that every memory operation keeps the canonical form
and the range of a space. -/

namespace Sys2Proof.Machine

variable {w : Nat} (bg : Nat → BitVec w)

/-- The canonical form as propositions. -/
theorem Mem.wf_iff (m : Mem w) :
    Mem.wf bg m = true ↔ m.Pairwise (fun a b => a.1 < b.1) ∧ ∀ e ∈ m, e.2 ≠ bg e.1 := by
  simp [Mem.wf]

theorem Mem.wf_nil : Mem.wf bg ([] : Mem w) = true := by simp [Mem.wf]

theorem Mem.wf_tail {j : Nat} {u : BitVec w} {m : Mem w} (h : Mem.wf bg ((j, u) :: m) = true) :
    Mem.wf bg m = true := by
  rw [Mem.wf_iff] at h ⊢
  exact ⟨(List.pairwise_cons.mp h.1).2, fun e he => h.2 e (List.mem_cons_of_mem _ he)⟩

/-- An index that is listed nowhere reads as the background. -/
theorem Mem.read_of_forall_ne {i : Nat} {m : Mem w} (h : ∀ e ∈ m, e.1 ≠ i) : Mem.read bg i m = bg i := by
  induction m with
  | nil => rfl
  | cons e rest ih =>
    obtain ⟨j, u⟩ := e
    have hj : i ≠ j := fun hij => h (j, u) (by simp) hij.symm
    simp only [Mem.read, hj, if_false]
    exact ih fun e he => h e (by simp [he])

/-- Below the first listed index of a canonical memory everything reads as the background. -/
theorem Mem.read_of_lt {i j : Nat} {u : BitVec w} {m : Mem w} (h : Mem.wf bg ((j, u) :: m) = true) (hi : i < j) :
    Mem.read bg i ((j, u) :: m) = bg i := by
  rw [Mem.wf_iff] at h
  apply Mem.read_of_forall_ne
  intro e he
  rcases List.mem_cons.mp he with rfl | he
  · exact Nat.ne_of_gt hi
  · exact Nat.ne_of_gt (lt_trans hi ((List.pairwise_cons.mp h.1).1 e he))

/-- A write is read back (R59). -/
theorem Mem.read_write_same (i : Nat) (v : BitVec w) {m : Mem w} (h : Mem.wf bg m = true) :
    Mem.read bg i (Mem.write bg i v m) = v := by
  induction m with
  | nil =>
    by_cases hv : v = bg i <;> simp [Mem.write, Mem.read, hv]
  | cons e rest ih =>
    obtain ⟨j, u⟩ := e
    simp only [Mem.write]
    split
    · rename_i hji
      simp only [Mem.read, Nat.ne_of_gt hji, if_false]
      exact ih (Mem.wf_tail bg h)
    · split
      · rename_i _ hji
        subst hji
        split
        · rename_i hv
          rw [hv]
          apply Mem.read_of_forall_ne
          intro e he
          exact Nat.ne_of_gt ((List.pairwise_cons.mp ((Mem.wf_iff bg _).mp h).1).1 e he)
        · simp [Mem.read]
      · rename_i h1 h2
        have hij : i < j := by omega
        split
        · rename_i hv
          rw [hv]
          exact Mem.read_of_lt bg h hij
        · simp [Mem.read]

/-- A write changes no other element (R59), in any memory. -/
theorem Mem.read_write_other {i k : Nat} (v : BitVec w) (m : Mem w) (hk : k ≠ i) :
    Mem.read bg k (Mem.write bg i v m) = Mem.read bg k m := by
  induction m with
  | nil => by_cases hv : v = bg i <;> simp [Mem.write, Mem.read, hv, hk]
  | cons e rest ih =>
    obtain ⟨j, u⟩ := e
    simp only [Mem.write]
    split
    · simp only [Mem.read, ih]
    · split
      · rename_i _ hji
        subst hji
        split <;> simp [Mem.read, hk]
      · split <;> simp [Mem.read, hk]

theorem Mem.read_write (i k : Nat) (v : BitVec w) {m : Mem w} (h : Mem.wf bg m = true) :
    Mem.read bg k (Mem.write bg i v m) = if k = i then v else Mem.read bg k m := by
  split
  · rename_i hk
    subst hk
    exact Mem.read_write_same bg k v h
  · exact Mem.read_write_other bg v m ‹_›

/-- What a write lists: the entries it had, and the one written. -/
theorem Mem.mem_write {i : Nat} {v : BitVec w} {m : Mem w} {e : Nat × BitVec w} (h : e ∈ Mem.write bg i v m) :
    e ∈ m ∨ e = (i, v) ∧ v ≠ bg i := by
  induction m with
  | nil =>
    by_cases hv : v = bg i
    · simp [Mem.write, hv] at h
    · simp only [Mem.write, hv, if_false, List.mem_singleton] at h
      exact .inr ⟨h, hv⟩
  | cons a rest ih =>
    obtain ⟨j, u⟩ := a
    simp only [Mem.write] at h
    split at h
    · rcases List.mem_cons.mp h with h | h
      · exact .inl (by simp [h])
      · exact (ih h).imp (fun h => by simp [h]) id
    · split at h
      · split at h
        · exact .inl (by simp [h])
        · rcases List.mem_cons.mp h with h | h
          · exact .inr ⟨h, ‹_›⟩
          · exact .inl (by simp [h])
      · split at h
        · exact .inl h
        · rcases List.mem_cons.mp h with h | h
          · exact .inr ⟨h, ‹_›⟩
          · exact .inl h

/-- A write keeps the canonical form. -/
theorem Mem.wf_write (i : Nat) (v : BitVec w) {m : Mem w} (h : Mem.wf bg m = true) :
    Mem.wf bg (Mem.write bg i v m) = true := by
  rw [Mem.wf_iff]
  refine ⟨?_, fun e he => ?_⟩
  · induction m with
    | nil => by_cases hv : v = bg i <;> simp [Mem.write, hv]
    | cons a rest ih =>
      obtain ⟨j, u⟩ := a
      have hp := List.pairwise_cons.mp ((Mem.wf_iff bg _).mp h).1
      simp only [Mem.write]
      split
      · rename_i hji
        refine List.pairwise_cons.mpr ⟨fun e he => ?_, ih (Mem.wf_tail bg h)⟩
        rcases Mem.mem_write bg he with he | ⟨rfl, -⟩
        · exact hp.1 e he
        · exact hji
      · split
        · rename_i _ hji
          subst hji
          split
          · exact hp.2
          · exact List.pairwise_cons.mpr ⟨hp.1, hp.2⟩
        · rename_i h1 h2
          split
          · exact List.pairwise_cons.mpr hp
          · refine List.pairwise_cons.mpr ⟨fun e he => ?_, List.pairwise_cons.mpr hp⟩
            rcases List.mem_cons.mp he with rfl | he
            · show i < j; omega
            · exact lt_trans (show i < j by omega) (hp.1 e he)
  · rcases Mem.mem_write bg he with he | ⟨rfl, hv⟩
    · exact ((Mem.wf_iff bg _).mp h).2 e he
    · exact hv

/-- A write inside a space stores nothing outside it. -/
theorem Mem.below_write {bound i : Nat} (v : BitVec w) {m : Mem w} (h : Mem.below bound m = true) (hi : i < bound) :
    Mem.below bound (Mem.write bg i v m) = true := by
  simp only [Mem.below, List.all_eq_true, decide_eq_true_eq] at h ⊢
  intro e he
  rcases Mem.mem_write bg he with he | ⟨rfl, -⟩
  · exact h e he
  · exact hi

/-! ### Many writes -/

@[simp] theorem Mem.writeAll_nil (m : Mem w) : Mem.writeAll bg [] m = m := rfl

@[simp] theorem Mem.writeAll_cons (u : Nat × BitVec w) (us : List (Nat × BitVec w)) (m : Mem w) :
    Mem.writeAll bg (u :: us) m = Mem.write bg u.1 u.2 (Mem.writeAll bg us m) := rfl

theorem Mem.wf_writeAll (us : List (Nat × BitVec w)) {m : Mem w} (h : Mem.wf bg m = true) :
    Mem.wf bg (Mem.writeAll bg us m) = true := by
  induction us with
  | nil => exact h
  | cons u us ih => exact Mem.wf_write bg u.1 u.2 ih

theorem Mem.below_writeAll {bound : Nat} {us : List (Nat × BitVec w)} {m : Mem w} (h : Mem.below bound m = true)
    (hus : ∀ u ∈ us, u.1 < bound) : Mem.below bound (Mem.writeAll bg us m) = true := by
  induction us with
  | nil => exact h
  | cons u us ih =>
    exact Mem.below_write bg u.2 (ih fun v hv => hus v (by simp [hv])) (hus u (by simp))

/-- An element no update names is unchanged, in any memory. -/
theorem Mem.read_writeAll_other {us : List (Nat × BitVec w)} (m : Mem w) {k : Nat} (hk : ∀ u ∈ us, u.1 ≠ k) :
    Mem.read bg k (Mem.writeAll bg us m) = Mem.read bg k m := by
  induction us with
  | nil => rfl
  | cons u us ih =>
    rw [Mem.writeAll_cons, Mem.read_write_other bg _ _ (hk u (by simp)).symm]
    exact ih fun v hv => hk v (by simp [hv])

/-- An element that an update names reads as that update says, if all updates of it agree. -/
theorem Mem.read_writeAll_of_mem {us : List (Nat × BitVec w)} {m : Mem w} (h : Mem.wf bg m = true) {k : Nat}
    {v : BitVec w} (hmem : (k, v) ∈ us) (hagree : ∀ u ∈ us, u.1 = k → u.2 = v) :
    Mem.read bg k (Mem.writeAll bg us m) = v := by
  induction us with
  | nil => simp at hmem
  | cons u us ih =>
    rw [Mem.writeAll_cons, Mem.read_write bg _ _ _ (Mem.wf_writeAll bg us h)]
    split
    · rename_i hk
      exact hagree u (by simp) hk.symm
    · rename_i hk
      rcases List.mem_cons.mp hmem with rfl | hmem
      · exact absurd rfl hk
      · exact ih hmem fun x hx => hagree x (by simp [hx])

end Sys2Proof.Machine
end

