-- ==== Sys2Proof/Laws/Ops.lean ====
section
/-! SUPPORT. One lemma for each shared operation that says everything it can do: element indices, reads of a region
after it was written, what a host read sees of each update, and the inversion of `runBody`, `exec`, `event` and
`step`. Later proofs cite these and unfold none of the operations. -/

namespace Sys2Proof.Machine

/-! ### Element indices (R52) -/

theorem partIndex_lt (p : Part) : partIndex p < 2 := by cases p <;> decide

theorem channelIndex_lt (c : Channel) : channelIndex c < 4 := by cases c <;> decide

theorem partIndex_inj {p q : Part} : partIndex p = partIndex q ↔ p = q := by cases p <;> cases q <;> decide

theorem channelIndex_inj {p q : Channel} : channelIndex p = channelIndex q ↔ p = q := by
  cases p <;> cases q <;> decide

theorem nmax_pos : 0 < Config.nmax := Nat.two_pow_pos _

theorem two_pow_le_nmax {n : Nat} : 2 ^ n ≤ Config.nmax ↔ n ≤ Config.log2Nmax :=
  Nat.pow_le_pow_iff_right (by decide)

theorem log2Nmax_le : Config.log2Nmax ≤ 15 := Nat.le_of_lt_succ Config.capacity.log2Nmax.isLt

theorem nmax_le : Config.nmax ≤ 32768 := by
  have h := Nat.pow_le_pow_right (n := 2) (by decide) log2Nmax_le
  simpa [Config.nmax] using h

theorem vecIndex_inj {i j : Nat} {p q : Part} : vecIndex i p = vecIndex j q ↔ i = j ∧ p = q := by
  have hp := partIndex_lt p
  have hq := partIndex_lt q
  rw [← partIndex_inj (p := p)]
  simp only [vecIndex]
  omega

theorem gridIndex_inj {i j i' j' : Nat} {p q : Part} (hj : j < Config.nmax) (hj' : j' < Config.nmax) :
    gridIndex i j p = gridIndex i' j' q ↔ i = i' ∧ j = j' ∧ p = q := by
  have hp := partIndex_lt p
  have hq := partIndex_lt q
  rw [← partIndex_inj (p := p)]
  constructor
  · intro h
    simp only [gridIndex] at h
    have hm : i * Config.nmax + j = i' * Config.nmax + j' := by omega
    have hpq : partIndex p = partIndex q := by omega
    have hi : i = i' := by
      have h1 := congrArg (· / Config.nmax) hm
      simpa [Nat.add_comm _ j, Nat.add_comm _ j', Nat.add_mul_div_right _ _ nmax_pos, Nat.div_eq_of_lt hj,
        Nat.div_eq_of_lt hj'] using h1
    subst hi
    exact ⟨rfl, by omega, hpq⟩
  · rintro ⟨rfl, rfl, h⟩
    simp [gridIndex, h]

theorem pixIndex_inj {x y x' y' : Nat} {c d : Channel} (hx : x < Config.nmax) (hx' : x' < Config.nmax) :
    pixIndex x y c = pixIndex x' y' d ↔ x = x' ∧ y = y' ∧ c = d := by
  have hc := channelIndex_lt c
  have hd := channelIndex_lt d
  rw [← channelIndex_inj (p := c)]
  constructor
  · intro h
    simp only [pixIndex] at h
    have hm : y * Config.nmax + x = y' * Config.nmax + x' := by omega
    have hcd : channelIndex c = channelIndex d := by omega
    have hy : y = y' := by
      have h1 := congrArg (· / Config.nmax) hm
      simpa [Nat.add_comm _ x, Nat.add_comm _ x', Nat.add_mul_div_right _ _ nmax_pos, Nat.div_eq_of_lt hx,
        Nat.div_eq_of_lt hx'] using h1
    subst hy
    exact ⟨by omega, rfl, hcd⟩
  · rintro ⟨rfl, rfl, h⟩
    simp [pixIndex, h]

theorem vecIndex_lt {i : Nat} (p : Part) (hi : i < Config.nmax) : vecIndex i p < Space.vec.elems := by
  have hp := partIndex_lt p
  simp only [vecIndex, Space.elems]
  omega

theorem gridIndex_lt {i j : Nat} (p : Part) (hi : i < Config.nmax) (hj : j < Config.nmax) :
    gridIndex i j p < Space.grid.elems := by
  have hp := partIndex_lt p
  have h : i * Config.nmax + Config.nmax ≤ Config.nmax ^ 2 := by
    rw [pow_two, ← Nat.succ_mul]
    exact Nat.mul_le_mul_right _ hi
  simp only [gridIndex, Space.elems]
  omega

theorem pixIndex_lt {x y : Nat} (c : Channel) (k : PixBuf) (hx : x < Config.nmax) (hy : y < Config.nmax) :
    pixIndex x y c < (pixSpace k).elems := by
  have hc := channelIndex_lt c
  have h : y * Config.nmax + Config.nmax ≤ Config.nmax ^ 2 := by
    rw [pow_two, ← Nat.succ_mul]
    exact Nat.mul_le_mul_right _ hy
  cases k <;> simp only [pixIndex, pixSpace, Space.elems] <;> omega

/-! ### The elements a region write names -/

theorem mem_vecUpdates {n : Nat} {y : Samples} {u : Nat × Word64} :
    u ∈ vecUpdates n y ↔ ∃ i, i < n ∧ (u = (vecIndex i .re, (sampleAt y i).re) ∨ u = (vecIndex i .im, (sampleAt y i).im)) := by
  simp [vecUpdates, vecElements]

theorem mem_gridUpdates {n : Nat} {a : SampleGrid} {u : Nat × Word64} :
    u ∈ gridUpdates n a ↔ ∃ i, i < n ∧ ∃ j, j < n ∧
      (u = (gridIndex i j .re, (gridAt a i j).re) ∨ u = (gridIndex i j .im, (gridAt a i j).im)) := by
  simp [gridUpdates, gridElements]

theorem mem_pixUpdates {n : Nat} {q : Nat → Nat → Pixel} {u : Nat × Byte} :
    u ∈ pixUpdates n q ↔ ∃ y, y < n ∧ ∃ x, x < n ∧
      (u = (pixIndex x y .r, (q x y).r) ∨ u = (pixIndex x y .g, (q x y).g) ∨ u = (pixIndex x y .b, (q x y).b) ∨
        u = (pixIndex x y .a, (q x y).a)) := by
  simp [pixUpdates, pixElements]

/-! ### Reading a region after it was written -/

/-- The parts of the canonical form. -/
theorem canonical_vec {s : State} (h : s.canonical = true) : Mem.wf (vecBackground s) s.vec = true := by
  simp only [State.canonical, Bool.and_eq_true] at h
  exact h.1.1.1

theorem canonical_grid {s : State} (h : s.canonical = true) : Mem.wf (gridBackground s) s.grid = true := by
  simp only [State.canonical, Bool.and_eq_true] at h
  exact h.1.1.2

theorem canonical_pix {s : State} (h : s.canonical = true) (k : PixBuf) :
    Mem.wf (pixBackground s k) (pixMem s k) = true := by
  simp only [State.canonical, Bool.and_eq_true] at h
  cases k
  · exact h.1.2
  · exact h.2

/-- `V[i]` after `for i < n: V[i] <- y[i]`. -/
theorem readVec_writeVec {s : State} (h : s.canonical = true) {n i : Nat} (y : Samples) (hi : i < n) :
    readVec (writeVec n y s) i = sampleAt y i := by
  have hwf := canonical_vec h
  have key : ∀ p v, (vecIndex i p, v) ∈ vecUpdates n y →
      Mem.read (vecBackground s) (vecIndex i p) (Mem.writeAll (vecBackground s) (vecUpdates n y) s.vec) = v := by
    intro p v hmem
    refine Mem.read_writeAll_of_mem _ hwf hmem fun u hu hui => ?_
    obtain ⟨j, hj, rfl | rfl⟩ := mem_vecUpdates.mp hu <;>
      obtain ⟨k, hk, hv | hv⟩ := mem_vecUpdates.mp hmem <;>
      simp_all [vecIndex_inj]
  show Sample.mk _ _ = _
  rw [show sampleAt y i = ⟨(sampleAt y i).re, (sampleAt y i).im⟩ from rfl]
  congr 1
  · exact key .re _ (mem_vecUpdates.mpr ⟨i, hi, .inl rfl⟩)
  · exact key .im _ (mem_vecUpdates.mpr ⟨i, hi, .inr rfl⟩)

/-- `G[i][j]` after `for i < n, for j < n: G[i][j] <- a[i][j]`. -/
theorem readGrid_writeGrid {s : State} (h : s.canonical = true) {n i j : Nat} (a : SampleGrid) (hn : n ≤ Config.nmax)
    (hi : i < n) (hj : j < n) : readGrid (writeGrid n a s) i j = gridAt a i j := by
  have hwf := canonical_grid h
  have key : ∀ p v, (gridIndex i j p, v) ∈ gridUpdates n a →
      (∀ i' j' q, i' < n → j' < n → gridIndex i' j' q = gridIndex i j p → i' = i ∧ j' = j ∧ q = p) →
      Mem.read (gridBackground s) (gridIndex i j p) (Mem.writeAll (gridBackground s) (gridUpdates n a) s.grid) = v := by
    intro p v hmem hinj
    refine Mem.read_writeAll_of_mem _ hwf hmem fun u hu hui => ?_
    obtain ⟨i1, hi1, j1, hj1, hu1⟩ := mem_gridUpdates.mp hu
    obtain ⟨i2, hi2, j2, hj2, hv2⟩ := mem_gridUpdates.mp hmem
    rcases hu1 with rfl | rfl <;> rcases hv2 with hv2 | hv2 <;>
      simp only [Prod.mk.injEq] at hv2 <;>
      obtain ⟨rfl, rfl, hq1⟩ := hinj _ _ _ hi1 hj1 hui <;>
      obtain ⟨rfl, rfl, hq2⟩ := hinj _ _ _ hi2 hj2 hv2.1.symm <;>
      first | exact hv2.2.symm | exact absurd (hq1.trans hq2.symm) (by decide)
  have hinj : ∀ p i' j' q, i' < n → j' < n → gridIndex i' j' q = gridIndex i j p → i' = i ∧ j' = j ∧ q = p :=
    fun p i' j' q _ hj' he => (gridIndex_inj (lt_of_lt_of_le hj' hn) (lt_of_lt_of_le hj hn)).mp he
  show Sample.mk _ _ = _
  rw [show gridAt a i j = ⟨(gridAt a i j).re, (gridAt a i j).im⟩ from rfl]
  congr 1
  · exact key .re _ (mem_gridUpdates.mpr ⟨i, hi, j, hj, .inl rfl⟩) (hinj .re)
  · exact key .im _ (mem_gridUpdates.mpr ⟨i, hi, j, hj, .inr rfl⟩) (hinj .im)

/-- The background is a function of the count of resets alone, so a pixel write keeps it. -/
@[simp] theorem pixBackground_writePixels (s : State) (k j : PixBuf) (n : Nat) (q : Nat → Nat → Pixel) :
    pixBackground (writePixels k n q s) j = pixBackground s j := by
  cases k <;> cases j <;> rfl

@[simp] theorem pixBackground_setPixMem (s : State) (k j : PixBuf) (m : Mem 8) :
    pixBackground (setPixMem k m s) j = pixBackground s j := by
  cases k <;> cases j <;> rfl

@[simp] theorem pixBackground_setPixDims (s : State) (k j : PixBuf) (n : Nat) :
    pixBackground (setPixDims k n s) j = pixBackground s j := by
  cases k <;> cases j <;> rfl

/-- `P[k](x, y)` after `for x < n, for y < n: P[k](x, y) <- q(x, y)`. -/
theorem readPixel_writePixels {s : State} (h : s.canonical = true) {n x y : Nat} (k : PixBuf)
    (q : Nat → Nat → Pixel) (hn : n ≤ Config.nmax) (hx : x < n) (hy : y < n) :
    readPixel (writePixels k n q s) k x y = q x y := by
  have hwf := canonical_pix h k
  have hinj : ∀ c x' y' d, x' < n → y' < n → pixIndex x' y' d = pixIndex x y c → x' = x ∧ y' = y ∧ d = c :=
    fun c x' y' d hx' _ he => (pixIndex_inj (lt_of_lt_of_le hx' hn) (lt_of_lt_of_le hx hn)).mp he
  have key : ∀ c v, (pixIndex x y c, v) ∈ pixUpdates n q →
      Mem.read (pixBackground s k) (pixIndex x y c)
        (Mem.writeAll (pixBackground s k) (pixUpdates n q) (pixMem s k)) = v := by
    intro c v hmem
    refine Mem.read_writeAll_of_mem _ hwf hmem fun u hu hui => ?_
    obtain ⟨y1, hy1, x1, hx1, hu1⟩ := mem_pixUpdates.mp hu
    obtain ⟨y2, hy2, x2, hx2, hv2⟩ := mem_pixUpdates.mp hmem
    rcases hu1 with rfl | rfl | rfl | rfl <;> rcases hv2 with hv2 | hv2 | hv2 | hv2 <;>
      simp only [Prod.mk.injEq] at hv2 <;>
      obtain ⟨rfl, rfl, hq1⟩ := hinj _ _ _ _ hx1 hy1 hui <;>
      obtain ⟨rfl, rfl, hq2⟩ := hinj _ _ _ _ hx2 hy2 hv2.1.symm <;>
      first | exact hv2.2.symm | exact absurd (hq1.trans hq2.symm) (by decide)
  have hread : ∀ c, readChannel (writePixels k n q s) k x y c =
      Mem.read (pixBackground s k) (pixIndex x y c)
        (Mem.writeAll (pixBackground s k) (pixUpdates n q) (pixMem s k)) := by
    intro c
    simp [readChannel]
  show Pixel.mk _ _ _ _ = _
  rw [show q x y = ⟨(q x y).r, (q x y).g, (q x y).b, (q x y).a⟩ from rfl]
  simp only [hread]
  congr 1
  · exact key .r _ (mem_pixUpdates.mpr ⟨y, hy, x, hx, .inl rfl⟩)
  · exact key .g _ (mem_pixUpdates.mpr ⟨y, hy, x, hx, .inr (.inl rfl)⟩)
  · exact key .b _ (mem_pixUpdates.mpr ⟨y, hy, x, hx, .inr (.inr (.inl rfl))⟩)
  · exact key .a _ (mem_pixUpdates.mpr ⟨y, hy, x, hx, .inr (.inr (.inr rfl))⟩)

/-! ### What a host read sees of each update (R51, R222) -/

/-- A host read of every space but `REG` depends on the storage alone. -/
theorem portRead_accept {s : State} {sp : Space} {idx : Nat} (h : ¬ statusTouch sp idx) :
    portRead (accept s) sp idx = portRead s sp idx := by
  cases sp <;> try rfl
  have h2 : idx ≠ 2 := fun e => h ⟨rfl, e⟩
  simp only [portRead, regRead]
  split <;> first | rfl | exact absurd rfl h2

theorem portRead_reject {s : State} {e : ErrCode} {sp : Space} {idx : Nat} (h : ¬ statusTouch sp idx) :
    portRead (reject e s) sp idx = portRead s sp idx := by
  cases sp <;> try rfl
  have h2 : idx ≠ 2 := fun e => h ⟨rfl, e⟩
  simp only [portRead, regRead]
  split <;> first | rfl | exact absurd rfl h2

/-- A register write is seen at its two elements and nowhere else. -/
theorem portRead_writeC {s : State} {cd : CReg} {v : Sample} {sp : Space} {idx : Nat} (hidx : idx < sp.elems)
    (h : ¬ (sp = .creg ∧ ∃ part, idx = cregIndex cd part)) :
    portRead (writeC cd v s) sp idx = portRead s sp idx := by
  cases sp <;> try rfl
  have hne : cd ≠ cregOf idx := by
    rintro rfl
    apply h
    refine ⟨rfl, if idx % 2 = 0 then .re else .im, ?_⟩
    simp only [Space.elems] at hidx
    have : idx / 2 % 16 = idx / 2 := Nat.mod_eq_of_lt (by omega)
    split <;> simp only [cregIndex, cregOf, Fin.val_ofNat, this, partIndex] <;> omega
  simp [portRead, cregRead, hne]

theorem portRead_writeVec {s : State} {n : Nat} {y : Samples} {sp : Space} {idx : Nat}
    (h : ¬ (sp = .vec ∧ ∃ i part, i < n ∧ idx = vecIndex i part)) :
    portRead (writeVec n y s) sp idx = portRead s sp idx := by
  cases sp <;> try rfl
  have : ∀ u ∈ vecUpdates n y, u.1 ≠ idx := by
    intro u hu he
    obtain ⟨i, hi, rfl | rfl⟩ := mem_vecUpdates.mp hu
    · exact h ⟨rfl, i, .re, hi, he.symm⟩
    · exact h ⟨rfl, i, .im, hi, he.symm⟩
  show Reply.part _ = Reply.part _
  congr 1
  exact Mem.read_writeAll_other _ _ this

theorem portRead_writeGrid {s : State} {n : Nat} {a : SampleGrid} {sp : Space} {idx : Nat}
    (h : ¬ (sp = .grid ∧ ∃ i j part, i < n ∧ j < n ∧ idx = gridIndex i j part)) :
    portRead (writeGrid n a s) sp idx = portRead s sp idx := by
  cases sp <;> try rfl
  have : ∀ u ∈ gridUpdates n a, u.1 ≠ idx := by
    intro u hu he
    obtain ⟨i, hi, j, hj, rfl | rfl⟩ := mem_gridUpdates.mp hu
    · exact h ⟨rfl, i, j, .re, hi, hj, he.symm⟩
    · exact h ⟨rfl, i, j, .im, hi, hj, he.symm⟩
  show Reply.part _ = Reply.part _
  congr 1
  exact Mem.read_writeAll_other _ _ this

theorem portRead_setGridLog {s : State} {n : Nat} {sp : Space} {idx : Nat} (h : ¬ (sp = .reg ∧ idx = 8)) :
    portRead (setGridLog n s) sp idx = portRead s sp idx := by
  cases sp <;> try rfl
  have h8 : idx ≠ 8 := fun e => h ⟨rfl, e⟩
  simp only [portRead, regRead]
  split <;> first | rfl | exact absurd rfl h8

theorem portRead_setPixDims {s : State} {k : PixBuf} {n : Nat} {sp : Space} {idx : Nat}
    (h : ¬ (sp = .reg ∧ (idx = pixWReg k ∨ idx = pixHReg k))) :
    portRead (setPixDims k n s) sp idx = portRead s sp idx := by
  cases k <;> cases sp <;> try rfl
  all_goals
    simp only [portRead, regRead]
    split <;> first | rfl | exact absurd ⟨rfl, .inl rfl⟩ h | exact absurd ⟨rfl, .inr rfl⟩ h

theorem portRead_writePixels {s : State} {k : PixBuf} {n : Nat} {q : Nat → Nat → Pixel} {sp : Space} {idx : Nat}
    (h : ¬ (sp = pixSpace k ∧ ∃ x y ch, x < n ∧ y < n ∧ idx = pixIndex x y ch)) :
    portRead (writePixels k n q s) sp idx = portRead s sp idx := by
  have hne : sp = pixSpace k → ∀ u ∈ pixUpdates n q, u.1 ≠ idx := by
    intro hsp u hu he
    obtain ⟨y, hy, x, hx, rfl | rfl | rfl | rfl⟩ := mem_pixUpdates.mp hu
    · exact h ⟨hsp, x, y, .r, hx, hy, he.symm⟩
    · exact h ⟨hsp, x, y, .g, hx, hy, he.symm⟩
    · exact h ⟨hsp, x, y, .b, hx, hy, he.symm⟩
    · exact h ⟨hsp, x, y, .a, hx, hy, he.symm⟩
  cases k <;> cases sp <;> try rfl
  all_goals
    show Reply.byte _ = Reply.byte _
    congr 1
    exact Mem.read_writeAll_other _ _ (hne rfl)

/-! ### Completing a command (R221, R242) -/

/-- Everything `runBody` can answer: a rejection, or the completion of the body. -/
theorem runBody_eq_next {body : State → Except ErrCode State} {s t : State} :
    runBody body s = .next t ↔
      (∃ e, body s = .error e ∧ t = reject e s) ∨ (∃ s', body s = .ok s' ∧ t = accept s') := by
  simp only [runBody]
  split <;> rename_i x hx <;> simp [hx, eq_comm]

/-- A body never stops the machine. -/
theorem runBody_isNext (body : State → Except ErrCode State) (s : State) : ∃ t, runBody body s = .next t := by
  simp only [runBody]
  split
  · exact ⟨_, rfl⟩
  · exact ⟨_, rfl⟩

theorem runBody_ok {body : State → Except ErrCode State} {s s' : State} (h : body s = .ok s') :
    runBody body s = .next (accept s') := by
  simp [runBody, h]

theorem runBody_error {body : State → Except ErrCode State} {s : State} {e : ErrCode} (h : body s = .error e) :
    runBody body s = .next (reject e s) := by
  simp [runBody, h]

/-- The two ways a body that first checks a condition can end. -/
theorem ite_error_ok {c : Prop} [Decidable c] {e : ErrCode} {u v : State}
    (h : (if c then Except.error e else Except.ok u) = Except.ok v) : ¬ c ∧ v = u := by
  split at h
  · cases h
  · exact ⟨‹_›, by injection h with h; exact h.symm⟩

/-- `CheckSquarePow2` passes exactly a square within capacity whose side is a power of two (R173). -/
theorem checkSquarePow2_ok {W H n : Nat} (h : CheckSquarePow2 W H = .ok n) :
    W ≤ Config.nmax ∧ W = H ∧ W = 2 ^ n := by
  unfold CheckSquarePow2 at h
  split at h
  · cases h
  · split at h
    · cases h
    · split at h
      · rename_i h1 h2 h3
        injection h with h
        subst h
        simp only [isPow2, beq_iff_eq] at h3
        exact ⟨by omega, by omega, h3.symm⟩
      · cases h

theorem checkSquarePow2_of {n : Nat} (hn : n ≤ Config.log2Nmax) : CheckSquarePow2 (2 ^ n) (2 ^ n) = .ok n := by
  have h := two_pow_le_nmax.mpr hn
  simp [CheckSquarePow2, isPow2, Nat.not_lt.mpr h]

theorem nextPow2Loop_le {m K : Nat} (hm : m ≤ 2 ^ K) :
    ∀ fuel n, n ≤ K → nextPow2Loop m fuel n ≤ K
  | 0, _, h => h
  | fuel + 1, n, h => by
    simp only [nextPow2Loop]
    split
    · rename_i hlt
      apply nextPow2Loop_le hm fuel
      by_contra hc
      have : K = n := by omega
      subst this
      omega
    · exact h

/-- The side PAD produces is within capacity (R116, R236). -/
theorem padSide_le {W H : Nat} (hW : W ≤ Config.nmax) (hH : H ≤ Config.nmax) : padSide W H ≤ Config.nmax :=
  two_pow_le_nmax.mpr (nextPow2Loop_le (K := Config.log2Nmax) (max_le hW hH) _ 0 (Nat.zero_le _))

/-! ### The inversion of `exec` -/

/-- The writes a command can make when it is accepted (R64). -/
def CommandWrites (s s' : State) : Prop :=
  s' = s ∨ (∃ cd v, s' = writeC cd v s) ∨
    (∃ n y, n ≤ Config.nmax ∧ s' = writeVec n y s) ∨
    (∃ n m a, n ≤ Config.nmax ∧ s' = setGridLog m (writeGrid n a s)) ∨
    (∃ k n q, n ≤ Config.nmax ∧ s' = setPixDims k n (writePixels k n q s))

theorem runBody_cases {body : State → Except ErrCode State} {s t : State} (h : runBody body s = .next t)
    (hok : ∀ s', body s = .ok s' → CommandWrites s s') :
    (∃ e, t = reject e s) ∨ ∃ s', CommandWrites s s' ∧ t = accept s' := by
  rcases runBody_eq_next.mp h with ⟨e, -, rfl⟩ | ⟨s', hs', rfl⟩
  · exact .inl ⟨e, rfl⟩
  · exact .inr ⟨s', hok s' hs', rfl⟩

/-- Everything a decoded command can do: be rejected, or complete with one of five writes (R64). -/
theorem exec_cases {i : Instr} {s t : State} (h : exec i s = .next t) :
    (∃ e, t = reject e s) ∨ ∃ s', CommandWrites s s' ∧ t = accept s' := by
  cases i with
  | nop =>
    simp only [exec, execNop] at h
    exact runBody_cases h fun s' hs => .inl (by injection hs with hs; exact hs.symm)
  | cadd cd ca cb =>
    simp only [exec, execCadd] at h
    exact runBody_cases h fun s' hs => .inr (.inl ⟨_, _, by injection hs with hs; exact hs.symm⟩)
  | csub cd ca cb =>
    simp only [exec, execCsub] at h
    exact runBody_cases h fun s' hs => .inr (.inl ⟨_, _, by injection hs with hs; exact hs.symm⟩)
  | cmul cd ca cb =>
    simp only [exec, execCmul] at h
    exact runBody_cases h fun s' hs => .inr (.inl ⟨_, _, by injection hs with hs; exact hs.symm⟩)
  | cconj cd ca =>
    simp only [exec, execCconj] at h
    exact runBody_cases h fun s' hs => .inr (.inl ⟨_, _, by injection hs with hs; exact hs.symm⟩)
  | cmag cd ca =>
    simp only [exec, execCmag] at h
    exact runBody_cases h fun s' hs => .inr (.inl ⟨_, _, by injection hs with hs; exact hs.symm⟩)
  | cpolar cd ca cb =>
    simp only [exec, execCpolar] at h
    exact runBody_cases h fun s' hs => .inr (.inl ⟨_, _, by injection hs with hs; exact hs.symm⟩)
  | fft1d ns =>
    refine runBody_cases h fun s' hs => .inr (.inr (.inl ?_))
    obtain ⟨hc, rfl⟩ := ite_error_ok hs
    exact ⟨_, _, two_pow_le_nmax.mpr (Nat.not_lt.mp hc), rfl⟩
  | ifft1d =>
    refine runBody_cases h fun s' hs => .inr (.inr (.inl ?_))
    obtain ⟨hc, rfl⟩ := ite_error_ok hs
    exact ⟨_, _, two_pow_le_nmax.mpr (Nat.not_lt.mp hc), rfl⟩
  | gray ps =>
    refine runBody_cases h fun s' hs => .inr (.inr (.inr (.inl ?_)))
    simp only [bodyGray] at hs
    split at hs
    · cases hs
    · injection hs with hs
      exact ⟨_, _, _, (checkSquarePow2_ok ‹_›).1, hs.symm⟩
  | pad pd ps =>
    refine runBody_cases h fun s' hs => .inr (.inr (.inr (.inr ?_)))
    simp only [bodyPad] at hs
    split at hs
    · cases hs
    · obtain ⟨hc, rfl⟩ := ite_error_ok hs
      exact ⟨_, _, _, padSide_le (by omega) (by omega), rfl⟩
  | fwd2d ps =>
    refine runBody_cases h fun s' hs => .inr (.inr (.inr (.inl ?_)))
    simp only [bodyFwd2d] at hs
    split at hs
    · cases hs
    · injection hs with hs
      exact ⟨_, _, _, (checkSquarePow2_ok ‹_›).1, hs.symm⟩
  | inv2d pd =>
    refine runBody_cases h fun s' hs => .inr (.inr (.inr (.inr ?_)))
    obtain ⟨hc, rfl⟩ := ite_error_ok hs
    exact ⟨_, _, _, two_pow_le_nmax.mpr (Nat.not_lt.mp hc), rfl⟩
  | vis pd =>
    refine runBody_cases h fun s' hs => .inr (.inr (.inr (.inr ?_)))
    obtain ⟨hc, rfl⟩ := ite_error_ok hs
    exact ⟨_, _, _, two_pow_le_nmax.mpr (Nat.not_lt.mp hc), rfl⟩

/-- A decoded command always answers a next state (R269). -/
theorem exec_isNext (i : Instr) (s : State) : ∃ t, exec i s = .next t := by
  cases i <;> simp only [exec, execNop, execCadd, execCsub, execCmul, execCconj, execCmag, execCpolar, execFft1d,
    execIfft1d, execGray, execPad, execFwd2d, execInv2d, execVis] <;> exact runBody_isNext _ _

theorem execute_isNext (w : Word32) (s : State) : ∃ t, execute w s = .next t := by
  simp only [execute]
  split
  · exact ⟨_, rfl⟩
  · exact exec_isNext _ _

end Sys2Proof.Machine
end

