-- ==== Sys2Proof/Laws/Rounding.lean ====
section
/-! SUPPORT. What `roundMag` returns (spec/40_numerics.md R101): the two representable magnitudes around an exact value,
and which of them each direction picks. Later proofs about arithmetic cite these lemmas and never unfold `roundMag`. -/

namespace Sys2Proof.Machine

/-- The value of magnitude bits (R100), continued past the largest finite one, so that the infinity's bits stand for
`2^1024`. -/
noncomputable def magVal (n : Nat) : ℝ :=
  if n < 2 ^ 52 then (n : ℝ) * 2 ^ (-1074 : ℤ)
  else ((2 ^ 52 + n % 2 ^ 52 : Nat) : ℝ) * 2 ^ ((n / 2 ^ 52 : Nat) - 1075 : ℤ)

theorem two_zpow_pos (z : ℤ) : (0 : ℝ) < 2 ^ z := zpow_pos (by norm_num) z

/-- A significand `k` at last place `q` has the bits `(q + 1074) * 2^52 + k`, a carry to `2^53` included. -/
theorem magVal_place {q : ℤ} {k : Nat} (hq : -1074 ≤ q) (hk : k ≤ 2 ^ 53) (h : q = -1074 ∨ 2 ^ 52 ≤ k) :
    magVal ((q + 1074).toNat * 2 ^ 52 + k) = k * 2 ^ q := by
  obtain ⟨a, rfl⟩ : ∃ a : Nat, q = (a : ℤ) - 1074 := ⟨(q + 1074).toNat, by omega⟩
  rw [show ((a : ℤ) - 1074 + 1074).toNat = a by omega]
  by_cases hlt : k < 2 ^ 52
  · have ha : a = 0 := by omega
    subst ha
    rw [magVal, if_pos (by omega)]
    simp
  · by_cases hk2 : k = 2 ^ 53
    · subst hk2
      have h1 : ¬ a * 2 ^ 52 + 2 ^ 53 < 2 ^ 52 := by omega
      rw [magVal, if_neg h1, show a * 2 ^ 52 + 2 ^ 53 = (a + 2) * 2 ^ 52 by ring, Nat.mul_mod_left,
        Nat.mul_div_cancel _ (by norm_num)]
      rw [show ((a + 2 : Nat) : ℤ) - 1075 = ((a : ℤ) - 1074) + 1 by push_cast; ring, zpow_add₀ (by norm_num)]
      push_cast
      ring
    · have h1 : ¬ a * 2 ^ 52 + k < 2 ^ 52 := by omega
      have h2 : (a * 2 ^ 52 + k) / 2 ^ 52 = a + 1 := by omega
      have h3 : 2 ^ 52 + (a * 2 ^ 52 + k) % 2 ^ 52 = k := by omega
      rw [magVal, if_neg h1, h2, h3, show ((a + 1 : Nat) : ℤ) - 1075 = (a : ℤ) - 1074 by push_cast; ring]

/-- Every magnitude is a significand at a last place. -/
theorem exists_place (n : Nat) : ∃ (q : ℤ) (k : Nat), -1074 ≤ q ∧ k < 2 ^ 53 ∧ (q = -1074 ∨ 2 ^ 52 ≤ k) ∧
    n = (q + 1074).toNat * 2 ^ 52 + k := by
  by_cases h : n < 2 ^ 52
  · exact ⟨-1074, n, by omega, by omega, .inl rfl, by simp⟩
  · refine ⟨(n / 2 ^ 52 : Nat) - 1075, 2 ^ 52 + n % 2 ^ 52, by omega, by omega, .inr (by omega), ?_⟩
    rw [show ((n / 2 ^ 52 : Nat) - 1075 + 1074 : ℤ).toNat = n / 2 ^ 52 - 1 by omega]
    omega

theorem magVal_succ (n : Nat) : magVal n < magVal (n + 1) := by
  obtain ⟨q, k, hq, hk, h, rfl⟩ := exists_place n
  rw [magVal_place hq hk.le h, Nat.add_assoc, magVal_place hq hk (h.imp id fun h => by omega)]
  push_cast
  nlinarith [two_zpow_pos q]

theorem magVal_strictMono : StrictMono magVal := strictMono_nat_of_lt_succ magVal_succ

@[simp] theorem magVal_zero : magVal 0 = 0 := by simp [magVal]

theorem magVal_nonneg (n : Nat) : 0 ≤ magVal n := by
  simpa using magVal_strictMono.monotone (Nat.zero_le n)

theorem pow_1024 : (2 : ℝ) ^ 1024 = 2 ^ 53 * 2 ^ (971 : ℤ) := by
  rw [show (971 : ℤ) = ((971 : Nat) : ℤ) by rfl, zpow_natCast, ← pow_add]

theorem magVal_infMag : magVal infMag = 2 ^ 1024 := by
  have h := magVal_place (q := 971) (k := 2 ^ 53) (by norm_num) le_rfl (.inr (by norm_num))
  rw [show ((971 : ℤ) + 1074).toNat * 2 ^ 52 + 2 ^ 53 = infMag by decide] at h
  rw [h, pow_1024]
  norm_num

theorem magVal_maxFinite : magVal (infMag - 1) = 2 ^ 1024 - 2 ^ (971 : ℤ) := by
  have h := magVal_place (q := 971) (k := 2 ^ 53 - 1) (by norm_num) (by norm_num) (.inr (by norm_num))
  rw [show ((971 : ℤ) + 1074).toNat * 2 ^ 52 + (2 ^ 53 - 1) = infMag - 1 by decide] at h
  rw [h, pow_1024]
  generalize (2 : ℝ) ^ (971 : ℤ) = y
  norm_num
  ring

/-! ### The place a value falls in -/

/-- The integer part of `m * 2^e` in units of its last place. -/
def placeFloor (m : Nat) (e : ℤ) : Nat :=
  if ulpExp m e ≤ e then m * 2 ^ (e - ulpExp m e).toNat else m / 2 ^ (ulpExp m e - e).toNat

/-- The bits of the largest representable magnitude that is at most `m * 2^e`. -/
def floorMag (m : Nat) (e : ℤ) : Nat := (ulpExp m e + 1074).toNat * 2 ^ 52 + placeFloor m e

theorem ulpExp_ge (m : Nat) (e : ℤ) : -1074 ≤ ulpExp m e := le_max_right _ _

theorem zpow_split {d : Nat} {e q : ℤ} (h : q = e + d) : (2 : ℝ) ^ q = 2 ^ d * 2 ^ e := by
  subst h
  rw [zpow_add₀ (by norm_num), zpow_natCast]
  ring

theorem placeFloor_le (m : Nat) (e : ℤ) : (placeFloor m e : ℝ) * 2 ^ ulpExp m e ≤ m * 2 ^ e := by
  unfold placeFloor
  split
  · rename_i h
    rw [zpow_split (d := (e - ulpExp m e).toNat) (e := ulpExp m e) (q := e) (by omega)]
    push_cast
    exact le_of_eq (by ring)
  · rename_i h
    rw [zpow_split (d := (ulpExp m e - e).toNat) (e := e) (q := ulpExp m e) (by omega), ← mul_assoc]
    apply mul_le_mul_of_nonneg_right _ (two_zpow_pos e).le
    exact_mod_cast Nat.div_mul_le_self m _

theorem lt_placeFloor (m : Nat) (e : ℤ) : (m : ℝ) * 2 ^ e < (placeFloor m e + 1) * 2 ^ ulpExp m e := by
  unfold placeFloor
  split
  · rename_i h
    rw [zpow_split (d := (e - ulpExp m e).toNat) (e := ulpExp m e) (q := e) (by omega)]
    push_cast
    nlinarith [two_zpow_pos (ulpExp m e)]
  · rename_i h
    rw [zpow_split (d := (ulpExp m e - e).toNat) (e := e) (q := ulpExp m e) (by omega), ← mul_assoc]
    apply mul_lt_mul_of_pos_right _ (two_zpow_pos e)
    have := Nat.lt_div_mul_add (a := m) (b := 2 ^ (ulpExp m e - e).toNat) (by positivity)
    have h2 : m < (m / 2 ^ (ulpExp m e - e).toNat + 1) * 2 ^ (ulpExp m e - e).toNat := by
      rw [Nat.add_mul, Nat.one_mul]
      exact this
    exact_mod_cast h2

theorem value_lt {m : Nat} (e : ℤ) : (m : ℝ) * 2 ^ e < 2 ^ ((m.log2 : ℤ) + 1 + e) := by
  rw [zpow_add₀ (by norm_num)]
  apply mul_lt_mul_of_pos_right _ (two_zpow_pos e)
  have : m < 2 ^ (m.log2 + 1) := Nat.lt_log2_self
  exact_mod_cast this

theorem le_value {m : Nat} (hm : m ≠ 0) (e : ℤ) : (2 : ℝ) ^ ((m.log2 : ℤ) + e) ≤ m * 2 ^ e := by
  rw [zpow_add₀ (by norm_num)]
  apply mul_le_mul_of_nonneg_right _ (two_zpow_pos e).le
  have : 2 ^ m.log2 ≤ m := Nat.log2_self_le hm
  exact_mod_cast this

theorem placeFloor_lt (m : Nat) (e : ℤ) : placeFloor m e < 2 ^ 53 := by
  have h1 := placeFloor_le m e
  have h2 := value_lt (m := m) e
  have h3 : (2 : ℝ) ^ ((m.log2 : ℤ) + 1 + e) ≤ 2 ^ (53 + ulpExp m e) := by
    apply zpow_le_zpow_right₀ (by norm_num)
    have : (m.log2 : ℤ) + e - 52 ≤ ulpExp m e := le_max_left _ _
    omega
  rw [zpow_add₀ (a := (2 : ℝ)) (by norm_num) 53 (ulpExp m e)] at h3
  have h4 : (placeFloor m e : ℝ) < 2 ^ (53 : ℤ) :=
    lt_of_mul_lt_mul_right (lt_of_le_of_lt h1 (lt_of_lt_of_le h2 h3)) (two_zpow_pos (ulpExp m e)).le
  exact_mod_cast h4

theorem placeFloor_normal {m : Nat} (hm : m ≠ 0) (e : ℤ) : ulpExp m e = -1074 ∨ 2 ^ 52 ≤ placeFloor m e := by
  by_cases h : ulpExp m e = -1074
  · exact .inl h
  · right
    have hq : (m.log2 : ℤ) + e = 52 + ulpExp m e := by
      unfold ulpExp at h ⊢
      omega
    have h1 := le_value hm e
    have h2 := lt_placeFloor m e
    rw [hq, zpow_add₀ (by norm_num)] at h1
    have h4 : (2 : ℝ) ^ (52 : ℤ) < placeFloor m e + 1 :=
      lt_of_mul_lt_mul_right (by linarith) (two_zpow_pos (ulpExp m e)).le
    have h5 : 2 ^ 52 < placeFloor m e + 1 := by exact_mod_cast h4
    omega

theorem magVal_floorMag {m : Nat} (hm : m ≠ 0) (e : ℤ) : magVal (floorMag m e) = placeFloor m e * 2 ^ ulpExp m e :=
  magVal_place (ulpExp_ge m e) (placeFloor_lt m e).le (placeFloor_normal hm e)

theorem magVal_floorMag_succ {m : Nat} (hm : m ≠ 0) (e : ℤ) :
    magVal (floorMag m e + 1) = (placeFloor m e + 1) * 2 ^ ulpExp m e := by
  have h := magVal_place (k := placeFloor m e + 1) (ulpExp_ge m e) (placeFloor_lt m e)
    ((placeFloor_normal hm e).imp id fun h => by omega)
  rw [floorMag, Nat.add_assoc, h]
  push_cast
  rfl

/-! ### What each direction picks -/

/-- What `roundMag` computes of a nonzero value: the floor, or the floor plus one. -/
theorem roundMag_eq {dir : Rounding} {m : Nat} (hm : m ≠ 0) (e : ℤ) :
    roundMag dir m e = min (floorMag m e +
      (if ulpExp m e ≤ e then 0 else roundShift dir m (ulpExp m e - e).toNat - m / 2 ^ (ulpExp m e - e).toNat)) infMag := by
  have hge : m / 2 ^ (ulpExp m e - e).toNat ≤ roundShift dir m (ulpExp m e - e).toNat := by
    cases dir <;> simp only [roundShift]
    · rfl
    · split <;> omega
    · exact Nat.div_le_div_right (Nat.le_add_right _ _)
  unfold roundMag floorMag placeFloor
  rw [if_neg hm]
  simp only
  split
  · rw [Nat.add_zero]
  · rw [Nat.add_assoc, Nat.add_sub_cancel' hge]

theorem roundMag_le (dir : Rounding) (m : Nat) (e : ℤ) : roundMag dir m e ≤ infMag := by
  by_cases hm : m = 0
  · simp [roundMag, hm]
  · rw [roundMag_eq hm]
    exact min_le_right _ _

@[simp] theorem roundMag_zero (dir : Rounding) (e : ℤ) : roundMag dir 0 e = 0 := by simp [roundMag]

/-- Rounding down. -/
theorem roundMag_down {m : Nat} (hm : m ≠ 0) (e : ℤ) : roundMag .down m e = min (floorMag m e) infMag := by
  rw [roundMag_eq hm]
  simp [roundShift]

/-- `R` is a magnitude nearest to `x`, the even one on a tie: the bits `N` below `x`, or `N + 1`, cut off at the
infinity. -/
def NearestMag (x : ℝ) (R : Nat) : Prop :=
  ∃ N, magVal N ≤ x ∧ x < magVal (N + 1) ∧
    (R = min N infMag ∧ (2 * x < magVal N + magVal (N + 1) ∨ 2 * x = magVal N + magVal (N + 1) ∧ N % 2 = 0) ∨
      R = min (N + 1) infMag ∧
        (magVal N + magVal (N + 1) < 2 * x ∨ 2 * x = magVal N + magVal (N + 1) ∧ N % 2 = 1))

/-- `m * 2^e` stands for `x`: exactly, or with `m` odd and `x` strictly between its even neighbours, `m` being long
enough that no rounding boundary lies inside. -/
def StandsFor (m : Nat) (e : ℤ) (x : ℝ) : Prop :=
  x = m * 2 ^ e ∨ 54 ≤ m.log2 ∧ m % 2 = 1 ∧ (m - 1 : ℝ) * 2 ^ e < x ∧ x < (m + 1) * 2 ^ e

theorem floorMag_parity (m : Nat) (e : ℤ) : floorMag m e % 2 = placeFloor m e % 2 := by
  unfold floorMag
  omega

/-- Rounding to nearest even. -/
theorem roundMag_nearest {m : Nat} (hm : m ≠ 0) {e : ℤ} {x : ℝ} (hx : StandsFor m e x) :
    NearestMag x (roundMag .nearest m e) := by
  refine ⟨floorMag m e, ?_⟩
  rw [roundMag_eq hm, magVal_floorMag hm, magVal_floorMag_succ hm, floorMag_parity]
  by_cases hqe : ulpExp m e ≤ e
  · -- the value is representable up to overflow
    have hx : x = m * 2 ^ e := by
      rcases hx with hx | ⟨h54, -⟩
      · exact hx
      · exfalso
        have : (m.log2 : ℤ) + e - 52 ≤ ulpExp m e := le_max_left _ _
        omega
    have hval : (placeFloor m e : ℝ) * 2 ^ ulpExp m e = x := by
      rw [hx, placeFloor, if_pos hqe, zpow_split (d := (e - ulpExp m e).toNat) (e := ulpExp m e) (q := e) (by omega)]
      push_cast
      ring
    have hpos := two_zpow_pos (ulpExp m e)
    refine ⟨hval.le, by linarith, .inl ⟨by simp [hqe], .inl ?_⟩⟩
    linarith
  · -- digits are cut off
    obtain ⟨d, hd⟩ : ∃ d : Nat, ulpExp m e = e + (d + 1 : Nat) := ⟨(ulpExp m e - e - 1).toNat, by omega⟩
    have hdt : (ulpExp m e - e).toNat = d + 1 := by omega
    have hF : placeFloor m e = m / 2 ^ (d + 1) := by rw [placeFloor, if_neg hqe, hdt]
    have hpos := two_zpow_pos e
    have hmod : m = m / 2 ^ (d + 1) * 2 ^ (d + 1) + m % 2 ^ (d + 1) := by
      rw [Nat.mul_comm]
      exact (Nat.div_add_mod m _).symm
    have hmodlt : m % 2 ^ (d + 1) < 2 ^ (d + 1) := Nat.mod_lt _ (by positivity)
    -- comparing `x` with an even number of units is comparing `m` with it
    have hle : ∀ y : Nat, x = m * 2 ^ e ∨ y % 2 = 0 → ((y : ℝ) * 2 ^ e ≤ x ↔ y ≤ m) ∧ (x ≤ y * 2 ^ e ↔ m ≤ y) := by
      intro y hy
      have hexact : x = m * 2 ^ e → ((y : ℝ) * 2 ^ e ≤ x ↔ y ≤ m) ∧ (x ≤ y * 2 ^ e ↔ m ≤ y) := by
        rintro rfl
        rw [mul_le_mul_iff_left₀ hpos, mul_le_mul_iff_left₀ hpos, Nat.cast_le, Nat.cast_le]
        exact ⟨Iff.rfl, Iff.rfl⟩
      rcases hy with hy | hy
      · exact hexact hy
      · rcases hx with hx | ⟨-, hodd, h1, h2⟩
        · exact hexact hx
        · have hlt : y < m → ((y : ℝ) * 2 ^ e < x) := by
            intro h
            have : ((y + 1 : Nat) : ℝ) ≤ m := by exact_mod_cast h
            push_cast at this
            have : (y : ℝ) * 2 ^ e ≤ (m - 1) * 2 ^ e := mul_le_mul_of_nonneg_right (by linarith) hpos.le
            linarith
          have hgt : m < y → x < (y : ℝ) * 2 ^ e := by
            intro h
            have : ((m + 1 : Nat) : ℝ) ≤ y := by exact_mod_cast h
            push_cast at this
            have : (m + 1 : ℝ) * 2 ^ e ≤ y * 2 ^ e := mul_le_mul_of_nonneg_right (by linarith) hpos.le
            linarith
          have hne : y ≠ m := by omega
          constructor
          · exact ⟨fun h => by by_contra hc; exact absurd (hgt (by omega)) (not_lt.mpr h), fun h => (hlt (by omega)).le⟩
          · exact ⟨fun h => by by_contra hc; exact absurd (hlt (by omega)) (not_lt.mpr h), fun h => (hgt (by omega)).le⟩
    have heven : ∀ a : Nat, x = m * 2 ^ e ∨ a * 2 ^ (d + 1) % 2 = 0 := fun a => .inr (by
      rw [pow_succ, ← mul_assoc, Nat.mul_mod_left])
    have hmid : x = m * 2 ^ e ∨ (2 * (m / 2 ^ (d + 1)) + 1) * 2 ^ d % 2 = 0 := by
      refine hx.imp id fun ⟨h54, _⟩ => ?_
      have : (m.log2 : ℤ) + e - 52 ≤ ulpExp m e := le_max_left _ _
      rw [Nat.mul_mod, show 2 ^ d % 2 = 0 from Nat.mod_eq_zero_of_dvd (dvd_pow_self 2 (by omega)), Nat.mul_zero,
        Nat.zero_mod]
    generalize hFdef : m / 2 ^ (d + 1) = F at *
    rw [hF]
    have hz : (2 : ℝ) ^ ulpExp m e = 2 ^ (d + 1) * 2 ^ e := zpow_split hd
    have e1 : (F : ℝ) * 2 ^ ulpExp m e = ((F * 2 ^ (d + 1) : Nat) : ℝ) * 2 ^ e := by
      rw [hz]; push_cast; ring
    have e2 : ((F : ℝ) + 1) * 2 ^ ulpExp m e = (((F + 1) * 2 ^ (d + 1) : Nat) : ℝ) * 2 ^ e := by
      rw [hz]; push_cast; ring
    have e3 : (F : ℝ) * 2 ^ ulpExp m e + (F + 1) * 2 ^ ulpExp m e = 2 * ((((2 * F + 1) * 2 ^ d : Nat) : ℝ) * 2 ^ e) := by
      rw [hz]; push_cast; ring
    have hp : 2 ^ (d + 1) = 2 * 2 ^ d := by ring
    have hlo : (F : ℝ) * 2 ^ ulpExp m e ≤ x := by
      rw [e1]
      exact (hle _ (heven F)).1.mpr (by omega)
    have hhi : x < (F + 1) * 2 ^ ulpExp m e := by
      rw [e2, ← not_le, (hle _ (heven (F + 1))).1, not_le, Nat.add_mul]
      omega
    refine ⟨hlo, hhi, ?_⟩
    rw [e3]
    have hm1 : (2 * F + 1) * 2 ^ d = F * 2 ^ (d + 1) + 2 ^ d := by rw [hp]; ring
    have c1 := (hle _ hmid).1
    have c2 := (hle _ hmid).2
    rw [hm1] at c1 c2 ⊢
    generalize hM : ((F * 2 ^ (d + 1) + 2 ^ d : Nat) : ℝ) * 2 ^ e = M at c1 c2 ⊢
    rw [if_neg hqe, hdt]
    simp only [roundShift, hFdef]
    generalize F * 2 ^ (d + 1) = G at *
    generalize m % 2 ^ (d + 1) = r at *
    rw [hp] at hmodlt ⊢
    generalize 2 ^ d = u at *
    by_cases hlt : r < u
    · left
      rw [if_neg (by omega), Nat.sub_self, Nat.add_zero]
      refine ⟨rfl, .inl ?_⟩
      have : x < M := by
        rw [← not_le, c1]
        omega
      linarith
    · by_cases heq : r = u
      · have hxM : x = M := le_antisymm (c2.mpr (by omega)) (c1.mpr (by omega))
        by_cases hF2 : F % 2 = 0
        · left
          rw [if_neg (by omega), Nat.sub_self, Nat.add_zero]
          exact ⟨rfl, .inr ⟨by rw [hxM], hF2⟩⟩
        · right
          rw [if_pos (by omega), Nat.add_sub_cancel_left]
          exact ⟨rfl, .inr ⟨by rw [hxM], by omega⟩⟩
      · right
        rw [if_pos (by omega), Nat.add_sub_cancel_left]
        refine ⟨rfl, .inl ?_⟩
        have : M < x := by
          rw [← not_le, c2]
          omega
        linarith

end Sys2Proof.Machine
end

