-- ==== Sys2Proof/Laws/Numerics.lean ====
section
/-! SUPPORT. The lemmas of the binary64 operations (spec/40_numerics.md R100 to R108): what `unpack` and `withSign` do,
the value of a bit pattern, and correct rounding of `pack`. -/

namespace Sys2Proof.Machine

/-! ### Bit patterns -/

theorem withSign_toNat {s : Bool} {mag : Nat} (h : mag < 2 ^ 63) :
    (withSign s mag).toNat = (if s then 2 ^ 63 else 0) + mag := by
  rw [withSign, BitVec.toNat_ofNat]
  apply Nat.mod_eq_of_lt
  split <;> omega

theorem infMag_lt : infMag < 2 ^ 63 := by decide

theorem msb_eq (a : Word64) : a.msb = decide (2 ^ 63 ≤ a.toNat) := BitVec.msb_eq_decide a

theorem msb_withSign {s : Bool} {mag : Nat} (h : mag < 2 ^ 63) : (withSign s mag).msb = s := by
  rw [msb_eq, withSign_toNat h]
  cases s <;> simp <;> omega

theorem magBits_withSign {s : Bool} {mag : Nat} (h : mag < 2 ^ 63) : magBits (withSign s mag) = mag := by
  rw [magBits, withSign_toNat h]
  split <;> omega

theorem magBits_lt (a : Word64) : magBits a < 2 ^ 63 := Nat.mod_lt _ (by decide)

theorem withSign_msb_magBits (a : Word64) : withSign a.msb (magBits a) = a := by
  apply BitVec.eq_of_toNat_eq
  rw [withSign_toNat (magBits_lt a), msb_eq, magBits]
  have := a.isLt
  split <;> simp_all <;> omega

theorem ext_mag {a b : Word64} (hs : a.msb = b.msb) (hm : magBits a = magBits b) : a = b := by
  rw [← withSign_msb_magBits a, ← withSign_msb_magBits b, hs, hm]

theorem expField_eq (a : Word64) : expField a = magBits a / 2 ^ 52 := by
  unfold expField magBits
  omega

theorem fracField_eq (a : Word64) : fracField a = magBits a % 2 ^ 52 := by
  unfold fracField magBits
  omega

theorem infMag_eq : infMag = 2047 * 2 ^ 52 := by decide

theorem isNaN_iff (a : Word64) : isNaN a = true ↔ infMag < magBits a := by
  have := magBits_lt a
  rw [infMag_eq]
  simp only [isNaN, Bool.and_eq_true, beq_iff_eq, bne_iff_ne, expField_eq, fracField_eq]
  omega

theorem isNaN_eq_false_iff (a : Word64) : isNaN a = false ↔ magBits a ≤ infMag := by
  rw [← not_lt, ← isNaN_iff, Bool.not_eq_true]

theorem isFinite_iff (a : Word64) : isFinite a = true ↔ magBits a < infMag := by
  have := magBits_lt a
  rw [infMag_eq]
  simp only [isFinite, bne_iff_ne, expField_eq]
  omega

theorem isFinite_not_isNaN {a : Word64} (h : isFinite a = true) : isNaN a = false := by
  rw [isFinite_iff] at h
  rw [isNaN_eq_false_iff]
  exact h.le

/-- The three classes of R100. -/
theorem unpack_cases (a : Word64) :
    (isNaN a = true ∧ unpack a = .nan) ∨ (magBits a = infMag ∧ unpack a = .inf a.msb) ∨
      (isFinite a = true ∧ ∃ m e, unpack a = .fin a.msb m e ∧ (m : ℝ) * 2 ^ e = magVal (magBits a) ∧ m < 2 ^ 53 ∧
        -1074 ≤ e ∧ (m = 0 ↔ magBits a = 0)) := by
  have hlt := magBits_lt a
  have hE := expField_eq a
  have hF := fracField_eq a
  by_cases h1 : expField a = 2047
  · by_cases h2 : fracField a = 0
    · right; left
      refine ⟨?_, by simp [unpack, h1, h2]⟩
      rw [infMag_eq]
      omega
    · left
      exact ⟨by simp [isNaN, h1, h2], by simp [unpack, h1, h2]⟩
  · right; right
    refine ⟨by simp [isFinite, h1], ?_⟩
    by_cases h2 : expField a = 0
    · refine ⟨fracField a, -1074, by simp [unpack, h2], ?_, by omega, by omega, by omega⟩
      rw [magVal, if_pos (by omega), hF, Nat.mod_eq_of_lt (by omega)]
    · refine ⟨2 ^ 52 + fracField a, (expField a : ℤ) - 1075, by simp [unpack, h1, h2], ?_, by omega, by omega, by omega⟩
      rw [magVal, if_neg (by omega), hF, hE]

theorem unpack_nan {a : Word64} : unpack a = .nan ↔ isNaN a = true := by
  rcases unpack_cases a with ⟨h, hu⟩ | ⟨h, hu⟩ | ⟨h, m, e, hu, -⟩
  · simp [h, hu]
  · have : isNaN a = false := by rw [isNaN_eq_false_iff]; exact h.le
    simp [this, hu]
  · simp [isFinite_not_isNaN h, hu]

theorem unpack_inf {a : Word64} {s : Bool} : unpack a = .inf s ↔ magBits a = infMag ∧ a.msb = s := by
  rcases unpack_cases a with ⟨h, hu⟩ | ⟨h, hu⟩ | ⟨h, m, e, hu, -⟩
  · rw [isNaN_iff] at h
    simp only [hu, reduceCtorEq, false_iff]
    omega
  · simp [h, hu]
  · rw [isFinite_iff] at h
    simp only [hu, reduceCtorEq, false_iff]
    omega

/-- A finite pattern: its sign, its significand and exponent. -/
theorem unpack_fin {a : Word64} (h : isFinite a = true) : ∃ m e, unpack a = .fin a.msb m e ∧
    (m : ℝ) * 2 ^ e = magVal (magBits a) ∧ m < 2 ^ 53 ∧ -1074 ≤ e ∧ (m = 0 ↔ magBits a = 0) := by
  rcases unpack_cases a with ⟨h', hu⟩ | ⟨h', hu⟩ | ⟨h', hm⟩
  · simp [isFinite_not_isNaN h] at h'
  · rw [isFinite_iff] at h
    omega
  · exact hm

/-- A sign as a factor. -/
def signFactor (s : Bool) : ℝ := if s then -1 else 1

theorem f64_eq {a : Word64} (h : isFinite a = true) : (f64 a : ℝ) = signFactor a.msb * magVal (magBits a) := by
  obtain ⟨m, e, hu, hv, -⟩ := unpack_fin h
  rw [← hv]
  simp only [f64, hu, signFactor]
  push_cast
  split <;> ring

theorem f64_abs {a : Word64} (h : isFinite a = true) : |(f64 a : ℝ)| = magVal (magBits a) := by
  rw [f64_eq h, abs_mul, abs_of_nonneg (magVal_nonneg _)]
  cases a.msb <;> simp [signFactor]

/-! ### Rounding a signed value -/

theorem overflowBound_cast : (overflowBound : ℝ) = 2 ^ 1024 - 2 ^ (970 : ℤ) := by
  rw [overflowBound, show (970 : ℤ) = ((970 : Nat) : ℤ) by rfl, zpow_natCast, Rat.cast_sub, Rat.cast_pow, Rat.cast_pow,
    Rat.cast_ofNat]

theorem nearestMag_le {x : ℝ} {R : Nat} (h : NearestMag x R) : R ≤ infMag := by
  obtain ⟨N, -, -, ⟨rfl, -⟩ | ⟨rfl, -⟩⟩ := h <;> exact min_le_right _ _

theorem magVal_mid : magVal (infMag - 1) + magVal infMag = 2 * (overflowBound : ℝ) := by
  rw [overflowBound_cast, magVal_maxFinite, magVal_infMag, show (971 : ℤ) = 970 + 1 by rfl,
    zpow_add₀ (by norm_num : (2 : ℝ) ≠ 0)]
  generalize (2 : ℝ) ^ (970 : ℤ) = y
  generalize (2 : ℝ) ^ 1024 = z
  norm_num
  ring

theorem overflowBound_pos : (0 : ℝ) < (overflowBound : ℝ) := by
  have h1 := magVal_mid
  have h2 := magVal_nonneg (infMag - 1)
  have h3 : magVal 0 < magVal infMag := magVal_strictMono (by decide)
  rw [magVal_zero] at h3
  linarith

theorem infMag_sub : infMag - 1 + 1 = infMag := by decide

/-- From `2^1024 - 2^970` on, the nearest magnitude is the infinity (R101). -/
theorem nearestMag_overflow {x : ℝ} {R : Nat} (h : NearestMag x R) (hx : (overflowBound : ℝ) ≤ x) : R = infMag := by
  obtain ⟨N, h1, h2, h3⟩ := h
  have hmid := magVal_mid
  have hN : infMag - 1 ≤ N := by
    by_contra hc
    have : magVal (N + 1) ≤ magVal (infMag - 1) := magVal_strictMono.monotone (by omega)
    have h4 := magVal_succ (infMag - 1)
    rw [infMag_sub] at h4
    linarith
  rcases h3 with ⟨rfl, hr⟩ | ⟨rfl, -⟩
  · by_cases hN' : N = infMag - 1
    · exfalso
      subst hN'
      rw [infMag_sub, hmid] at hr
      rcases hr with hr | ⟨-, hr⟩
      · linarith
      · revert hr; decide
    · exact min_eq_right (by omega)
  · exact min_eq_right (by rw [← infMag_sub]; omega)

theorem nearestMag_finite {x : ℝ} {R : Nat} (h : NearestMag x R) (hx : x < (overflowBound : ℝ)) : R < infMag := by
  obtain ⟨N, h1, h2, h3⟩ := h
  have hmid := magVal_mid
  have h4 := magVal_succ (infMag - 1)
  rw [infMag_sub] at h4
  have hN : N < infMag := by
    by_contra hc
    have : magVal infMag ≤ magVal N := magVal_strictMono.monotone (by omega)
    linarith
  rcases h3 with ⟨rfl, -⟩ | ⟨rfl, hr⟩
  · rw [min_eq_left hN.le]; exact hN
  · rw [min_eq_left (by omega)]
    by_contra hc
    have : N = infMag - 1 := by omega
    subst this
    rw [infMag_sub, hmid] at hr
    rcases hr with hr | ⟨hr, -⟩ <;> linarith

/-- No magnitude is nearer, and one as near has the odd last bit. -/
theorem nearestMag_best {x : ℝ} {R : Nat} (h : NearestMag x R) (hR : R < infMag) (C : Nat) :
    |magVal R - x| ≤ |magVal C - x| ∧ (|magVal R - x| = |magVal C - x| → C ≠ R → R % 2 = 0) := by
  obtain ⟨N, h1, h2, h3⟩ := h
  have hC : C ≤ N ∧ magVal C ≤ magVal N ∨ N + 1 ≤ C ∧ magVal (N + 1) ≤ magVal C := by
    rcases Nat.lt_or_ge N C with hc | hc
    · exact .inr ⟨hc, magVal_strictMono.monotone hc⟩
    · exact .inl ⟨hc, magVal_strictMono.monotone hc⟩
  have habsN : |magVal N - x| = x - magVal N := by rw [abs_sub_comm, abs_of_nonneg (by linarith)]
  have habsN1 : |magVal (N + 1) - x| = magVal (N + 1) - x := abs_of_nonneg (by linarith)
  have habsC : C ≤ N → |magVal C - x| = x - magVal C := fun hc => by
    rw [abs_sub_comm, abs_of_nonneg]
    linarith [magVal_strictMono.monotone hc]
  have habsC1 : N + 1 ≤ C → |magVal C - x| = magVal C - x := fun hc => by
    apply abs_of_nonneg
    linarith [magVal_strictMono.monotone hc]
  have hltC : C ≤ N → C ≠ N → magVal C < magVal N := fun hc hne => magVal_strictMono (by omega)
  have hgtC : N + 1 ≤ C → C ≠ N + 1 → magVal (N + 1) < magVal C := fun hc hne => magVal_strictMono (by omega)
  rcases h3 with ⟨hRN, hr⟩ | ⟨hRN, hr⟩
  · have hRN : R = N := by omega
    subst hRN
    rw [habsN]
    rcases hC with ⟨hc, hv⟩ | ⟨hc, hv⟩
    · rw [habsC hc]
      exact ⟨by linarith, fun he hne => absurd (hltC hc hne) (by linarith)⟩
    · rw [habsC1 hc]
      rcases hr with hr | ⟨hr, hev⟩
      · exact ⟨by linarith, fun he _ => by linarith⟩
      · exact ⟨by linarith, fun _ _ => hev⟩
  · have hRN : R = N + 1 := by omega
    subst hRN
    rw [habsN1]
    rcases hC with ⟨hc, hv⟩ | ⟨hc, hv⟩
    · rw [habsC hc]
      rcases hr with hr | ⟨hr, hev⟩
      · exact ⟨by linarith, fun he _ => by linarith⟩
      · exact ⟨by linarith, fun _ _ => by omega⟩
    · rw [habsC1 hc]
      exact ⟨by linarith, fun he hne => absurd (hgtC hc hne) (by linarith)⟩

theorem getLsbD_zero_eq (a : Word64) : a.getLsbD 0 = decide (magBits a % 2 = 1) := by
  rw [BitVec.getLsbD, Nat.testBit_zero, magBits]
  congr 1
  simp only [eq_iff_iff]
  omega

/-- A magnitude nearest to `|x|` with the sign of `x` is `x` correctly rounded. -/
theorem correctlyRounded_withSign {x : ℝ} {s : Bool} {R : Nat} (hs : x = signFactor s * |x|)
    (h : NearestMag |x| R) : CorrectlyRounded x (withSign s R) := by
  have hR63 : R < 2 ^ 63 := lt_of_le_of_lt (nearestMag_le h) infMag_lt
  have hob := overflowBound_pos
  refine ⟨fun hx => ?_, fun hx => ?_, fun hx => ?_⟩
  · have habs : |x| = x := abs_of_nonneg (by linarith)
    have : s = false := by
      cases s
      · rfl
      · simp only [signFactor, if_true] at hs
        linarith
    rw [nearestMag_overflow h (by rwa [habs]), this]
    decide
  · have habs : |x| = -x := abs_of_nonpos (by linarith)
    have : s = true := by
      cases s
      · simp only [signFactor, Bool.false_eq_true, if_false] at hs
        linarith
      · rfl
    rw [nearestMag_overflow h (by rw [habs]; linarith), this]
    decide
  · have hRf := nearestMag_finite h hx
    have hfin : isFinite (withSign s R) = true := by rw [isFinite_iff, magBits_withSign hR63]; exact hRf
    refine ⟨hfin, fun c hc => ?_⟩
    rw [f64_eq hfin, msb_withSign hR63, magBits_withSign hR63, getLsbD_zero_eq, magBits_withSign hR63, f64_eq hc]
    obtain ⟨hb1, hb2⟩ := nearestMag_best h hRf (magBits c)
    have hl : |signFactor s * magVal R - x| = |magVal R - abs x| := by
      conv_lhs => rw [hs]
      rw [← mul_sub, abs_mul]
      cases s <;> simp [signFactor]
    rw [hl]
    by_cases hsc : c.msb = s
    · have hr : |signFactor c.msb * magVal (magBits c) - x| = |magVal (magBits c) - abs x| := by
        rw [hsc]
        conv_lhs => rw [hs]
        rw [← mul_sub, abs_mul]
        cases s <;> simp [signFactor]
      rw [hr]
      refine ⟨hb1, fun he hne => ?_⟩
      have : magBits c ≠ R := by
        rintro hcr
        apply hne
        have hxx : f64 (withSign s R) = f64 c := by
          congr 1
          apply ext_mag <;> simp [msb_withSign hR63, magBits_withSign hR63, hsc, hcr]
        have h1 := f64_eq hfin
        have h2 := f64_eq hc
        rw [hxx]
      have := hb2 he this
      simp [this]
    · have hr : |signFactor c.msb * magVal (magBits c) - x| = magVal (magBits c) + |x| := by
        have hneg : signFactor c.msb = - signFactor s := by
          revert hsc
          cases c.msb <;> cases s <;> simp [signFactor]
        rw [hneg]
        conv_lhs => rw [hs]
        rw [show -signFactor s * magVal (magBits c) - signFactor s * |x| =
          -(signFactor s * (magVal (magBits c) + |x|)) by ring, abs_neg, abs_mul,
          abs_of_nonneg (add_nonneg (magVal_nonneg _) (abs_nonneg x))]
        cases s <;> simp [signFactor]
      rw [hr]
      obtain ⟨hz1, hz2⟩ := nearestMag_best h hRf 0
      rw [magVal_zero, zero_sub, abs_neg, abs_abs] at hz1 hz2
      have hcn := magVal_nonneg (magBits c)
      refine ⟨by linarith, fun he hne => ?_⟩
      have hc0 : magVal (magBits c) = 0 := by linarith
      have hR0 : R ≠ 0 := by
        rintro rfl
        apply hne
        have h1 := f64_eq hfin
        have h2 := f64_eq hc
        rw [magBits_withSign hR63, magVal_zero, mul_zero] at h1
        rw [hc0, mul_zero] at h2
        have : (f64 c : ℝ) = (f64 (withSign s 0) : ℝ) := by rw [h1, h2]
        exact_mod_cast this
      have := hz2 (by linarith) hR0.symm
      simp [this]

theorem signFactor_abs (x : ℝ) (s : Bool) (h : (s = true → x ≤ 0) ∧ (s = false → 0 ≤ x)) :
    x = signFactor s * |x| := by
  cases s
  · rw [abs_of_nonneg (h.2 rfl)]; simp [signFactor]
  · rw [abs_of_nonpos (h.1 rfl)]; simp [signFactor]

/-- The one rounding of every operation (R101). -/
theorem pack_correctlyRounded {s : Bool} {m : Nat} {e : ℤ} {x : ℝ} (hm : m ≠ 0) (hs : x = signFactor s * |x|)
    (h : StandsFor m e |x|) : CorrectlyRounded x (pack s m e) :=
  correctlyRounded_withSign hs (roundMag_nearest hm h)

/-- A zero result, of either sign, is the exact result zero. -/
theorem correctlyRounded_zero (s : Bool) : CorrectlyRounded 0 (withSign s 0) := by
  apply correctlyRounded_withSign (by simp)
  have h := magVal_succ 0
  rw [magVal_zero] at h
  refine ⟨0, by simp, by rw [abs_zero]; exact h, .inl ⟨by simp, .inl ?_⟩⟩
  rw [abs_zero, magVal_zero]
  linarith

end Sys2Proof.Machine
end

