-- ==== Sys2Proof/Laws/Arithmetic.lean ====
section
/-! SUPPORT. One lemma for each finite arithmetic function (spec/40_numerics.md R101 to R103): its result is the exact
result correctly rounded; and the exactness of the integer conversions (R113). -/

namespace Sys2Proof.Machine

theorem signed_cast (s : Bool) (m : Nat) : ((signed s m : ℤ) : ℝ) = signFactor s * m := by
  cases s <;> simp [signed, signFactor]

theorem signFactor_xor (s t : Bool) : signFactor (s ^^ t) = signFactor s * signFactor t := by
  cases s <;> cases t <;> simp [signFactor]

theorem signFactor_mul_self (s : Bool) : signFactor s * signFactor s = 1 := by
  cases s <;> simp [signFactor]

theorem abs_signFactor (s : Bool) : |signFactor s| = 1 := by
  cases s <;> simp [signFactor]

/-- A signed product of nonnegative parts in the form `correctlyRounded_withSign` wants. -/
theorem sign_split {s : Bool} {y : ℝ} (hy : 0 ≤ y) : signFactor s * y = signFactor s * |signFactor s * y| := by
  rw [abs_mul, abs_signFactor, abs_of_nonneg hy, one_mul]

theorem abs_sign_mul {s : Bool} {y : ℝ} (hy : 0 ≤ y) : |signFactor s * y| = y := by
  rw [abs_mul, abs_signFactor, abs_of_nonneg hy, one_mul]

/-- `pack` of an exact value. -/
theorem pack_exact (s : Bool) {m : Nat} (hm : m ≠ 0) (e : ℤ) :
    CorrectlyRounded (signFactor s * (m * 2 ^ e)) (pack s m e) := by
  have hy : (0 : ℝ) ≤ m * 2 ^ e := mul_nonneg (Nat.cast_nonneg m) (two_zpow_pos e).le
  exact pack_correctlyRounded hm (sign_split hy) (.inl (abs_sign_mul hy))

theorem pack_zero (s : Bool) (e : ℤ) : pack s 0 e = withSign s 0 := by simp [pack]

theorem pack_exact' (s : Bool) (m : Nat) (e : ℤ) :
    CorrectlyRounded (signFactor s * (m * 2 ^ e)) (pack s m e) := by
  by_cases hm : m = 0
  · subst hm
    rw [pack_zero]
    simpa using correctlyRounded_zero s
  · exact pack_exact s hm e

/-- R102 for the sum of two finite values. -/
theorem addFinite_correctlyRounded (s : Bool) (m : Nat) (e : ℤ) (t : Bool) (n : Nat) (f : ℤ) :
    CorrectlyRounded (signFactor s * (m * 2 ^ e) + signFactor t * (n * 2 ^ f)) (addFinite s m e t n f) := by
  have hval : signFactor s * (m * 2 ^ e) + signFactor t * (n * 2 ^ f) =
      ((signed s (m * 2 ^ (e - min e f).toNat) + signed t (n * 2 ^ (f - min e f).toNat) : ℤ) : ℝ) * 2 ^ min e f := by
    rw [Int.cast_add, signed_cast, signed_cast,
      zpow_split (d := (e - min e f).toNat) (e := min e f) (q := e) (by omega),
      zpow_split (d := (f - min e f).toNat) (e := min e f) (q := f) (by omega)]
    push_cast
    ring
  rw [hval]
  simp only [addFinite]
  generalize signed s (m * 2 ^ (e - min e f).toNat) + signed t (n * 2 ^ (f - min e f).toNat) = S
  split
  · rename_i hS
    subst hS
    simpa using correctlyRounded_zero _
  · have hy : (0 : ℝ) ≤ S.natAbs * 2 ^ min e f := mul_nonneg (Nat.cast_nonneg _) (two_zpow_pos _).le
    have : (S : ℝ) * 2 ^ min e f = signFactor (decide (S < 0)) * (S.natAbs * 2 ^ min e f) := by
      have hcast : ((S.natAbs : Nat) : ℝ) = |(S : ℝ)| := by
        rw [← Int.cast_natCast, Int.natCast_natAbs, Int.cast_abs]
      rw [hcast]
      by_cases h : S < 0
      · have : (S : ℝ) < 0 := by exact_mod_cast h
        simp [h, signFactor, abs_of_neg this]
      · have : (0 : ℝ) ≤ S := by exact_mod_cast not_lt.mp h
        simp [h, signFactor, abs_of_nonneg this]
    rw [this]
    exact pack_exact _ (by omega) _

/-- R102 for the product of two finite values. -/
theorem mulFinite_correctlyRounded (s : Bool) (m : Nat) (e : ℤ) (t : Bool) (n : Nat) (f : ℤ) :
    CorrectlyRounded ((signFactor s * (m * 2 ^ e)) * (signFactor t * (n * 2 ^ f))) (pack (s ^^ t) (m * n) (e + f)) := by
  have h := pack_exact' (s ^^ t) (m * n) (e + f)
  rw [signFactor_xor, zpow_add₀ (by norm_num : (2 : ℝ) ≠ 0)] at h
  convert h using 1
  push_cast
  ring

/-- R102 for the quotient of two nonzero finite values. -/
theorem divFinite_correctlyRounded {sign : Bool} {m n : Nat} (e f : ℤ) (hm : m ≠ 0) (hn : n ≠ 0) (hn53 : n < 2 ^ 53) :
    CorrectlyRounded (signFactor sign * ((m * 2 ^ e) / (n * 2 ^ f))) (divFinite sign m e n f) := by
  have hn0 : (0 : ℝ) < n := by exact_mod_cast Nat.pos_of_ne_zero hn
  have hu := two_zpow_pos (e - f - 111)
  have hy : (0 : ℝ) ≤ (m * 2 ^ e) / (n * 2 ^ f) :=
    div_nonneg (mul_nonneg (Nat.cast_nonneg _) (two_zpow_pos _).le) (mul_nonneg hn0.le (two_zpow_pos _).le)
  obtain ⟨K, hK⟩ : ∃ K : Nat, K = 2 ^ 110 := ⟨_, rfl⟩
  have hK57 : n * 2 ^ 57 ≤ K := by
    rw [hK, show 110 = 53 + 57 by rfl, pow_add]
    exact Nat.mul_le_mul_right _ hn53.le
  have hKz : (2 : ℝ) ^ (-111 : ℤ) = 1 / (2 * K) := by
    rw [hK, show (-111 : ℤ) = -((111 : Nat) : ℤ) by rfl, zpow_neg, zpow_natCast, pow_succ]
    rw [one_div, mul_comm, Nat.cast_pow, Nat.cast_ofNat]
  have hK0 : (0 : ℝ) < K := by
    rw [hK]
    positivity
  have hval : ((m : ℝ) * 2 ^ e) / (n * 2 ^ f) = 2 * ((m * K : Nat) / n) * 2 ^ (e - f - 111) := by
    rw [show e - f - 111 = e - f + (-111) by ring, zpow_add₀ (by norm_num : (2 : ℝ) ≠ 0),
      zpow_sub₀ (by norm_num : (2 : ℝ) ≠ 0), hKz]
    push_cast
    have := two_zpow_pos f
    field_simp
  have hbig : 2 ^ 57 ≤ m * K / n := by
    rw [Nat.le_div_iff_mul_le (Nat.pos_of_ne_zero hn), Nat.mul_comm]
    exact hK57.trans (Nat.le_mul_of_pos_left K (Nat.pos_of_ne_zero hm))
  simp only [divFinite, ← hK]
  clear hKz hK hK57
  have hQ := Nat.div_add_mod (m * K) n
  have hr : m * K % n < n := Nat.mod_lt _ (Nat.pos_of_ne_zero hn)
  have hQr : ((m * K : Nat) : ℝ) = n * (m * K / n : Nat) + (m * K % n : Nat) := by
    exact_mod_cast hQ.symm
  generalize hq : m * K / n = Q at *
  generalize hrr : m * K % n = r at *
  refine pack_correctlyRounded (by omega) (sign_split hy) ?_
  rw [abs_sign_mul hy, hval, hQr]
  by_cases h0 : r = 0
  · left
    subst h0
    simp only [if_true, Nat.add_zero]
    push_cast
    field_simp
    ring
  · right
    rw [if_neg h0]
    refine ⟨?_, by omega, ?_, ?_⟩
    · rw [Nat.le_log2 (by omega)]
      omega
    · apply mul_lt_mul_of_pos_right _ hu
      have hr0 : (0 : ℝ) < r := by exact_mod_cast Nat.pos_of_ne_zero h0
      rw [show 2 * ((n * (Q : ℝ) + r) / n) = 2 * Q + 2 * (r / n) by field_simp]
      push_cast
      have : 0 < (r : ℝ) / n := div_pos hr0 hn0
      linarith
    · apply mul_lt_mul_of_pos_right _ hu
      rw [show 2 * ((n * (Q : ℝ) + r) / n) = 2 * Q + 2 * (r / n) by field_simp]
      push_cast
      have : (r : ℝ) / n < 1 := (div_lt_one hn0).mpr (by exact_mod_cast hr)
      linarith

/-- The integer square root, one bit at a time. -/
theorem isqrtBits_spec (n : Nat) : ∀ i r, r * r ≤ n → n < (r + 2 ^ i) * (r + 2 ^ i) →
    isqrtBits n i r * isqrtBits n i r ≤ n ∧ n < (isqrtBits n i r + 1) * (isqrtBits n i r + 1)
  | 0, r, h1, h2 => by simpa [isqrtBits] using ⟨h1, h2⟩
  | i + 1, r, h1, h2 => by
    simp only [isqrtBits]
    split
    · rename_i h
      exact isqrtBits_spec n i _ h (by rw [show r + 2 ^ i + 2 ^ i = r + 2 ^ (i + 1) by ring]; exact h2)
    · rename_i h
      exact isqrtBits_spec n i r h1 (not_le.mp h)

/-- R103 for a positive finite value. -/
theorem sqrtFinite_correctlyRounded {m : Nat} (e : ℤ) (hm : m ≠ 0) (hm53 : m < 2 ^ 53) :
    CorrectlyRounded (Real.sqrt (m * 2 ^ e)) (sqrtFinite m e) := by
  obtain ⟨odd, hodd, hlt⟩ : ∃ odd : Nat, e % 2 = odd ∧ odd < 2 := ⟨(e % 2).toNat, by omega, by omega⟩
  obtain ⟨h, hh⟩ : ∃ h : ℤ, e - odd = 2 * h := ⟨(e - odd) / 2, by omega⟩
  have hm1 : 1 ≤ m := Nat.pos_of_ne_zero hm
  have hpow : 2 ^ 128 ≤ 2 ^ (128 + odd) ∧ 2 ^ (128 + odd) ≤ 2 ^ 129 :=
    ⟨Nat.pow_le_pow_right (by norm_num) (by omega), Nat.pow_le_pow_right (by norm_num) (by omega)⟩
  have hspec := isqrtBits_spec (m * 2 ^ (128 + odd)) 92 0 (by omega) (by nlinarith)
  have hval : Real.sqrt (m * 2 ^ e) = 2 * Real.sqrt ((m * 2 ^ (128 + odd) : Nat) : ℝ) * 2 ^ (h - 65) := by
    have h2 : (m : ℝ) * 2 ^ e = ((m * 2 ^ (128 + odd) : Nat) : ℝ) * ((2 : ℝ) ^ (h - 64)) ^ 2 := by
      have he : e = ((128 + odd : Nat) : ℤ) + ((h - 64) + (h - 64)) := by push_cast; omega
      rw [pow_two, ← zpow_add₀ (by norm_num : (2 : ℝ) ≠ 0)]
      push_cast
      rw [mul_assoc, ← zpow_natCast (2 : ℝ), ← zpow_add₀ (by norm_num : (2 : ℝ) ≠ 0), ← he]
    rw [h2, Real.sqrt_mul (Nat.cast_nonneg _), Real.sqrt_sq (two_zpow_pos _).le,
      show h - 64 = h - 65 + 1 by ring, zpow_add₀ (by norm_num : (2 : ℝ) ≠ 0) (h - 65) 1]
    rw [zpow_one]
    ring
  have hexp : (e - e % 2) / 2 - 65 = h - 65 := by omega
  simp only [sqrtFinite, hodd, Int.toNat_natCast]
  rw [show (e - (odd : ℤ)) / 2 - 65 = h - 65 by omega]
  generalize hn : m * 2 ^ (128 + odd) = n at *
  have hnbig : 2 ^ 128 ≤ n := by rw [← hn]; nlinarith
  generalize hr : isqrtBits n 92 0 = r at *
  have hrbig : 2 ^ 64 ≤ r := by
    by_contra hc
    have : r + 1 ≤ 2 ^ 64 := by omega
    nlinarith
  have hu := two_zpow_pos (h - 65)
  have hs0 : (0 : ℝ) ≤ Real.sqrt (n : ℝ) := Real.sqrt_nonneg _
  have hx0 : (0 : ℝ) ≤ Real.sqrt (m * 2 ^ e) := Real.sqrt_nonneg _
  refine pack_correctlyRounded (by omega) (signFactor_abs _ _ ⟨by simp, fun _ => hx0⟩) ?_
  rw [abs_of_nonneg hx0, hval]
  have hlo : (r : ℝ) ≤ Real.sqrt n := by
    apply Real.le_sqrt_of_sq_le
    rw [pow_two]
    exact_mod_cast hspec.1
  have hhi : Real.sqrt n < r + 1 := by
    rw [Real.sqrt_lt' (by positivity), pow_two]
    exact_mod_cast hspec.2
  by_cases hsq : r * r = n
  · left
    have : Real.sqrt n = r := by
      rw [Real.sqrt_eq_iff_mul_self_eq (Nat.cast_nonneg _) (Nat.cast_nonneg _)]
      exact_mod_cast hsq.symm
    rw [if_pos hsq, this]
    push_cast
    ring
  · right
    rw [if_neg hsq]
    have hne : (r : ℝ) < Real.sqrt n := by
      apply lt_of_le_of_ne hlo
      intro hc
      apply hsq
      have := Real.mul_self_sqrt (Nat.cast_nonneg (α := ℝ) n)
      rw [← hc] at this
      exact_mod_cast this
    refine ⟨?_, by omega, ?_, ?_⟩
    · rw [Nat.le_log2 (by omega)]
      omega
    · apply mul_lt_mul_of_pos_right _ hu
      push_cast
      linarith
    · apply mul_lt_mul_of_pos_right _ hu
      push_cast
      linarith

/-! ### Representable results are returned unchanged -/

/-- The value of a pattern determines it up to the sign of a zero. -/
theorem f64_inj {a b : Word64} (ha : isFinite a = true) (hb : isFinite b = true) (h : f64 a = f64 b) (h0 : f64 a ≠ 0) :
    a = b := by
  have h1 := f64_eq ha
  have h2 := f64_eq hb
  have hmag : magBits a = magBits b := by
    apply magVal_strictMono.injective
    rw [← f64_abs ha, ← f64_abs hb, h]
  apply ext_mag _ hmag
  rw [h] at h1
  rw [h2, hmag] at h1
  have hv : magVal (magBits b) ≠ 0 := by
    intro hc
    apply h0
    rw [hc, mul_zero] at h2
    rw [h]
    exact_mod_cast h2
  have := mul_right_cancel₀ hv h1
  revert this
  cases a.msb <;> cases b.msb <;> norm_num [signFactor]

/-- A finite value is below the overflow bound. -/
theorem f64_abs_lt {a : Word64} (h : isFinite a = true) : |(f64 a : ℝ)| < (overflowBound : ℝ) := by
  rw [f64_abs h]
  rw [isFinite_iff] at h
  have h1 : magVal (magBits a) ≤ magVal (infMag - 1) := magVal_strictMono.monotone (by omega)
  have h2 := magVal_succ (infMag - 1)
  rw [infMag_sub] at h2
  have := magVal_mid
  linarith

/-- An exact result that is representable is returned. -/
theorem CorrectlyRounded.exact {x : ℝ} {r c : Word64} (h : CorrectlyRounded x r) (hc : isFinite c = true)
    (hx : (f64 c : ℝ) = x) : isFinite r = true ∧ f64 r = f64 c := by
  obtain ⟨hr, hb⟩ := h.2.2 (by rw [← hx]; exact f64_abs_lt hc)
  refine ⟨hr, ?_⟩
  have := (hb c hc).1
  rw [hx, sub_self, abs_zero] at this
  have : (f64 r : ℝ) = x := by
    have := abs_nonpos_iff.mp this
    linarith
  rw [← hx] at this
  exact_mod_cast this

/-- Whatever significand fits is representable. -/
theorem exists_finite {m : Nat} {e : ℤ} (hm : m ≤ 2 ^ 53) (he : -1074 ≤ e) (he2 : e ≤ 970) (s : Bool) :
    ∃ c, isFinite c = true ∧ (f64 c : ℝ) = signFactor s * (m * 2 ^ e) ∧ c.msb = s := by
  have hfits : ∀ (m : Nat) (e : ℤ), m ≤ 2 ^ 53 → -1074 ≤ e → e ≤ 970 → (e = -1074 ∨ 2 ^ 52 ≤ m) →
      ∃ c, isFinite c = true ∧ (f64 c : ℝ) = signFactor s * (m * 2 ^ e) ∧ c.msb = s := by
    intro m e hm he he2 hn
    have hmag : (e + 1074).toNat * 2 ^ 52 + m < infMag := by rw [infMag_eq]; omega
    have h63 : (e + 1074).toNat * 2 ^ 52 + m < 2 ^ 63 := lt_trans hmag infMag_lt
    have hf : isFinite (withSign s ((e + 1074).toNat * 2 ^ 52 + m)) = true := by
      rw [isFinite_iff, magBits_withSign h63]; exact hmag
    refine ⟨_, hf, ?_, msb_withSign h63⟩
    rw [f64_eq hf, magBits_withSign h63, msb_withSign h63, magVal_place he hm hn]
  -- normalise: move the significand up until it has 53 bits or the exponent is the least
  have hstep : ∀ k : Nat, ∀ (m : Nat) (e : ℤ), m ≤ 2 ^ 53 → (e + 1074).toNat = k → -1074 ≤ e → e ≤ 970 →
      ∃ c, isFinite c = true ∧ (f64 c : ℝ) = signFactor s * (m * 2 ^ e) ∧ c.msb = s := by
    intro k
    induction k with
    | zero => intro m e hm hk he he2; exact hfits m e hm he he2 (.inl (by omega))
    | succ k ih =>
      intro m e hm hk he he2
      by_cases h : 2 ^ 52 ≤ m
      · exact hfits m e hm he he2 (.inr h)
      · obtain ⟨c, h1, h2, h3⟩ := ih (2 * m) (e - 1) (by omega) (by omega) (by omega) (by omega)
        refine ⟨c, h1, ?_, h3⟩
        rw [h2, show e = e - 1 + 1 by ring, zpow_add₀ (by norm_num : (2 : ℝ) ≠ 0) (e - 1) 1, zpow_one]
        push_cast
        rw [show e - 1 + 1 - 1 = e - 1 by ring]
        ring
  exact hstep _ m e hm rfl he he2

/-- `pack` of a value that fits. -/
theorem pack_fits (s : Bool) {m : Nat} {e : ℤ} (hm : m ≤ 2 ^ 53) (he : -1074 ≤ e) (he2 : e ≤ 970) :
    isFinite (pack s m e) = true ∧ (f64 (pack s m e) : ℝ) = signFactor s * (m * 2 ^ e) := by
  obtain ⟨c, h1, h2, h3⟩ := exists_finite hm he he2 s
  obtain ⟨h4, h5⟩ := (pack_exact' s m e).exact h1 h2
  exact ⟨h4, by rw [h5, h2]⟩

/-- R113: the conversion of an integer is exact. -/
theorem intToF64_exact {i : ℤ} (h : i.natAbs ≤ 2 ^ 53) : isFinite (intToF64 i) = true ∧ (f64 (intToF64 i) : ℝ) = i := by
  obtain ⟨h1, h2⟩ := pack_fits (decide (i < 0)) h (e := 0) (by norm_num) (by norm_num)
  refine ⟨h1, ?_⟩
  rw [intToF64, h2, zpow_zero, mul_one]
  have hcast : ((i.natAbs : Nat) : ℝ) = |(i : ℝ)| := by
    rw [← Int.cast_natCast, Int.natCast_natAbs, Int.cast_abs]
  rw [hcast]
  by_cases h : i < 0
  · have : (i : ℝ) < 0 := by exact_mod_cast h
    simp [h, signFactor, abs_of_neg this]
  · have : (0 : ℝ) ≤ i := by exact_mod_cast not_lt.mp h
    simp [h, signFactor, abs_of_nonneg this]

/-! ### Negation (R104), NaN results (R106) and the signs of results (R107) -/

theorem msb_fneg (a : Word64) : (fneg a).msb = !a.msb := by
  rw [fneg, BitVec.msb_xor]
  show (a.msb ^^ true) = _
  simp

theorem magBits_fneg (a : Word64) : magBits (fneg a) = magBits a := by
  apply Nat.eq_of_testBit_eq
  intro i
  rw [magBits, magBits, fneg, Nat.testBit_mod_two_pow, Nat.testBit_mod_two_pow, BitVec.toNat_xor, Nat.testBit_xor,
    show (0x8000000000000000 : Word64).toNat = 2 ^ 63 from rfl, Nat.testBit_two_pow]
  by_cases h : i < 63
  · have : ¬ 63 = i := by omega
    simp [this]
  · simp [h]

theorem isFinite_fneg (a : Word64) : isFinite (fneg a) = isFinite a := by
  rw [Bool.eq_iff_iff, isFinite_iff, isFinite_iff, magBits_fneg]

theorem isNaN_fneg (a : Word64) : isNaN (fneg a) = isNaN a := by
  rw [Bool.eq_iff_iff, isNaN_iff, isNaN_iff, magBits_fneg]

theorem f64_fneg {a : Word64} (h : isFinite a = true) : (f64 (fneg a) : ℝ) = - f64 a := by
  rw [f64_eq h, f64_eq ((isFinite_fneg a).trans h), msb_fneg, magBits_fneg]
  cases a.msb <;> simp [signFactor]

theorem isNaN_makeNaN (fp : Fpu) (op : FpOp) (a b : Word64) : isNaN (makeNaN fp op a b) = true := by
  rw [makeNaN, asNaN]
  split
  · assumption
  · decide

theorem asNaN_of_isNaN {x : Word64} (h : isNaN x = true) : asNaN x = x := by simp [asNaN, h]

/-- What no draw can be is a number: a result with a sign and magnitude bits up to the infinity's is no NaN. -/
theorem isNaN_withSign {s : Bool} {mag : Nat} (h : mag ≤ infMag) : isNaN (withSign s mag) = false := by
  rw [isNaN_eq_false_iff, magBits_withSign (lt_of_le_of_lt h infMag_lt)]
  exact h

theorem isNaN_pack (s : Bool) (m : Nat) (e : ℤ) : isNaN (pack s m e) = false :=
  isNaN_withSign (roundMag_le _ _ _)

theorem msb_pack (s : Bool) (m : Nat) (e : ℤ) : (pack s m e).msb = s :=
  msb_withSign (lt_of_le_of_lt (roundMag_le _ _ _) infMag_lt)

theorem isNaN_addFinite (s : Bool) (m : Nat) (e : ℤ) (t : Bool) (n : Nat) (f : ℤ) :
    isNaN (addFinite s m e t n f) = false := by
  simp only [addFinite]
  split
  · exact isNaN_withSign (Nat.zero_le _)
  · exact isNaN_pack _ _ _

theorem isNaN_divFinite (s : Bool) (m : Nat) (e : ℤ) (n : Nat) (f : ℤ) : isNaN (divFinite s m e n f) = false :=
  isNaN_pack _ _ _

theorem isNaN_sqrtFinite (m : Nat) (e : ℤ) : isNaN (sqrtFinite m e) = false := isNaN_pack _ _ _

theorem msb_sqrtFinite (m : Nat) (e : ℤ) : (sqrtFinite m e).msb = false := msb_pack _ _ _

/-- A sum of nonnegative finite values has its sign clear. -/
theorem msb_addFinite_nonneg (m : Nat) (e : ℤ) (n : Nat) (f : ℤ) : (addFinite false m e false n f).msb = false := by
  simp only [addFinite, signed, Bool.false_eq_true, if_false]
  split
  · exact msb_withSign (by decide)
  · rw [msb_pack]
    simp only [decide_eq_false_iff_not, not_lt]
    positivity

/-- Addition of finite values does not depend on the order (R102). -/
theorem addFinite_comm (s : Bool) (m : Nat) (e : ℤ) (t : Bool) (n : Nat) (f : ℤ) :
    addFinite s m e t n f = addFinite t n f s m e := by
  simp only [addFinite, min_comm f e, Bool.and_comm t s]
  rw [add_comm]

/-- The sum of finite values (R102). -/
theorem sumWith_finite {a b nan : Word64} (ha : isFinite a = true) (hb : isFinite b = true) :
    CorrectlyRounded ((f64 a : ℝ) + f64 b) (sumWith nan a b) := by
  obtain ⟨m, e, hu, hv, -⟩ := unpack_fin ha
  obtain ⟨n, f, hu', hv', -⟩ := unpack_fin hb
  rw [sumWith, hu, hu', f64_eq ha, f64_eq hb, ← hv, ← hv']
  exact addFinite_correctlyRounded _ _ _ _ _ _

end Sys2Proof.Machine
end

