-- ==== Sys2Proof/Laws/Enclosures.lean ====
section
/-! SUPPORT. The error analysis of the enclosures behind `fsin`, `fcos` and `flog10` (spec/40_numerics.md R110, R111): one
lemma for each stage of the computation, against the real functions. -/

namespace Sys2Proof.Machine

/-! ### Sine and cosine -/

/-- `b` approximates `sin θ` and `cos θ`, scaled by `2^P`. -/
def Approximates (P : Nat) (b : SinCos) (θ : ℝ) : Prop :=
  |(b.s : ℝ) - 2 ^ P * Real.sin θ| ≤ b.err ∧ |(b.c : ℝ) - 2 ^ P * Real.cos θ| ≤ b.err

theorem int_div_bounds (a : ℤ) (P : Nat) :
    (a : ℝ) / 2 ^ P - 1 < ((a / 2 ^ P : ℤ) : ℝ) ∧ ((a / 2 ^ P : ℤ) : ℝ) ≤ a / 2 ^ P := by
  have hp : (0 : ℝ) < 2 ^ P := by positivity
  have hpz : (0 : ℤ) < 2 ^ P := by positivity
  have h1 := Int.emod_add_mul_ediv a (2 ^ P)
  have h2 := Int.emod_nonneg a hpz.ne'
  have h3 := Int.emod_lt_of_pos a hpz
  have h1r : ((a % 2 ^ P : ℤ) : ℝ) + 2 ^ P * ((a / 2 ^ P : ℤ) : ℝ) = a := by exact_mod_cast h1
  have h2r : (0 : ℝ) ≤ ((a % 2 ^ P : ℤ) : ℝ) := by exact_mod_cast h2
  have h3r : ((a % 2 ^ P : ℤ) : ℝ) < 2 ^ P := by exact_mod_cast h3
  constructor
  · rw [sub_lt_iff_lt_add, div_lt_iff₀ hp]
    nlinarith
  · rw [le_div_iff₀ hp]
    nlinarith

theorem nat_div_bounds (a : Nat) (P : Nat) :
    (a : ℝ) / 2 ^ P - 1 < ((a / 2 ^ P : Nat) : ℝ) ∧ ((a / 2 ^ P : Nat) : ℝ) ≤ a / 2 ^ P := by
  have h := int_div_bounds a P
  have : (((a : ℤ) / 2 ^ P : ℤ) : ℝ) = ((a / 2 ^ P : Nat) : ℝ) := by
    rw [← Int.cast_natCast (a / 2 ^ P), Int.natCast_div]
    norm_cast
  rw [this, Int.cast_natCast] at h
  exact h

/-- The product of two approximations of values at most `N`, divided by `N`. -/
theorem product_error {N s c S C err : ℝ} (hN : 0 < N) (hS : |S| ≤ N) (hC : |C| ≤ N) (hs : |s - S| ≤ err)
    (hc : |c - C| ≤ err) : |2 * s * c / N - 2 * S * C / N| ≤ 4 * err + 2 * err * err / N := by
  have herr : 0 ≤ err := le_trans (abs_nonneg _) hs
  have key : 2 * s * c / N - 2 * S * C / N = (2 * (S * (c - C)) + 2 * ((s - S) * C) + 2 * ((s - S) * (c - C))) / N := by
    field_simp
    ring
  rw [key, abs_div, abs_of_pos hN, div_le_iff₀ hN]
  have h1 : |S * (c - C)| ≤ N * err := by
    rw [abs_mul]
    exact mul_le_mul hS hc (abs_nonneg _) hN.le
  have h2 : |(s - S) * C| ≤ err * N := by
    rw [abs_mul]
    exact mul_le_mul hs hC (abs_nonneg _) herr
  have h3 : |(s - S) * (c - C)| ≤ err * err := by
    rw [abs_mul]
    exact mul_le_mul hs hc (abs_nonneg _) herr
  have h4 : (4 * err + 2 * err * err / N) * N = 4 * (N * err) + 2 * (err * err) := by
    field_simp
  rw [h4]
  calc _ ≤ |2 * (S * (c - C)) + 2 * ((s - S) * C)| + |2 * ((s - S) * (c - C))| := abs_add_le _ _
    _ ≤ |2 * (S * (c - C))| + |2 * ((s - S) * C)| + |2 * ((s - S) * (c - C))| := by
      gcongr
      exact abs_add_le _ _
    _ ≤ _ := by
      simp only [abs_mul, abs_two] at h1 h2 h3 ⊢
      linarith

theorem scaled_abs_le {P : Nat} {v : ℝ} (hv : |v| ≤ 1) : |2 ^ P * v| ≤ 2 ^ P := by
  rw [abs_mul, abs_of_pos (by positivity)]
  nlinarith [show (0 : ℝ) < 2 ^ P by positivity]

/-- One doubling keeps the bound. -/
theorem doubleAngle_approximates {P : Nat} {b : SinCos} {θ : ℝ} (h : Approximates P b θ) :
    Approximates P (doubleAngle P b) (2 * θ) := by
  have hN : (0 : ℝ) < 2 ^ P := by positivity
  have hS := scaled_abs_le (P := P) (Real.abs_sin_le_one θ)
  have hC := scaled_abs_le (P := P) (Real.abs_cos_le_one θ)
  have e1 := product_error hN hS hC h.1 h.2
  have e2 := product_error hN hS hS h.1 h.1
  have d1 := int_div_bounds (2 * b.s * b.c) P
  have d2 := int_div_bounds (2 * b.s * b.s) P
  have d3 := nat_div_bounds (2 * b.err * b.err) P
  have t1 : 2 ^ P * Real.sin (2 * θ) = 2 * (2 ^ P * Real.sin θ) * (2 ^ P * Real.cos θ) / 2 ^ P := by
    rw [Real.sin_two_mul]
    field_simp
  have t2 : 2 ^ P * Real.cos (2 * θ) = 2 ^ P - 2 * (2 ^ P * Real.sin θ) * (2 ^ P * Real.sin θ) / 2 ^ P := by
    have h1 := Real.sin_sq_add_cos_sq θ
    have h2 : Real.cos (2 * θ) = 1 - 2 * Real.sin θ * Real.sin θ := by
      rw [Real.cos_two_mul]
      linarith
    rw [h2]
    field_simp
  push_cast at d1 d2 d3
  simp only [Approximates, doubleAngle]
  rw [t1, t2]
  push_cast
  rw [abs_le] at e1 e2 ⊢
  rw [abs_le]
  constructor <;> constructor <;> linarith

theorem doubleAngles_approximates {P : Nat} : ∀ (k : Nat) {b : SinCos} {θ : ℝ}, Approximates P b θ →
    Approximates P (doubleAngles P k b) (2 ^ k * θ)
  | 0, b, θ, h => by simpa [doubleAngles] using h
  | k + 1, b, θ, h => by
    have := doubleAngles_approximates k (doubleAngle_approximates h)
    rw [show (2 : ℝ) ^ (k + 1) * θ = 2 ^ k * (2 * θ) by ring]
    simpa [doubleAngles] using this

theorem scaleFloor_bounds (m : Nat) (z : ℤ) :
    (scaleFloor m z : ℝ) ≤ m * 2 ^ z ∧ (m : ℝ) * 2 ^ z < scaleFloor m z + 1 := by
  unfold scaleFloor
  split
  · rename_i h
    obtain ⟨d, rfl⟩ := Int.eq_ofNat_of_zero_le h
    simp only [Int.toNat_natCast, zpow_natCast]
    push_cast
    exact ⟨le_rfl, by linarith⟩
  · rename_i h
    obtain ⟨d, rfl⟩ : ∃ d : Nat, z = -(d : ℤ) := ⟨(-z).toNat, by omega⟩
    have := nat_div_bounds m d
    rw [neg_neg, Int.toNat_natCast, zpow_neg, zpow_natCast, ← div_eq_mul_inv]
    exact ⟨this.2, by linarith [this.1]⟩

/-- The start of the doublings: an angle so small that its sine is itself and its cosine `1 - y²/2`, within 4 units. -/
theorem base_approximates {P q : Nat} {y : Nat} {θ : ℝ} (hP : P = 3 * q) (h0 : 0 ≤ θ) (hθ : θ ≤ 1 / 2 ^ q)
    (h1 : (y : ℝ) ≤ 2 ^ P * θ) (h2 : 2 ^ P * θ < y + 1) (hq : 1 ≤ q) :
    Approximates P ⟨y, 2 ^ P - (y : ℤ) * y / 2 ^ (P + 1), 4⟩ θ := by
  have hpq : (2 : ℝ) ^ P = 2 ^ q * 2 ^ q * 2 ^ q := by rw [hP]; ring
  have hQ : (2 : ℝ) ≤ 2 ^ q := by
    calc (2 : ℝ) = 2 ^ 1 := by norm_num
      _ ≤ 2 ^ q := pow_le_pow_right₀ (by norm_num) hq
  have hN : (0 : ℝ) < 2 ^ P := by positivity
  generalize hT : (2 : ℝ) ^ q = T at *
  have hT0 : 0 < T := by linarith
  have hθT : θ * T ≤ 1 := by
    rw [le_div_iff₀ hT0] at hθ
    exact hθ
  have hθ1 : θ ≤ 1 := by nlinarith
  -- the sine
  have s1 : Real.sin θ ≤ θ := Real.sin_le h0
  have s2 : θ - θ ^ 3 / 4 ≤ Real.sin θ := by
    rcases h0.eq_or_lt with rfl | hpos
    · simp
    · have := (Real.sin_gt_sub_cube hpos).le
      have : 0 < θ ^ 3 := by positivity
      linarith
  have s3 : 2 ^ P * (θ ^ 3 / 4) ≤ 1 / 4 := by
    have : 2 ^ P * θ ^ 3 = (θ * T) ^ 3 := by rw [hpq]; ring
    have h3 : (θ * T) ^ 3 ≤ 1 := pow_le_one₀ (mul_nonneg h0 hT0.le) hθT
    linarith
  -- the cosine
  have c1 : 1 - θ ^ 2 / 2 ≤ Real.cos θ := Real.one_sub_sq_div_two_le_cos
  have c2 : Real.cos θ ≤ 1 - θ ^ 2 / 2 + θ ^ 4 * (5 / 96) := by
    have := Real.cos_bound (x := θ) (by rw [abs_of_nonneg h0]; exact hθ1)
    rw [abs_le, abs_of_nonneg h0] at this
    linarith [this.2]
  have c3 : 2 ^ P * (θ ^ 4 * (5 / 96)) ≤ 1 := by
    have h4 : 2 ^ P * θ ^ 4 = (θ * T) ^ 3 * θ := by rw [hpq]; ring
    have h3 : (θ * T) ^ 3 ≤ 1 := pow_le_one₀ (mul_nonneg h0 hT0.le) hθT
    have h5 : 0 ≤ (θ * T) ^ 3 := pow_nonneg (mul_nonneg h0 hT0.le) 3
    have : (θ * T) ^ 3 * θ ≤ 1 := by nlinarith
    linarith
  have c4 := int_div_bounds ((y : ℤ) * y) (P + 1)
  push_cast at c4
  -- `y²` against `(2^P θ)²`
  have hy0 : (0 : ℝ) ≤ y := Nat.cast_nonneg y
  have hX : 2 ^ P * θ ≤ 2 ^ P := by nlinarith
  have hp1 : (2 : ℝ) ^ (P + 1) = 2 * 2 ^ P := by ring
  rw [hp1] at c4
  have c5 : (y : ℝ) * y / (2 * 2 ^ P) ≤ 2 ^ P * (θ ^ 2 / 2) := by
    rw [div_le_iff₀ (by positivity)]
    nlinarith [mul_nonneg hN.le h0]
  have c6 : 2 ^ P * (θ ^ 2 / 2) - 1 ≤ (y : ℝ) * y / (2 * 2 ^ P) := by
    rw [le_div_iff₀ (by positivity)]
    have hx0 : 0 ≤ 2 ^ P * θ := mul_nonneg hN.le h0
    have hle : (2 ^ P * θ) * (2 ^ P * θ) - 2 * 2 ^ P ≤ (y : ℝ) * y := by
      by_cases hbig : 1 ≤ 2 ^ P * θ
      · have : 2 ^ P * θ - 1 ≤ y := by linarith
        nlinarith
      · nlinarith
    nlinarith
  simp only [Approximates]
  push_cast
  rw [abs_le, abs_le]
  have m1 : 2 ^ P * Real.sin θ ≤ 2 ^ P * θ := mul_le_mul_of_nonneg_left s1 hN.le
  have m2 : 2 ^ P * (θ - θ ^ 3 / 4) ≤ 2 ^ P * Real.sin θ := mul_le_mul_of_nonneg_left s2 hN.le
  have m3 : 2 ^ P * (1 - θ ^ 2 / 2) ≤ 2 ^ P * Real.cos θ := mul_le_mul_of_nonneg_left c1 hN.le
  have m4 : 2 ^ P * Real.cos θ ≤ 2 ^ P * (1 - θ ^ 2 / 2 + θ ^ 4 * (5 / 96)) := mul_le_mul_of_nonneg_left c2 hN.le
  refine ⟨⟨?_, ?_⟩, ?_, ?_⟩ <;> linarith

/-- `sinCos` approximates the sine and cosine of its angle. -/
theorem sinCos_approximates {m : Nat} {e : ℤ} {E : Nat} (h : (m : ℝ) * 2 ^ e ≤ 2 ^ E) :
    Approximates (anglePrecision E) (sinCos m e E) (m * 2 ^ e) := by
  have hP : anglePrecision E = 3 * (2 * E + 234) := by unfold anglePrecision; ring
  have hk : anglePrecision E / 3 = 2 * E + 234 := by rw [hP]; omega
  have hx0 : (0 : ℝ) ≤ m * 2 ^ e := mul_nonneg (Nat.cast_nonneg m) (two_zpow_pos e).le
  have hf := scaleFloor_bounds m (e - ((E + (2 * E + 234) : Nat) : ℤ) + anglePrecision E)
  have hscale : (m : ℝ) * 2 ^ (e - ((E + (2 * E + 234) : Nat) : ℤ) + anglePrecision E) =
      2 ^ anglePrecision E * (m * 2 ^ e / 2 ^ (E + (2 * E + 234))) := by
    rw [zpow_add₀ (by norm_num : (2 : ℝ) ≠ 0), zpow_sub₀ (by norm_num : (2 : ℝ) ≠ 0), zpow_natCast, zpow_natCast]
    ring
  rw [hscale] at hf
  have hb := base_approximates (q := 2 * E + 234) hP (θ := m * 2 ^ e / 2 ^ (E + (2 * E + 234)))
    (div_nonneg hx0 (by positivity)) (by
      rw [pow_add, ← div_div]
      apply div_le_div_of_nonneg_right _ (by positivity)
      rw [div_le_one (by positivity)]
      exact h) hf.1 hf.2 (by omega)
  have hd := doubleAngles_approximates (E + (2 * E + 234)) hb
  rw [mul_div_cancel₀ _ (by positivity)] at hd
  simp only [sinCos, hk]
  exact hd

/-- What an enclosure says of a real number. -/
def Encloses (b : Bool × Enclosure) (v : ℝ) : Prop :=
  (b.2.lo : ℝ) * 2 ^ b.2.exp ≤ |v| ∧ |v| ≤ b.2.hi * 2 ^ b.2.exp ∧ (0 < b.2.lo → (b.1 = true ↔ v < 0))

theorem encloseUnit_encloses {P err : Nat} {a : ℤ} {v : ℝ} (h : |(a : ℝ) - 2 ^ P * v| ≤ err) (hv : |v| ≤ 1) :
    Encloses (decide (a < 0), encloseUnit a err P) v := by
  have hN : (0 : ℝ) < 2 ^ P := by positivity
  have habs : |(|(a : ℝ)| - 2 ^ P * |v|)| ≤ err := by
    have h2 : 2 ^ P * |v| = |2 ^ P * v| := by rw [abs_mul, abs_of_pos hN]
    rw [h2]
    exact le_trans (abs_abs_sub_abs_le _ _) h
  have hcast : ((a.natAbs : Nat) : ℝ) = |(a : ℝ)| := by
    rw [← Int.cast_natCast, Int.natCast_natAbs, Int.cast_abs]
  rw [abs_le] at habs
  have hz : (2 : ℝ) ^ (-(P : ℤ)) = 1 / 2 ^ P := by rw [zpow_neg, zpow_natCast, one_div]
  simp only [Encloses, encloseUnit]
  rw [hz]
  refine ⟨?_, ?_, fun hlo => ?_⟩
  · rw [mul_one_div, div_le_iff₀ hN]
    by_cases hle : err ≤ a.natAbs
    · rw [Nat.cast_sub hle, hcast]
      linarith
    · rw [Nat.sub_eq_zero_of_le (by omega)]
      simp only [Nat.cast_zero]
      positivity
  · rw [mul_one_div, le_div_iff₀ hN]
    rw [Nat.cast_min, le_min_iff]
    push_cast
    rw [hcast]
    constructor
    · linarith
    · nlinarith
  · rw [abs_le] at h
    have herr : (err : ℝ) < |(a : ℝ)| := by
      rw [← hcast]
      have : err < a.natAbs := by omega
      exact_mod_cast this
    rw [decide_eq_true_eq]
    constructor
    · intro hneg
      have hneg : (a : ℝ) < 0 := by exact_mod_cast hneg
      rw [abs_of_neg hneg] at herr
      by_contra hc
      have : 0 ≤ 2 ^ P * v := mul_nonneg hN.le (not_lt.mp hc)
      linarith [h.1]
    · intro hv0
      by_contra hc
      have hpos : (0 : ℝ) ≤ a := by exact_mod_cast not_lt.mp hc
      rw [abs_of_nonneg hpos] at herr
      have : 2 ^ P * v < 0 := mul_neg_of_pos_of_neg hN hv0
      linarith [h.2]

theorem angleBits_bound (m : Nat) (e : ℤ) : (m : ℝ) * 2 ^ e ≤ 2 ^ angleBits m e := by
  have h := value_lt (m := m) e
  refine le_trans h.le ?_
  rw [← zpow_natCast]
  apply zpow_le_zpow_right₀ (by norm_num)
  unfold angleBits
  omega

theorem encloseSin_encloses {m : Nat} (e : ℤ) (hm : m ≠ 0) : Encloses (encloseSin m e) (Real.sin (m * 2 ^ e)) := by
  unfold encloseSin
  split
  · rename_i ht
    simp only [isTinyAngle, decide_eq_true_eq] at ht
    have hx0 : (0 : ℝ) < m * 2 ^ e := mul_pos (by exact_mod_cast Nat.pos_of_ne_zero hm) (two_zpow_pos e)
    have hx1 : (m : ℝ) * 2 ^ e ≤ 1 := by
      refine le_trans (value_lt (m := m) e).le ?_
      rw [show (1 : ℝ) = 2 ^ (0 : ℤ) by simp]
      exact zpow_le_zpow_right₀ (by norm_num) (by omega)
    obtain ⟨d, rfl⟩ : ∃ d : Nat, e = -(d : ℤ) := ⟨(-e).toNat, by omega⟩
    have hsc : (2 - 2 * -(d : ℤ)).toNat = 2 + 2 * d := by omega
    have hu : (2 : ℝ) ^ (3 * -(d : ℤ) - 2) = (2 ^ (-(d : ℤ))) ^ 3 / 4 := by
      rw [zpow_sub₀ (by norm_num : (2 : ℝ) ≠ 0), ← zpow_natCast, ← zpow_mul]
      norm_num
      ring_nf
    have hsu : ((2 : ℝ) ^ (2 + 2 * d)) * ((2 ^ (-(d : ℤ))) ^ 3 / 4) = 2 ^ (-(d : ℤ)) := by
      rw [zpow_neg, zpow_natCast]
      have : (2 : ℝ) ^ d ≠ 0 := by positivity
      field_simp
      ring
    have hs1 := Real.sin_le hx0.le
    have hs2 : m * 2 ^ (-(d : ℤ)) - (m * 2 ^ (-(d : ℤ))) ^ 3 / 4 ≤ Real.sin (m * 2 ^ (-(d : ℤ))) := by
      have := (Real.sin_gt_sub_cube hx0).le
      have : 0 < ((m : ℝ) * 2 ^ (-(d : ℤ))) ^ 3 := pow_pos hx0 3
      linarith
    have hs0 : 0 ≤ Real.sin (m * 2 ^ (-(d : ℤ))) := Real.sin_nonneg_of_nonneg_of_le_pi hx0.le
      (le_trans hx1 (by linarith [Real.pi_gt_three]))
    simp only [Encloses, hsc, hu]
    generalize hy : (2 : ℝ) ^ (-(d : ℤ)) = y at *
    rw [abs_of_nonneg hs0]
    refine ⟨?_, ?_, fun _ => ?_⟩
    · have hle : (((m * 2 ^ (2 + 2 * d) - m * m * m : Nat) : ℝ)) ≤ max ((m : ℝ) * 2 ^ (2 + 2 * d) - m * m * m) 0 := by
        by_cases h : m * m * m ≤ m * 2 ^ (2 + 2 * d)
        · rw [Nat.cast_sub h]; push_cast; exact le_max_left _ _
        · rw [Nat.sub_eq_zero_of_le (by omega)]; simp
      have hy3 : 0 ≤ y ^ 3 / 4 := by
        have : 0 < y := by rw [← hy]; exact two_zpow_pos _
        positivity
      refine le_trans (mul_le_mul_of_nonneg_right hle hy3) ?_
      rw [max_mul_of_nonneg _ _ hy3, zero_mul, max_le_iff]
      refine ⟨?_, hs0⟩
      have : ((m : ℝ) * 2 ^ (2 + 2 * d) - m * m * m) * (y ^ 3 / 4) = m * (2 ^ (2 + 2 * d) * (y ^ 3 / 4)) - (m * y) ^ 3 / 4 := by
        ring
      rw [this, hsu]
      exact hs2
    · push_cast
      rw [mul_assoc, hsu]
      exact hs1
    · simp only [Bool.false_eq_true, false_iff, not_lt]
      exact hs0
  · exact encloseUnit_encloses (sinCos_approximates (angleBits_bound m e)).1 (Real.abs_sin_le_one _)

theorem encloseCos_encloses {m : Nat} (e : ℤ) (hm : m ≠ 0) : Encloses (encloseCos m e) (Real.cos (m * 2 ^ e)) := by
  unfold encloseCos
  split
  · rename_i ht
    simp only [isTinyAngle, decide_eq_true_eq] at ht
    have hx0 : (0 : ℝ) < m * 2 ^ e := mul_pos (by exact_mod_cast Nat.pos_of_ne_zero hm) (two_zpow_pos e)
    have hx1 : (m : ℝ) * 2 ^ e ≤ 1 := by
      refine le_trans (value_lt (m := m) e).le ?_
      rw [show (1 : ℝ) = 2 ^ (0 : ℤ) by simp]
      exact zpow_le_zpow_right₀ (by norm_num) (by omega)
    obtain ⟨d, rfl⟩ : ∃ d : Nat, e = -(d : ℤ) := ⟨(-e).toNat, by omega⟩
    have hsc : (1 - 2 * -(d : ℤ)).toNat = 1 + 2 * d := by omega
    have hu : (2 : ℝ) ^ (2 * -(d : ℤ) - 1) = (2 ^ (-(d : ℤ))) ^ 2 / 2 := by
      rw [zpow_sub₀ (by norm_num : (2 : ℝ) ≠ 0), ← zpow_natCast, ← zpow_mul]
      norm_num
      ring_nf
    have hsu : ((2 : ℝ) ^ (1 + 2 * d)) * ((2 ^ (-(d : ℤ))) ^ 2 / 2) = 1 := by
      rw [zpow_neg, zpow_natCast]
      have : (2 : ℝ) ^ d ≠ 0 := by positivity
      field_simp
      ring
    have hc1 := Real.one_sub_sq_div_two_le_cos (x := m * 2 ^ (-(d : ℤ)))
    have hc2 := Real.cos_le_one (m * 2 ^ (-(d : ℤ)))
    have hc0 : 0 ≤ Real.cos (m * 2 ^ (-(d : ℤ))) := by nlinarith
    simp only [Encloses, hsc, hu]
    generalize hy : (2 : ℝ) ^ (-(d : ℤ)) = y at *
    rw [abs_of_nonneg hc0]
    refine ⟨?_, ?_, fun _ => ?_⟩
    · have hle : (((2 ^ (1 + 2 * d) - m * m : Nat) : ℝ)) ≤ max ((2 : ℝ) ^ (1 + 2 * d) - m * m) 0 := by
        by_cases h : m * m ≤ 2 ^ (1 + 2 * d)
        · rw [Nat.cast_sub h]; push_cast; exact le_max_left _ _
        · rw [Nat.sub_eq_zero_of_le (by omega)]; simp
      have hy2 : 0 ≤ y ^ 2 / 2 := by positivity
      refine le_trans (mul_le_mul_of_nonneg_right hle hy2) ?_
      rw [max_mul_of_nonneg _ _ hy2, zero_mul, max_le_iff]
      refine ⟨?_, hc0⟩
      have : ((2 : ℝ) ^ (1 + 2 * d) - m * m) * (y ^ 2 / 2) = 2 ^ (1 + 2 * d) * (y ^ 2 / 2) - (m * y) ^ 2 / 2 := by
        ring
      rw [this, hsu]
      exact hc1
    · push_cast
      rw [hsu]
      exact hc2
    · simp only [Bool.false_eq_true, false_iff, not_lt]
      exact hc0
  · exact encloseUnit_encloses (sinCos_approximates (angleBits_bound m e)).2 (Real.abs_cos_le_one _)

/-! ### The decimal logarithm -/

theorem shiftTo_le (x d : Nat) : (shiftTo false x d : ℝ) ≤ x / 2 ^ d := by
  simp only [shiftTo, Bool.false_eq_true, if_false]
  exact (nat_div_bounds x d).2

theorem le_shiftTo (x d : Nat) : (x : ℝ) / 2 ^ d ≤ shiftTo true x d := by
  simp only [shiftTo, if_true]
  have hp : 0 < 2 ^ d := Nat.two_pow_pos d
  rw [div_le_iff₀ (by positivity)]
  have h1 := Nat.div_add_mod (x + (2 ^ d - 1)) (2 ^ d)
  have h2 := Nat.mod_lt (x + (2 ^ d - 1)) hp
  have h3 : x ≤ (x + (2 ^ d - 1)) / 2 ^ d * 2 ^ d := by
    rw [Nat.mul_comm]
    omega
  exact_mod_cast h3

/-- The digits rounded down are a lower bound of the binary logarithm. -/
theorem log2Digits_lower {p : Nat} (hprec : p = logPrecision) : ∀ (n y acc : Nat), 2 ^ p ≤ y →
    (log2Digits false n y acc : ℝ) ≤ 2 ^ n * (acc + Real.logb 2 (y / 2 ^ p))
  | 0, y, acc, hy => by
    have : 0 ≤ Real.logb 2 ((y : ℝ) / 2 ^ p) := by
      apply Real.logb_nonneg (by norm_num)
      rw [one_le_div (by positivity)]
      exact_mod_cast hy
    simpa [log2Digits] using this
  | n + 1, y, acc, hy => by
    have hp : (0 : ℝ) < 2 ^ p := by positivity
    have hy0 : (0 : ℝ) < y := by
      have : 0 < y := lt_of_lt_of_le (Nat.two_pow_pos _) hy
      exact_mod_cast this
    have hz := shiftTo_le (y * y) p
    have hzge : 2 ^ p ≤ shiftTo false (y * y) p := by
      simp only [shiftTo, Bool.false_eq_true, if_false]
      rw [Nat.le_div_iff_mul_le (Nat.two_pow_pos _)]
      exact Nat.mul_le_mul hy hy
    simp only [log2Digits, ← hprec]
    generalize shiftTo false (y * y) p = z at *
    have hz0 : (0 : ℝ) < z := by
      have : 0 < z := lt_of_lt_of_le (Nat.two_pow_pos _) hzge
      exact_mod_cast this
    have hzlog : Real.logb 2 ((z : ℝ) / 2 ^ p) ≤ 2 * Real.logb 2 (y / 2 ^ p) := by
      rw [← Real.logb_rpow_eq_mul_logb_of_pos (by positivity)]
      apply Real.logb_le_logb_of_le (by norm_num) (by positivity)
      rw [div_le_iff₀ hp]
      refine le_trans hz (le_of_eq ?_)
      push_cast
      rw [Real.rpow_two]
      field_simp
    split
    · rename_i hbit
      have ih := log2Digits_lower hprec n (shiftTo false z 1) (2 * acc + 1) (by
        simp only [shiftTo, Bool.false_eq_true, if_false]
        rw [Nat.le_div_iff_mul_le (by norm_num), pow_one, ← pow_succ]
        exact hbit)
      refine le_trans ih ?_
      have hz1 := shiftTo_le z 1
      have hpos : (0 : ℝ) < shiftTo false z 1 := by
        have : 0 < shiftTo false z 1 := by
          simp only [shiftTo, Bool.false_eq_true, if_false]
          have : 2 ≤ z := le_trans (by rw [pow_succ]; have := Nat.two_pow_pos p; omega) hbit
          omega
        exact_mod_cast this
      have h2 : Real.logb 2 ((shiftTo false z 1 : ℝ) / 2 ^ p) ≤ Real.logb 2 (z / 2 ^ p) - 1 := by
        rw [show (1 : ℝ) = Real.logb 2 2 by simp, ← Real.logb_div (by positivity) (by norm_num)]
        apply Real.logb_le_logb_of_le (by norm_num) (by positivity)
        rw [div_le_div_iff₀ hp (by norm_num)]
        rw [pow_one, le_div_iff₀ (by norm_num)] at hz1
        have : (z : ℝ) / 2 ^ p * 2 ^ p = z := by field_simp
        rw [this]
        exact hz1
      rw [pow_succ]
      push_cast
      have hn : (0 : ℝ) < 2 ^ n := by positivity
      rw [mul_assoc]
      apply mul_le_mul_of_nonneg_left _ hn.le
      linarith
    · refine le_trans (log2Digits_lower hprec n z (2 * acc) hzge) ?_
      rw [pow_succ]
      push_cast
      have hn : (0 : ℝ) < 2 ^ n := by positivity
      rw [mul_assoc]
      apply mul_le_mul_of_nonneg_left _ hn.le
      linarith

/-- The digits rounded up, plus one, are an upper bound. -/
theorem log2Digits_upper {p : Nat} (hprec : p = logPrecision) : ∀ (n y acc : Nat), 2 ^ p ≤ y → y ≤ 2 ^ (p + 1) →
    2 ^ n * (acc + Real.logb 2 (y / 2 ^ p)) ≤ (log2Digits true n y acc : ℝ) + 1
  | 0, y, acc, hy, hy2 => by
    have hy0 : (0 : ℝ) < y := by
      have : 0 < y := lt_of_lt_of_le (Nat.two_pow_pos _) hy
      exact_mod_cast this
    have : Real.logb 2 ((y : ℝ) / 2 ^ p) ≤ 1 := by
      rw [show (1 : ℝ) = Real.logb 2 2 by simp]
      apply Real.logb_le_logb_of_le (by norm_num) (by positivity)
      rw [div_le_iff₀ (by positivity)]
      rw [pow_succ, Nat.mul_comm] at hy2
      exact_mod_cast hy2
    simpa [log2Digits] using this
  | n + 1, y, acc, hy, hy2 => by
    have hp : (0 : ℝ) < 2 ^ p := by positivity
    have hy0 : (0 : ℝ) < y := by
      have : 0 < y := lt_of_lt_of_le (Nat.two_pow_pos _) hy
      exact_mod_cast this
    have hz := le_shiftTo (y * y) p
    have hP0 := Nat.two_pow_pos p
    have hzge : 2 ^ p ≤ shiftTo true (y * y) p := by
      simp only [shiftTo, if_true]
      rw [Nat.le_div_iff_mul_le hP0]
      exact le_trans (Nat.mul_le_mul hy hy) (Nat.le_add_right _ _)
    have hzle : shiftTo true (y * y) p ≤ 2 ^ (p + 2) := by
      simp only [shiftTo, if_true]
      have h1 : y * y ≤ 2 ^ (p + 2) * 2 ^ p := by
        calc y * y ≤ 2 ^ (p + 1) * 2 ^ (p + 1) := Nat.mul_le_mul hy2 hy2
          _ = _ := by ring
      rw [Nat.div_le_iff_le_mul_add_pred hP0, Nat.mul_comm (2 ^ p)]
      exact Nat.add_le_add_right h1 _
    simp only [log2Digits, ← hprec]
    generalize shiftTo true (y * y) p = z at *
    have hz0 : (0 : ℝ) < z := by
      have : 0 < z := lt_of_lt_of_le hP0 hzge
      exact_mod_cast this
    have hzlog : 2 * Real.logb 2 (y / 2 ^ p) ≤ Real.logb 2 ((z : ℝ) / 2 ^ p) := by
      rw [← Real.logb_rpow_eq_mul_logb_of_pos (by positivity)]
      apply Real.logb_le_logb_of_le (by norm_num) (by positivity)
      rw [le_div_iff₀ hp]
      refine le_trans (le_of_eq ?_) hz
      push_cast
      rw [Real.rpow_two]
      field_simp
    have hn : (0 : ℝ) < 2 ^ n := by positivity
    split
    · rename_i hbit
      have hsh : 2 ^ p ≤ shiftTo true z 1 := by
        simp only [shiftTo, if_true]
        rw [Nat.le_div_iff_mul_le (by norm_num), pow_one, ← pow_succ]
        omega
      have hsh2 : shiftTo true z 1 ≤ 2 ^ (p + 1) := by
        simp only [shiftTo, if_true]
        rw [show 2 ^ (p + 2) = 2 ^ (p + 1) * 2 by ring] at hzle
        omega
      have ih := log2Digits_upper hprec n (shiftTo true z 1) (2 * acc + 1) hsh hsh2
      refine le_trans ?_ ih
      have hz1 := le_shiftTo z 1
      have h2 : Real.logb 2 ((z : ℝ) / 2 ^ p) - 1 ≤ Real.logb 2 ((shiftTo true z 1 : ℝ) / 2 ^ p) := by
        rw [show (1 : ℝ) = Real.logb 2 2 by simp, ← Real.logb_div (by positivity) (by norm_num)]
        apply Real.logb_le_logb_of_le (by norm_num) (by positivity)
        rw [div_le_div_iff₀ (by norm_num) hp]
        rw [pow_one, div_le_iff₀ (by norm_num)] at hz1
        have : (z : ℝ) / 2 ^ p * 2 ^ p = z := by field_simp
        rw [this]
        exact hz1
      rw [pow_succ]
      push_cast
      rw [mul_assoc]
      apply mul_le_mul_of_nonneg_left _ hn.le
      linarith
    · refine le_trans ?_ (log2Digits_upper hprec n z (2 * acc) hzge (by omega))
      rw [pow_succ]
      push_cast
      rw [mul_assoc]
      apply mul_le_mul_of_nonneg_left _ hn.le
      linarith

/-- The number being squared, for a significand `m`. -/
theorem log2_start {p m : Nat} (hm : m ≠ 0) (hlog : m.log2 ≤ p) :
    2 ^ p ≤ m * 2 ^ (p - m.log2) ∧ m * 2 ^ (p - m.log2) ≤ 2 ^ (p + 1) ∧
      Real.logb 2 (((m * 2 ^ (p - m.log2) : Nat) : ℝ) / 2 ^ p) = Real.logb 2 m - m.log2 := by
  have h1 : 2 ^ m.log2 ≤ m := Nat.log2_self_le hm
  have h2 : m < 2 ^ (m.log2 + 1) := Nat.lt_log2_self
  have hs : 2 ^ m.log2 * 2 ^ (p - m.log2) = 2 ^ p := by
    rw [← pow_add]
    congr 1
    omega
  refine ⟨?_, ?_, ?_⟩
  · rw [← hs]
    exact Nat.mul_le_mul_right _ h1
  · rw [pow_succ, ← hs]
    rw [pow_succ] at h2
    calc m * 2 ^ (p - m.log2) ≤ 2 ^ m.log2 * 2 * 2 ^ (p - m.log2) :=
          Nat.mul_le_mul_right _ h2.le
      _ = _ := by ring
  · have hm0 : (m : ℝ) ≠ 0 := by exact_mod_cast hm
    have hsr : ((2 : ℝ) ^ m.log2) * 2 ^ (p - m.log2) = 2 ^ p := by exact_mod_cast hs
    rw [← hsr]
    push_cast
    rw [mul_div_mul_right _ _ (by positivity), Real.logb_div hm0 (by positivity), Real.logb_pow]
    simp

theorem log2FracLo_le {m : Nat} (hm : m ≠ 0) (hlog : m.log2 ≤ logPrecision) :
    (log2FracLo m : ℝ) ≤ 2 ^ logDigits * (Real.logb 2 m - m.log2) := by
  obtain ⟨h1, -, h3⟩ := log2_start hm hlog
  have := log2Digits_lower rfl logDigits _ 0 h1
  rw [h3, Nat.cast_zero, zero_add] at this
  exact this

theorem le_log2FracHi {m : Nat} (hm : m ≠ 0) (hlog : m.log2 ≤ logPrecision) :
    2 ^ logDigits * (Real.logb 2 m - m.log2) ≤ (log2FracHi m : ℝ) := by
  obtain ⟨h1, h2, h3⟩ := log2_start hm hlog
  have := log2Digits_upper rfl logDigits _ 0 h1 h2
  rw [h3, Nat.cast_zero, zero_add] at this
  rw [log2FracHi, Nat.cast_add, Nat.cast_one]
  exact this

theorem logb_two_ten : Real.logb 2 10 = 1 + Real.logb 2 5 := by
  rw [show (10 : ℝ) = 2 * 5 by norm_num, Real.logb_mul (by norm_num) (by norm_num)]
  simp

theorem log2Ten_bounds : (log2TenLo : ℝ) ≤ 2 ^ logDigits * Real.logb 2 10 ∧
    2 ^ logDigits * Real.logb 2 10 ≤ log2TenHi ∧ (0 : ℝ) < log2TenLo := by
  have h5 : Nat.log2 5 = 2 := by decide
  have h1 := log2FracLo_le (m := 5) (by norm_num) (by rw [h5]; decide)
  have h2 := le_log2FracHi (m := 5) (by norm_num) (by rw [h5]; decide)
  rw [h5] at h1 h2
  have hp : (0 : ℝ) < 2 ^ logDigits := by positivity
  rw [log2TenLo, log2TenHi, logb_two_ten]
  push_cast at h1 h2 ⊢
  refine ⟨by linarith, by linarith, ?_⟩
  have : (0 : ℝ) ≤ log2FracLo 5 := Nat.cast_nonneg _
  linarith

/-- From a bound of the binary logarithm to one of the decimal. -/
theorem toLog10Lo_le {lo : Nat} {l : ℝ} (h : (lo : ℝ) ≤ 2 ^ logDigits * l) :
    (toLog10Lo lo : ℝ) ≤ 2 ^ logDigits * (l / Real.logb 2 10) := by
  obtain ⟨h1, h2, h3⟩ := log2Ten_bounds
  have hp : (0 : ℝ) < 2 ^ logDigits := by positivity
  have hl10 : 0 < Real.logb 2 10 := Real.logb_pos (by norm_num) (by norm_num)
  have hhi : (0 : ℝ) < log2TenHi := by linarith
  have hdiv : (toLog10Lo lo : ℝ) ≤ ((lo * 2 ^ logDigits : Nat) : ℝ) / log2TenHi := by
    rw [toLog10Lo]
    exact Nat.cast_div_le
  refine le_trans hdiv ?_
  rw [div_le_iff₀ hhi, mul_div_assoc', div_mul_eq_mul_div, le_div_iff₀ hl10]
  push_cast
  have hlo0 : (0 : ℝ) ≤ lo := Nat.cast_nonneg lo
  calc (lo : ℝ) * 2 ^ logDigits * Real.logb 2 10 = lo * (2 ^ logDigits * Real.logb 2 10) := by ring
    _ ≤ lo * log2TenHi := mul_le_mul_of_nonneg_left h2 hlo0
    _ ≤ _ := mul_le_mul_of_nonneg_right h hhi.le

theorem le_toLog10Hi {hi : Nat} {l : ℝ} (h : 2 ^ logDigits * l ≤ (hi : ℝ)) :
    2 ^ logDigits * (l / Real.logb 2 10) ≤ (toLog10Hi hi : ℝ) := by
  obtain ⟨h1, h2, h3⟩ := log2Ten_bounds
  have hl10 : 0 < Real.logb 2 10 := Real.logb_pos (by norm_num) (by norm_num)
  have hlt : 0 < log2TenLo := by exact_mod_cast h3
  have hdiv : ((hi * 2 ^ logDigits : Nat) : ℝ) / log2TenLo ≤ toLog10Hi hi := by
    rw [div_le_iff₀ h3, toLog10Hi]
    have e1 := Nat.div_add_mod (hi * 2 ^ logDigits + (log2TenLo - 1)) log2TenLo
    have e2 := Nat.mod_lt (hi * 2 ^ logDigits + (log2TenLo - 1)) hlt
    have e3 : hi * 2 ^ logDigits ≤ (hi * 2 ^ logDigits + (log2TenLo - 1)) / log2TenLo * log2TenLo := by
      rw [Nat.mul_comm _ log2TenLo]
      omega
    exact_mod_cast e3
  refine le_trans ?_ hdiv
  rw [le_div_iff₀ h3, mul_div_assoc', div_mul_eq_mul_div, div_le_iff₀ hl10]
  push_cast
  have hhi0 : (0 : ℝ) ≤ hi := Nat.cast_nonneg hi
  calc 2 ^ logDigits * l * log2TenLo ≤ hi * log2TenLo := mul_le_mul_of_nonneg_right h h3.le
    _ ≤ hi * (2 ^ logDigits * Real.logb 2 10) := mul_le_mul_of_nonneg_left h1 hhi0
    _ = _ := by ring

theorem floorLog10_spec : ∀ (fuel n : Nat), 1 ≤ n → n < 10 ^ (fuel + 1) →
    10 ^ floorLog10 fuel n ≤ n ∧ n < 10 ^ (floorLog10 fuel n + 1)
  | 0, n, h1, h2 => by simpa [floorLog10] using ⟨h1, h2⟩
  | fuel + 1, n, h1, h2 => by
    simp only [floorLog10]
    split
    · rename_i h
      obtain ⟨h3, h4⟩ := floorLog10_spec fuel (n / 10) (by omega) (by
        rw [pow_succ] at h2
        omega)
      constructor
      · rw [pow_succ]
        omega
      · rw [pow_succ]
        omega
    · exact ⟨by simpa using h1, by rw [zero_add, pow_one]; omega⟩

theorem intPart_bounds (m : Nat) (e : ℤ) : (intPart m e : ℝ) ≤ m * 2 ^ e ∧ (m : ℝ) * 2 ^ e < intPart m e + 1 ∧
    (isIntegral m e = true → (intPart m e : ℝ) = m * 2 ^ e) := by
  have h := scaleFloor_bounds m e
  have heq : intPart m e = scaleFloor m e := rfl
  rw [heq]
  refine ⟨h.1, h.2, fun hi => ?_⟩
  unfold scaleFloor
  simp only [isIntegral, Bool.or_eq_true, decide_eq_true_eq, beq_iff_eq] at hi
  split
  · rename_i h0
    obtain ⟨d, rfl⟩ := Int.eq_ofNat_of_zero_le h0
    simp
  · rename_i h0
    obtain ⟨d, rfl⟩ : ∃ d : Nat, e = -(d : ℤ) := ⟨(-e).toNat, by omega⟩
    have hd : m % 2 ^ d = 0 := by
      rcases hi with hi | hi
      · exact absurd hi h0
      · simpa using hi
    rw [neg_neg, Int.toNat_natCast, zpow_neg, zpow_natCast, ← div_eq_mul_inv,
      Nat.cast_div (Nat.dvd_of_mod_eq_zero hd) (by positivity)]
    push_cast
    rfl

theorem logb_value {m : Nat} (hm : m ≠ 0) (e : ℤ) : Real.logb 2 (m * 2 ^ e) = Real.logb 2 m + e := by
  have hm0 : (m : ℝ) ≠ 0 := by exact_mod_cast hm
  rw [Real.logb_mul hm0 (two_zpow_pos e).ne', ← Real.rpow_intCast, Real.logb_rpow (by norm_num) (by norm_num)]

theorem logb_ten_eq (x : ℝ) : Real.logb 10 x = Real.logb 2 x / Real.logb 2 10 := by
  rw [← Real.log_div_log, ← Real.log_div_log, ← Real.log_div_log]
  have h2 : Real.log 2 ≠ 0 := (Real.log_pos (by norm_num)).ne'
  field_simp

theorem logDigits_exp : (2 : ℝ) ^ (-(logDigits : ℤ)) = 1 / 2 ^ logDigits := by
  rw [zpow_neg, zpow_natCast, one_div]

/-- The enclosure of the logarithm of a value from 1 on. -/
theorem encloseLog10_encloses {m : Nat} {e : ℤ} (hm : m ≠ 0) (h1 : 0 ≤ (m.log2 : ℤ) + e)
    (hlog : m.log2 ≤ logPrecision) (hbig : intPart m e < 10 ^ (309 + 1)) :
    ((encloseLog10 m e).lo : ℝ) * 2 ^ (encloseLog10 m e).exp ≤ Real.logb 10 (m * 2 ^ e) ∧
      Real.logb 10 (m * 2 ^ e) ≤ (encloseLog10 m e).hi * 2 ^ (encloseLog10 m e).exp := by
  have hN : (0 : ℝ) < 2 ^ logDigits := by positivity
  have hx1 : (1 : ℝ) ≤ m * 2 ^ e := by
    refine le_trans ?_ (le_value hm e)
    rw [show (1 : ℝ) = 2 ^ (0 : ℤ) by simp]
    exact zpow_le_zpow_right₀ (by norm_num) h1
  have hx0 : (0 : ℝ) < m * 2 ^ e := by linarith
  obtain ⟨i1, i2, i3⟩ := intPart_bounds m e
  have hi1 : 1 ≤ intPart m e := by
    by_contra hc
    have : intPart m e = 0 := by omega
    rw [this] at i2
    push_cast at i2
    linarith
  obtain ⟨d1, d2⟩ := floorLog10_spec 309 (intPart m e) hi1 hbig
  have hE : ((((m.log2 : ℤ) + e).toNat : Nat) : ℝ) = m.log2 + e := by
    have : (((m.log2 : ℤ) + e).toNat : ℤ) = m.log2 + e := Int.toNat_of_nonneg h1
    exact_mod_cast this
  have hl := log2FracLo_le hm hlog
  have hh := le_log2FracHi hm hlog
  have hv := logb_value hm e
  have hlo : ((((m.log2 : ℤ) + e).toNat * 2 ^ logDigits + log2FracLo m : Nat) : ℝ) ≤
      2 ^ logDigits * Real.logb 2 (m * 2 ^ e) := by
    rw [hv]
    push_cast
    rw [hE]
    linarith
  have hhi : 2 ^ logDigits * Real.logb 2 (m * 2 ^ e) ≤
      ((((m.log2 : ℤ) + e).toNat * 2 ^ logDigits + log2FracHi m : Nat) : ℝ) := by
    rw [hv]
    push_cast
    rw [hE]
    linarith
  have hlo10 := toLog10Lo_le hlo
  have hhi10 := le_toLog10Hi hhi
  rw [← logb_ten_eq] at hlo10 hhi10
  have hlogpow : ∀ k : Nat, Real.logb 10 ((10 : ℝ) ^ k) = k := fun k => by
    rw [Real.logb_pow, Real.logb_self_eq_one (by norm_num), mul_one]
  simp only [encloseLog10]
  generalize floorLog10 309 (intPart m e) = d at *
  have hd : (d : ℝ) ≤ Real.logb 10 (m * 2 ^ e) := by
    rw [← hlogpow d]
    apply Real.logb_le_logb_of_le (by norm_num) (by positivity)
    refine le_trans ?_ i1
    exact_mod_cast d1
  obtain ⟨c, hc, hcd⟩ : ∃ c : Nat, Real.logb 10 (m * 2 ^ e) ≤ c ∧
      (if isPow10 m e d = true then d else d + 1) = c := by
    refine ⟨_, ?_, rfl⟩
    split
    · rename_i hp
      simp only [isPow10, Bool.and_eq_true, beq_iff_eq] at hp
      rw [← i3 hp.1, hp.2, Nat.cast_pow, Nat.cast_ofNat, hlogpow]
    · rw [← hlogpow (d + 1)]
      apply Real.logb_le_logb_of_le (by norm_num) hx0
      refine le_trans i2.le ?_
      exact_mod_cast d2
  rw [hcd, logDigits_exp, mul_one_div, mul_one_div, div_le_iff₀ hN, le_div_iff₀ hN]
  have hc' := mul_le_mul_of_nonneg_right hc hN.le
  push_cast
  rw [max_le_iff, le_min_iff]
  exact ⟨⟨by linarith, by nlinarith⟩, by linarith, hc'⟩

/-- The enclosure of the negated logarithm of a value below 1. -/
theorem encloseNegLog10_encloses {m : Nat} {e : ℤ} (hm : m ≠ 0) (h1 : (m.log2 : ℤ) + e < 0)
    (hlog : m.log2 ≤ logPrecision) :
    ((encloseNegLog10 m e).lo : ℝ) * 2 ^ (encloseNegLog10 m e).exp ≤ -Real.logb 10 (m * 2 ^ e) ∧
      -Real.logb 10 (m * 2 ^ e) ≤ (encloseNegLog10 m e).hi * 2 ^ (encloseNegLog10 m e).exp := by
  have hN : (0 : ℝ) < 2 ^ logDigits := by positivity
  have hE : (((-((m.log2 : ℤ) + e)).toNat : Nat) : ℝ) = -(m.log2 + e) := by
    have : ((-((m.log2 : ℤ) + e)).toNat : ℤ) = -(m.log2 + e) := Int.toNat_of_nonneg (by omega)
    exact_mod_cast this
  have hE1 : 1 ≤ (-((m.log2 : ℤ) + e)).toNat := by omega
  have hl := log2FracLo_le hm hlog
  have hh := le_log2FracHi hm hlog
  have hv := logb_value hm e
  have hfrac1 : Real.logb 2 m - m.log2 ≤ 1 := by
    have h2 : (m : ℝ) ≤ 2 ^ (m.log2 + 1) := by exact_mod_cast (Nat.lt_log2_self (n := m)).le
    have h3 := Real.logb_le_logb_of_le (b := 2) (by norm_num) (by exact_mod_cast Nat.pos_of_ne_zero hm) h2
    rw [Real.logb_pow, Real.logb_self_eq_one (by norm_num), mul_one] at h3
    push_cast at h3
    linarith
  have hneg : 0 ≤ -Real.logb 2 (m * 2 ^ e) := by
    rw [hv]
    have : (1 : ℝ) ≤ (-((m.log2 : ℤ) + e)).toNat := by exact_mod_cast hE1
    rw [hE] at this
    linarith
  have hlo : (((-((m.log2 : ℤ) + e)).toNat * 2 ^ logDigits - log2FracHi m : Nat) : ℝ) ≤
      2 ^ logDigits * -Real.logb 2 (m * 2 ^ e) := by
    by_cases hle : log2FracHi m ≤ (-((m.log2 : ℤ) + e)).toNat * 2 ^ logDigits
    · rw [Nat.cast_sub hle, hv]
      push_cast
      rw [hE]
      linarith
    · rw [Nat.sub_eq_zero_of_le (by omega)]
      simp only [Nat.cast_zero]
      exact mul_nonneg hN.le hneg
  have hhi : 2 ^ logDigits * -Real.logb 2 (m * 2 ^ e) ≤
      (((-((m.log2 : ℤ) + e)).toNat * 2 ^ logDigits - log2FracLo m : Nat) : ℝ) := by
    have hle : log2FracLo m ≤ (-((m.log2 : ℤ) + e)).toNat * 2 ^ logDigits := by
      have h3 : (log2FracLo m : ℝ) ≤ 2 ^ logDigits := by nlinarith
      have h4 : log2FracLo m ≤ 2 ^ logDigits := by exact_mod_cast h3
      exact le_trans h4 (Nat.le_mul_of_pos_left _ (by omega))
    rw [Nat.cast_sub hle, hv]
    push_cast
    rw [hE]
    linarith
  have hlo10 := toLog10Lo_le hlo
  have hhi10 := le_toLog10Hi hhi
  rw [neg_div, ← logb_ten_eq] at hlo10 hhi10
  simp only [encloseNegLog10]
  rw [logDigits_exp, mul_one_div, mul_one_div, div_le_iff₀ hN, le_div_iff₀ hN]
  exact ⟨by linarith, by linarith⟩

end Sys2Proof.Machine
end

