-- ==== Sys2Proof/Laws/FreeNaN.lean ====
section
/-! SUPPORT. A result that is no NaN does not depend on the free NaN bits (R106; log entry 3): what one numerics record
computes there, every other computes too. -/

namespace Sys2Proof.Machine

theorem sumWith_congr {nan nan' a b : Word64} (hN : isNaN nan' = true) (h : isNaN (sumWith nan' a b) = false) :
    sumWith nan a b = sumWith nan' a b := by
  revert h
  rw [sumWith, sumWith]
  rcases unpack a with _ | s | ⟨s, m, e⟩ <;> rcases unpack b with _ | t | ⟨t, n, f⟩ <;> simp only [hN, Bool.true_eq_false,
    false_imp_iff, implies_true]
  split <;> simp [hN]

theorem fadd_congr (fp fp' : Fpu) {a b : Word64} (h : isNaN (fadd fp' a b) = false) : fadd fp a b = fadd fp' a b :=
  sumWith_congr (isNaN_makeNaN _ _ _ _) h

theorem fsub_congr (fp fp' : Fpu) {a b : Word64} (h : isNaN (fsub fp' a b) = false) : fsub fp a b = fsub fp' a b :=
  sumWith_congr (isNaN_makeNaN _ _ _ _) h

theorem fmul_congr (fp fp' : Fpu) {a b : Word64} (h : isNaN (fmul fp' a b) = false) : fmul fp a b = fmul fp' a b := by
  revert h
  rw [fmul, fmul]
  rcases unpack a with _ | s | ⟨s, m, e⟩ <;> rcases unpack b with _ | t | ⟨t, n, f⟩ <;> simp only [isNaN_makeNaN,
    Bool.true_eq_false, false_imp_iff, implies_true]
  all_goals split <;> simp [isNaN_makeNaN]

theorem fdiv_congr (fp fp' : Fpu) {a b : Word64} (h : isNaN (fdiv fp' a b) = false) : fdiv fp a b = fdiv fp' a b := by
  revert h
  rw [fdiv, fdiv]
  rcases unpack a with _ | s | ⟨s, m, e⟩ <;> rcases unpack b with _ | t | ⟨t, n, f⟩ <;> simp only [isNaN_makeNaN,
    Bool.true_eq_false, false_imp_iff, implies_true]
  split
  · split <;> simp [isNaN_makeNaN]
  · split <;> simp

theorem fsqrt_congr (fp fp' : Fpu) {a : Word64} (h : isNaN (fsqrt fp' a) = false) : fsqrt fp a = fsqrt fp' a := by
  revert h
  rw [fsqrt, fsqrt]
  rcases unpack a with _ | s | ⟨s, m, e⟩ <;> simp only [isNaN_makeNaN, Bool.true_eq_false, false_imp_iff]
  · split <;> simp [isNaN_makeNaN]
  · split
    · simp
    · split <;> simp [isNaN_makeNaN]

/-- The luma by the record `fp'` where none of its partial results is a NaN. -/
theorem Luma_congr (fp fp' : Fpu) {r g b : Byte} (h1 : isNaN (fmul fp' W_R (u8ToF64 r)) = false)
    (h2 : isNaN (fmul fp' W_G (u8ToF64 g)) = false) (h3 : isNaN (fmul fp' W_B (u8ToF64 b)) = false)
    (h4 : isNaN (fadd fp' (fmul fp' W_R (u8ToF64 r)) (fmul fp' W_G (u8ToF64 g))) = false)
    (h5 : isNaN (fadd fp' (fadd fp' (fmul fp' W_R (u8ToF64 r)) (fmul fp' W_G (u8ToF64 g))) (fmul fp' W_B (u8ToF64 b))) = false)
    (h6 : isNaN (Luma fp' r g b) = false) : Luma fp r g b = Luma fp' r g b := by
  simp only [Luma] at h6 ⊢
  rw [fmul_congr fp fp' h1, fmul_congr fp fp' h2, fmul_congr fp fp' h3, fadd_congr fp fp' h4, fadd_congr fp fp' h5,
    fdiv_congr fp fp' h6]

end Sys2Proof.Machine
end

