-- ==== Sys2Proof/Laws/Invariant.lean ====
section
/-! SUPPORT. What each update of the state does to the parts of the invariant: the canonical form of storage, the range of
its indices, and `STATUS`; and the inversion of `event` and `execute`. -/

namespace Sys2Proof.Machine

theorem canonical_iff (s : State) : s.canonical = true ↔
    Mem.wf (vecBackground s) s.vec = true ∧ Mem.wf (gridBackground s) s.grid = true ∧
      ∀ k, Mem.wf (pixBackground s k) (pixMem s k) = true := by
  simp only [State.canonical, Bool.and_eq_true]
  constructor
  · rintro ⟨⟨⟨h1, h2⟩, h3⟩, h4⟩
    exact ⟨h1, h2, fun k => by cases k <;> assumption⟩
  · rintro ⟨h1, h2, h3⟩
    exact ⟨⟨⟨h1, h2⟩, h3 .p0⟩, h3 .p1⟩

theorem inRange_iff (s : State) : s.inRange = true ↔
    Mem.below Space.vec.elems s.vec = true ∧ Mem.below Space.grid.elems s.grid = true ∧
      ∀ k, Mem.below (pixSpace k).elems (pixMem s k) = true := by
  simp only [State.inRange, Bool.and_eq_true]
  constructor
  · rintro ⟨⟨⟨h1, h2⟩, h3⟩, h4⟩
    exact ⟨h1, h2, fun k => by cases k <;> assumption⟩
  · rintro ⟨h1, h2, h3⟩
    exact ⟨⟨⟨h1, h2⟩, h3 .p0⟩, h3 .p1⟩

theorem statusOk_iff (s : State) : s.statusOk = true ↔ s.lastErr.toNat ≤ 5 ∧ (s.lastErr = 0 ∨ s.sticky = true) := by
  simp [State.statusOk]

/-! ### Storage -/

@[simp] theorem canonical_accept (s : State) : (accept s).canonical = s.canonical := rfl
@[simp] theorem canonical_reject (e : ErrCode) (s : State) : (reject e s).canonical = s.canonical := rfl
@[simp] theorem canonical_writeC (cd : CReg) (v : Sample) (s : State) : (writeC cd v s).canonical = s.canonical := rfl
@[simp] theorem canonical_setGridLog (n : Nat) (s : State) : (setGridLog n s).canonical = s.canonical := rfl
@[simp] theorem canonical_setPixDims (k : PixBuf) (n : Nat) (s : State) :
    (setPixDims k n s).canonical = s.canonical := by cases k <;> rfl
@[simp] theorem canonical_giveReply (r : Reply) (s : State) : (giveReply r s).canonical = s.canonical := rfl
@[simp] theorem inRange_accept (s : State) : (accept s).inRange = s.inRange := rfl
@[simp] theorem inRange_reject (e : ErrCode) (s : State) : (reject e s).inRange = s.inRange := rfl
@[simp] theorem inRange_writeC (cd : CReg) (v : Sample) (s : State) : (writeC cd v s).inRange = s.inRange := rfl
@[simp] theorem inRange_setGridLog (n : Nat) (s : State) : (setGridLog n s).inRange = s.inRange := rfl
@[simp] theorem inRange_setPixDims (k : PixBuf) (n : Nat) (s : State) : (setPixDims k n s).inRange = s.inRange := by
  cases k <;> rfl
@[simp] theorem inRange_giveReply (r : Reply) (s : State) : (giveReply r s).inRange = s.inRange := rfl

@[simp] theorem pixMem_setPixMem (k j : PixBuf) (m : Mem 8) (s : State) :
    pixMem (setPixMem k m s) j = if j = k then m else pixMem s j := by
  cases k <;> cases j <;> rfl

/-- Storage of `VEC` written element by element inside the space. -/
theorem canonical_writeAll_vec {s : State} (us : List (Nat × Word64)) (h : s.canonical = true) :
    State.canonical { s with vec := Mem.writeAll (vecBackground s) us s.vec } = true := by
  rw [canonical_iff] at h ⊢
  exact ⟨Mem.wf_writeAll _ us h.1, h.2⟩

theorem inRange_writeAll_vec {s : State} {us : List (Nat × Word64)} (hus : ∀ u ∈ us, u.1 < Space.vec.elems)
    (h : s.inRange = true) : State.inRange { s with vec := Mem.writeAll (vecBackground s) us s.vec } = true := by
  rw [inRange_iff] at h ⊢
  exact ⟨Mem.below_writeAll _ h.1 hus, h.2⟩

theorem canonical_writeAll_grid {s : State} (us : List (Nat × Word64)) (h : s.canonical = true) :
    State.canonical { s with grid := Mem.writeAll (gridBackground s) us s.grid } = true := by
  rw [canonical_iff] at h ⊢
  exact ⟨h.1, Mem.wf_writeAll _ us h.2.1, h.2.2⟩

theorem inRange_writeAll_grid {s : State} {us : List (Nat × Word64)} (hus : ∀ u ∈ us, u.1 < Space.grid.elems)
    (h : s.inRange = true) : State.inRange { s with grid := Mem.writeAll (gridBackground s) us s.grid } = true := by
  rw [inRange_iff] at h ⊢
  exact ⟨h.1, Mem.below_writeAll _ h.2.1 hus, h.2.2⟩

theorem canonical_writeAll_pix {s : State} (k : PixBuf) (us : List (Nat × Byte)) (h : s.canonical = true) :
    (setPixMem k (Mem.writeAll (pixBackground s k) us (pixMem s k)) s).canonical = true := by
  rw [canonical_iff] at h ⊢
  refine ⟨?_, ?_, fun j => ?_⟩
  · cases k <;> exact h.1
  · cases k <;> exact h.2.1
  · rw [pixMem_setPixMem, pixBackground_setPixMem]
    split
    · rename_i hj
      subst hj
      exact Mem.wf_writeAll _ us (h.2.2 j)
    · exact h.2.2 j

theorem inRange_writeAll_pix {s : State} (k : PixBuf) {us : List (Nat × Byte)}
    (hus : ∀ u ∈ us, u.1 < (pixSpace k).elems) (h : s.inRange = true) :
    (setPixMem k (Mem.writeAll (pixBackground s k) us (pixMem s k)) s).inRange = true := by
  rw [inRange_iff] at h ⊢
  refine ⟨?_, ?_, fun j => ?_⟩
  · cases k <;> exact h.1
  · cases k <;> exact h.2.1
  · rw [pixMem_setPixMem]
    split
    · rename_i hj
      subst hj
      exact Mem.below_writeAll _ (h.2.2 j) hus
    · exact h.2.2 j

/-! ### The region writes of the commands -/

theorem canonical_writeVec {s : State} (n : Nat) (y : Samples) (h : s.canonical = true) :
    (writeVec n y s).canonical = true := canonical_writeAll_vec _ h

theorem inRange_writeVec {s : State} {n : Nat} (y : Samples) (hn : n ≤ Config.nmax) (h : s.inRange = true) :
    (writeVec n y s).inRange = true := by
  refine inRange_writeAll_vec (fun u hu => ?_) h
  obtain ⟨i, hi, rfl | rfl⟩ := mem_vecUpdates.mp hu <;> exact vecIndex_lt _ (lt_of_lt_of_le hi hn)

theorem canonical_writeGrid {s : State} (n : Nat) (a : SampleGrid) (h : s.canonical = true) :
    (writeGrid n a s).canonical = true := canonical_writeAll_grid _ h

theorem inRange_writeGrid {s : State} {n : Nat} (a : SampleGrid) (hn : n ≤ Config.nmax) (h : s.inRange = true) :
    (writeGrid n a s).inRange = true := by
  refine inRange_writeAll_grid (fun u hu => ?_) h
  obtain ⟨i, hi, j, hj, rfl | rfl⟩ := mem_gridUpdates.mp hu <;>
    exact gridIndex_lt _ (lt_of_lt_of_le hi hn) (lt_of_lt_of_le hj hn)

theorem canonical_writePixels {s : State} (k : PixBuf) (n : Nat) (q : Nat → Nat → Pixel) (h : s.canonical = true) :
    (writePixels k n q s).canonical = true := canonical_writeAll_pix k _ h

theorem inRange_writePixels {s : State} (k : PixBuf) {n : Nat} (q : Nat → Nat → Pixel) (hn : n ≤ Config.nmax)
    (h : s.inRange = true) : (writePixels k n q s).inRange = true := by
  refine inRange_writeAll_pix k (fun u hu => ?_) h
  obtain ⟨y, hy, x, hx, rfl | rfl | rfl | rfl⟩ := mem_pixUpdates.mp hu <;>
    exact pixIndex_lt _ k (lt_of_lt_of_le hx hn) (lt_of_lt_of_le hy hn)

/-- The writes of an accepted command keep storage canonical and inside its spaces. -/
theorem CommandWrites.keeps {s s' : State} (h : CommandWrites s s') :
    (s.canonical = true → s'.canonical = true) ∧ (s.inRange = true → s'.inRange = true) := by
  rcases h with rfl | ⟨cd, v, rfl⟩ | ⟨n, y, hn, rfl⟩ | ⟨n, m, a, hn, rfl⟩ | ⟨k, n, q, hn, rfl⟩
  · exact ⟨id, id⟩
  · exact ⟨id, id⟩
  · exact ⟨canonical_writeVec n y, inRange_writeVec y hn⟩
  · exact ⟨canonical_writeGrid n a, inRange_writeGrid a hn⟩
  · rw [canonical_setPixDims, inRange_setPixDims]
    exact ⟨canonical_writePixels k n q, inRange_writePixels k q hn⟩

/-! ### Host writes -/

theorem canonical_portWrite {s : State} (sp : Space) (idx v : Nat) (h : s.canonical = true) :
    (portWrite sp idx v s).canonical = true := by
  cases sp with
  | reg => simp only [portWrite, regWrite]; split <;> exact h
  | creg => exact h
  | vec => exact canonical_writeAll_vec [(idx, BitVec.ofNat 64 v)] h
  | grid => exact canonical_writeAll_grid [(idx, BitVec.ofNat 64 v)] h
  | pix0 => exact canonical_writeAll_pix .p0 [(idx, BitVec.ofNat 8 v)] h
  | pix1 => exact canonical_writeAll_pix .p1 [(idx, BitVec.ofNat 8 v)] h

theorem inRange_portWrite {s : State} {sp : Space} {idx : Nat} (v : Nat) (hidx : idx < sp.elems)
    (h : s.inRange = true) : (portWrite sp idx v s).inRange = true := by
  cases sp with
  | reg => simp only [portWrite, regWrite]; split <;> exact h
  | creg => exact h
  | vec => exact inRange_writeAll_vec (us := [(idx, BitVec.ofNat 64 v)]) (by simpa using hidx) h
  | grid => exact inRange_writeAll_grid (us := [(idx, BitVec.ofNat 64 v)]) (by simpa using hidx) h
  | pix0 => exact inRange_writeAll_pix .p0 (us := [(idx, BitVec.ofNat 8 v)]) (by simpa [pixSpace] using hidx) h
  | pix1 => exact inRange_writeAll_pix .p1 (us := [(idx, BitVec.ofNat 8 v)]) (by simpa [pixSpace] using hidx) h

theorem status_portWrite (sp : Space) (idx v : Nat) (s : State) :
    (portWrite sp idx v s).lastErr = s.lastErr ∧ (portWrite sp idx v s).sticky = s.sticky := by
  cases sp with
  | reg => simp only [portWrite, regWrite]; split <;> exact ⟨rfl, rfl⟩
  | creg => exact ⟨rfl, rfl⟩
  | vec => exact ⟨rfl, rfl⟩
  | grid => exact ⟨rfl, rfl⟩
  | pix0 => exact ⟨rfl, rfl⟩
  | pix1 => exact ⟨rfl, rfl⟩

/-- The writes of an accepted command touch no status field, no count and no event. -/
theorem CommandWrites.other {s s' : State} (h : CommandWrites s s') :
    s'.sticky = s.sticky ∧ s'.lastErr = s.lastErr ∧ s'.resets = s.resets ∧ s'.inbox = s.inbox ∧
      s'.replies = s.replies ∧ s'.draws = s.draws := by
  rcases h with rfl | ⟨cd, v, rfl⟩ | ⟨n, y, hn, rfl⟩ | ⟨n, m, a, hn, rfl⟩ | ⟨k, n, q, hn, rfl⟩
  · exact ⟨rfl, rfl, rfl, rfl, rfl, rfl⟩
  · exact ⟨rfl, rfl, rfl, rfl, rfl, rfl⟩
  · exact ⟨rfl, rfl, rfl, rfl, rfl, rfl⟩
  · exact ⟨rfl, rfl, rfl, rfl, rfl, rfl⟩
  · cases k <;> exact ⟨rfl, rfl, rfl, rfl, rfl, rfl⟩

/-! ### One event -/

/-- Everything an event can do when it is an operation of the port (R222). -/
theorem event_cases {e : HostEvent} {s t : State} (h : event e s = .next t) : e.wellFormed = true ∧
    ((∃ sp idx n, e = .memRead sp idx n ∧ t = giveReply (portRead s sp idx) s) ∨
      (∃ v, e = .memWrite .reg 1 4 v ∧ v < 2 ^ 32 ∧ execute (BitVec.ofNat 32 v) s = .next t) ∨
      (∃ sp idx n v, e = .memWrite sp idx n v ∧ ¬ (sp = .reg ∧ idx = 1) ∧ idx < sp.elems ∧ t = portWrite sp idx v s) ∨
      (e = .reset ∧ t = platformReset s)) := by
  simp only [event] at h
  split at h
  · cases h
  · split at h
    · cases h
    · split at h
      · cases h
      · rename_i h1 h2 h3
        simp only [Bool.not_eq_true', Bool.not_eq_false] at h1 h2 h3
        refine ⟨by simp [HostEvent.wellFormed, h1, h2, h3], ?_⟩
        cases e with
        | memRead sp idx n =>
          injection h with h
          exact .inl ⟨sp, idx, n, rfl, h.symm⟩
        | memWrite sp idx n v =>
          simp only [portEvent] at h
          simp only [HostEvent.sizeOk, beq_iff_eq] at h1
          simp only [HostEvent.indexOk, decide_eq_true_eq] at h2
          simp only [HostEvent.valueOk, decide_eq_true_eq] at h3
          split at h
          · rename_i hc
            obtain ⟨rfl, rfl⟩ := hc
            subst h1
            exact .inr (.inl ⟨v, rfl, h3, h⟩)
          · rename_i hc
            injection h with h
            exact .inr (.inr (.inl ⟨sp, idx, n, v, rfl, hc, h2, h.symm⟩))
        | reset =>
          injection h with h
          exact .inr (.inr (.inr ⟨rfl, h.symm⟩))

/-- Everything the execution of a word can do (R221). -/
theorem execute_cases {w : Word32} {s t : State} (h : execute w s = .next t) :
    (∃ e, t = reject e s) ∨ ∃ s', CommandWrites s s' ∧ t = accept s' := by
  unfold execute at h
  split at h
  · injection h with h
    exact .inl ⟨_, h.symm⟩
  · exact exec_cases h

/-- A port operation always answers a next state (R269). -/
theorem event_isNext {e : HostEvent} (s : State) (h : e.wellFormed = true) : ∃ t, event e s = .next t := by
  simp only [HostEvent.wellFormed, Bool.and_eq_true] at h
  simp only [event, h.1.1, h.1.2, h.2, Bool.not_true, Bool.false_eq_true, if_false]
  cases e with
  | memRead sp idx n => exact ⟨_, rfl⟩
  | memWrite sp idx n v =>
    simp only [portEvent]
    split
    · exact execute_isNext _ s
    · exact ⟨_, rfl⟩
  | reset => exact ⟨_, rfl⟩

/-- Every error code of a rejection is one of 1 to 5 (R231). -/
theorem code_bounds (e : ErrCode) : 1 ≤ e.code.toNat ∧ e.code.toNat ≤ 5 ∧ e.code ≠ 0 := by cases e <;> decide

end Sys2Proof.Machine
end

