-- ==== Sys2Proof/Laws/Order.lean ====
section
/-! SUPPORT. The comparisons order the values (R120), and rounding keeps the order (R101). -/

namespace Sys2Proof.Machine

/-- The order key of a finite value orders the values (R120). -/
theorem ordKey_le_iff {a b : Word64} (ha : isFinite a = true) (hb : isFinite b = true) :
    ordKey a ≤ ordKey b ↔ (f64 a : ℝ) ≤ f64 b := by
  rw [f64_eq ha, f64_eq hb, ordKey, ordKey]
  have hm : ∀ m n : Nat, magVal m ≤ magVal n ↔ m ≤ n := fun m n => magVal_strictMono.le_iff_le
  have h0 := magVal_nonneg (magBits a)
  have h0' := magVal_nonneg (magBits b)
  have z : ∀ n, magVal n ≤ 0 ↔ n = 0 := fun n => by rw [← magVal_zero, hm]; omega
  cases a.msb <;> cases b.msb <;> simp only [signed, signFactor, if_true, Bool.false_eq_true, if_false]
  · rw [one_mul, one_mul, hm]; omega
  · have := z (magBits a)
    have := z (magBits b)
    constructor
    · intro h
      have h1 : magBits a = 0 := by omega
      have h2 : magBits b = 0 := by omega
      rw [h1, h2]; simp
    · intro h
      have h1 : magVal (magBits a) ≤ 0 := by linarith
      have h2 : magVal (magBits b) ≤ 0 := by linarith
      rw [z] at h1 h2
      omega
  · constructor
    · intro; linarith
    · intro; omega
  · rw [neg_one_mul, neg_one_mul, neg_le_neg_iff, neg_le_neg_iff, hm]; omega

theorem ordKey_lt_iff {a b : Word64} (ha : isFinite a = true) (hb : isFinite b = true) :
    ordKey a < ordKey b ↔ (f64 a : ℝ) < f64 b := by
  rw [← not_le, ordKey_le_iff hb ha, not_le]

theorem fle_iff (a b : Word64) : fle a b = true ↔ isNaN a = false ∧ isNaN b = false ∧ ordKey a ≤ ordKey b := by
  simp [fle, and_assoc]

theorem fge_iff (a b : Word64) : fge a b = true ↔ isNaN a = false ∧ isNaN b = false ∧ ordKey b ≤ ordKey a := by
  simp [fge, and_assoc]

theorem fgt_iff (a b : Word64) : fgt a b = true ↔ isNaN a = false ∧ isNaN b = false ∧ ordKey b < ordKey a := by
  simp [fgt, and_assoc]

theorem fle_refl {a : Word64} (h : isNaN a = false) : fle a a = true := by simp [fle_iff, h]

theorem fle_trans {a b c : Word64} (h1 : fle a b = true) (h2 : fle b c = true) : fle a c = true := by
  rw [fle_iff] at *
  exact ⟨h1.1, h2.2.1, h1.2.2.trans h2.2.2⟩

/-- Every key below that of the infinity is the key of a finite value. -/
theorem exists_ordKey {k : ℤ} (h : k.natAbs < infMag) : ∃ c, isFinite c = true ∧ ordKey c = k := by
  have h63 := infMag_lt
  refine ⟨withSign (decide (k < 0)) k.natAbs, ?_, ?_⟩
  · rw [isFinite_iff, magBits_withSign (by omega)]; exact h
  · rw [ordKey, msb_withSign (by omega), magBits_withSign (by omega), signed]
    by_cases hk : k < 0
    · simp only [hk, decide_true, if_true]; omega
    · simp only [hk, decide_false, Bool.false_eq_true, if_false]; omega

theorem ordKey_bounds {a : Word64} (h : isNaN a = false) : -(infMag : ℤ) ≤ ordKey a ∧ ordKey a ≤ infMag := by
  have := (isNaN_eq_false_iff a).mp h
  unfold ordKey signed
  split <;> omega

/-- Two finite values that are both the nearest to one number are equal. -/
theorem nearest_unique {x : ℝ} {r s : Word64} (hr : CorrectlyRounded x r) (hs : CorrectlyRounded x s)
    (hx : |x| < (overflowBound : ℝ)) : ordKey r = ordKey s := by
  obtain ⟨fr, br⟩ := hr.2.2 hx
  obtain ⟨fs, bs⟩ := hs.2.2 hx
  have key : ∀ r s : Word64, isFinite r = true → isFinite s = true →
      (∀ c, isFinite c = true → |(f64 r : ℝ) - x| ≤ |(f64 c : ℝ) - x| ∧
        (|(f64 r : ℝ) - x| = |(f64 c : ℝ) - x| → f64 c ≠ f64 r → r.getLsbD 0 = false)) →
      (∀ c, isFinite c = true → |(f64 s : ℝ) - x| ≤ |(f64 c : ℝ) - x| ∧
        (|(f64 s : ℝ) - x| = |(f64 c : ℝ) - x| → f64 c ≠ f64 s → s.getLsbD 0 = false)) →
      ¬ ordKey s < ordKey r := by
    intro r s fr fs br bs hlt
    have hv := (ordKey_lt_iff fs fr).mp hlt
    have heq : |(f64 r : ℝ) - x| = |(f64 s : ℝ) - x| := le_antisymm (br s fs).1 (bs r fr).1
    have hne : f64 s ≠ f64 r := by intro h; rw [h] at hv; exact lt_irrefl _ hv
    have pr := (br s fs).2 heq hne
    have ps := (bs r fr).2 heq.symm hne.symm
    rw [getLsbD_zero_eq] at pr ps
    simp only [decide_eq_false_iff_not] at pr ps
    have hmid : (f64 r : ℝ) - x = -((f64 s : ℝ) - x) := by
      rcases abs_eq_abs.mp heq with h | h
      · exfalso; linarith
      · exact h
    by_cases hadj : ordKey r = ordKey s + 1
    · have kr : ordKey r = magBits r ∨ ordKey r = -(magBits r : ℤ) := by unfold ordKey signed; split <;> simp
      have ks : ordKey s = magBits s ∨ ordKey s = -(magBits s : ℤ) := by unfold ordKey signed; split <;> simp
      omega
    · have b1 := ordKey_bounds (isFinite_not_isNaN fr)
      have b2 := ordKey_bounds (isFinite_not_isNaN fs)
      obtain ⟨c, fc, hc⟩ := exists_ordKey (k := ordKey s + 1) (by omega)
      have h1 := (ordKey_lt_iff fs fc).mp (by omega)
      have h2 := (ordKey_lt_iff fc fr).mp (by omega)
      have := (br c fc).1
      have hpos : 0 < (f64 r : ℝ) - x := by linarith
      rw [abs_of_pos hpos] at this
      have : |(f64 c : ℝ) - x| < (f64 r : ℝ) - x := by rw [abs_lt]; constructor <;> linarith
      linarith
  have h1 := key r s fr fs br bs
  have h2 := key s r fs fr bs br
  omega

theorem CorrectlyRounded.isNaN_eq {x : ℝ} {r : Word64} (h : CorrectlyRounded x r) : isNaN r = false := by
  by_cases h1 : (overflowBound : ℝ) ≤ x
  · rw [h.1 h1]; decide
  · by_cases h2 : x ≤ -(overflowBound : ℝ)
    · rw [h.2.1 h2]; decide
    · exact isFinite_not_isNaN (h.2.2 (by rw [abs_lt]; constructor <;> linarith)).1

/-- Rounding keeps the order. -/
theorem CorrectlyRounded.mono {x y : ℝ} {r s : Word64} (hr : CorrectlyRounded x r) (hs : CorrectlyRounded y s)
    (hxy : x ≤ y) : fle r s = true := by
  rw [fle_iff]
  refine ⟨hr.isNaN_eq, hs.isNaN_eq, ?_⟩
  have b1 := ordKey_bounds hr.isNaN_eq
  have b2 := ordKey_bounds hs.isNaN_eq
  have kp : ordKey (0x7FF0000000000000 : Word64) = infMag := by decide
  have kn : ordKey (0xFFF0000000000000 : Word64) = -(infMag : ℤ) := by decide
  have hB := overflowBound_pos
  by_cases hy1 : (overflowBound : ℝ) ≤ y
  · rw [hs.1 hy1, kp]; exact b1.2
  by_cases hx1 : x ≤ -(overflowBound : ℝ)
  · rw [hr.2.1 hx1, kn]; exact b2.1
  have hxa : |x| < (overflowBound : ℝ) := by rw [abs_lt]; constructor <;> linarith
  have hya : |y| < (overflowBound : ℝ) := by rw [abs_lt]; constructor <;> linarith
  obtain ⟨fr, br⟩ := hr.2.2 hxa
  obtain ⟨fs, bs⟩ := hs.2.2 hya
  by_contra hlt
  have hv := (ordKey_lt_iff fs fr).mp (not_le.mp hlt)
  have h1 := (br s fs).1
  have h2 := (bs r fr).1
  have hx : (f64 r : ℝ) + f64 s ≤ 2 * x := by
    by_contra hc
    have : |(f64 s : ℝ) - x| < |(f64 r : ℝ) - x| := by
      rw [abs_lt]
      have : (f64 r : ℝ) - x ≤ |(f64 r : ℝ) - x| := le_abs_self _
      constructor <;> linarith
    linarith
  have hy : 2 * y ≤ (f64 r : ℝ) + f64 s := by
    by_contra hc
    have : |(f64 r : ℝ) - y| < |(f64 s : ℝ) - y| := by
      rw [abs_lt]
      have : -((f64 s : ℝ) - y) ≤ |(f64 s : ℝ) - y| := neg_le_abs _
      constructor <;> linarith
    linarith
  obtain rfl : x = y := by linarith
  have := nearest_unique hr hs hxa
  omega

theorem fle_finite {a b : Word64} (ha : isFinite a = true) (hb : isFinite b = true) :
    fle a b = true ↔ (f64 a : ℝ) ≤ f64 b := by
  rw [fle_iff, ordKey_le_iff ha hb]
  simp [isFinite_not_isNaN ha, isFinite_not_isNaN hb]

/-- A finite value is its own rounding. -/
theorem correctlyRounded_self {c : Word64} (hc : isFinite c = true) : CorrectlyRounded (f64 c : ℝ) c := by
  have hb := abs_lt.mp (f64_abs_lt hc)
  refine ⟨fun h => by linarith, fun h => by linarith, fun _ => ⟨hc, fun d hd => ⟨by simp, fun heq hne => ?_⟩⟩⟩
  exfalso
  rw [sub_self, abs_zero] at heq
  have : (f64 d : ℝ) = f64 c := by have := abs_eq_zero.mp heq.symm; linarith
  exact hne (by exact_mod_cast this)

/-- A correctly rounded result is at least every representable lower bound and at most every representable upper one. -/
theorem CorrectlyRounded.ge {x : ℝ} {r c : Word64} (h : CorrectlyRounded x r) (hc : isFinite c = true)
    (hx : (f64 c : ℝ) ≤ x) : fle c r = true := by
  exact (correctlyRounded_self hc).mono h hx

theorem CorrectlyRounded.le {x : ℝ} {r c : Word64} (h : CorrectlyRounded x r) (hc : isFinite c = true)
    (hx : x ≤ (f64 c : ℝ)) : fle r c = true := h.mono (correctlyRounded_self hc) hx

end Sys2Proof.Machine
end

