-- ==== Sys2Proof/Laws/Logarithm.lean ====
section
/-! SUPPORT. Outward rounding is monotone and brackets its argument, and so is the logarithm's pick among the bracketed
values, whatever the free cuts are (R110 item 4, R111 items 4 and 5). -/

namespace Sys2Proof.Machine

theorem log10Walk_bounds (off : Word64 → Int) (x : Nat) : ∀ fuel v, v ≤ log10Walk off x fuel v ∧ log10Walk off x fuel v ≤ v + fuel
  | 0, v => by simp [log10Walk]
  | fuel + 1, v => by
    simp only [log10Walk]
    split
    · have := log10Walk_bounds off x fuel (v + 1)
      omega
    · omega

theorem log10Walk_passed (off : Word64 → Int) (x : Nat) : ∀ fuel v u, v ≤ u → u < log10Walk off x fuel v → log10Cut off u ≤ x
  | 0, v, u, h1, h2 => by simp [log10Walk] at h2; omega
  | fuel + 1, v, u, h1, h2 => by
    simp only [log10Walk] at h2
    split at h2
    · rename_i h
      by_cases hu : u = v
      · rw [hu]; exact h
      · exact log10Walk_passed off x fuel (v + 1) u (by omega) h2
    · omega

theorem log10Walk_reaches (off : Word64 → Int) (x : Nat) : ∀ fuel v w, w ≤ v + fuel → (∀ u, v ≤ u → u < w → log10Cut off u ≤ x) →
    w ≤ log10Walk off x fuel v
  | 0, v, w, h1, h2 => by simpa [log10Walk] using h1
  | fuel + 1, v, w, h1, h2 => by
    simp only [log10Walk]
    by_cases hw : w ≤ v
    · split
      · have := log10Walk_bounds off x fuel (v + 1); omega
      · exact hw
    · rw [if_pos (h2 v le_rfl (by omega))]
      exact log10Walk_reaches off x fuel (v + 1) w (by omega) (fun u hu => h2 u (by omega))

/-- A larger enclosure picks a result at least as large, whatever the cuts are (R111 item 5). -/
theorem faithfulLog_mono (off : Word64 → Int) {a b : Enclosure}
    (hlo : roundMag .down a.lo a.exp ≤ roundMag .down b.lo b.exp)
    (hhi : roundMag .up a.hi a.exp ≤ roundMag .up b.hi b.exp) (hmid : a.mid ≤ b.mid) :
    faithfulLog off a ≤ faithfulLog off b := by
  simp only [faithfulLog]
  have h1 := log10Walk_bounds off a.mid (roundMag .up a.hi a.exp - roundMag .down a.lo a.exp) (roundMag .down a.lo a.exp)
  have h2 := log10Walk_bounds off b.mid (roundMag .up b.hi b.exp - roundMag .down b.lo b.exp) (roundMag .down b.lo b.exp)
  by_cases h : log10Walk off a.mid (roundMag .up a.hi a.exp - roundMag .down a.lo a.exp) (roundMag .down a.lo a.exp) ≤ roundMag .down b.lo b.exp
  · omega
  · refine log10Walk_reaches _ _ _ _ _ (by omega) fun u hu1 hu2 => ?_
    have := log10Walk_passed off a.mid _ _ u (by omega) hu2
    omega

theorem shiftTo_mono (up : Bool) {x y : Nat} (d : Nat) (h : x ≤ y) : shiftTo up x d ≤ shiftTo up y d := by
  cases up <;> simp only [shiftTo, if_true, Bool.false_eq_true, if_false] <;> apply Nat.div_le_div_right <;> omega

theorem log2Digits_bounds (up : Bool) : ∀ n y acc, acc * 2 ^ n ≤ log2Digits up n y acc ∧ log2Digits up n y acc < (acc + 1) * 2 ^ n
  | 0, y, acc => by simp [log2Digits]
  | n + 1, y, acc => by
    simp only [log2Digits]
    split
    · have := log2Digits_bounds up n (shiftTo up (shiftTo up (y * y) logPrecision) 1) (2 * acc + 1)
      rw [Nat.pow_succ]
      constructor <;> nlinarith [this.1, this.2, Nat.two_pow_pos n]
    · have := log2Digits_bounds up n (shiftTo up (y * y) logPrecision) (2 * acc)
      rw [Nat.pow_succ]
      constructor <;> nlinarith [this.1, this.2, Nat.two_pow_pos n]

theorem log2Digits_mono (up : Bool) : ∀ n {y z : Nat} (acc : Nat), y ≤ z → log2Digits up n y acc ≤ log2Digits up n z acc
  | 0, _, _, _, _ => le_rfl
  | n + 1, y, z, acc, h => by
    have hs := shiftTo_mono up logPrecision (Nat.mul_le_mul h h)
    simp only [log2Digits]
    split
    · rename_i h1
      rw [if_pos (h1.trans hs)]
      exact log2Digits_mono up n _ (shiftTo_mono up 1 hs)
    · split
      · have b1 := log2Digits_bounds up n (shiftTo up (y * y) logPrecision) (2 * acc)
        have b2 := log2Digits_bounds up n (shiftTo up (shiftTo up (z * z) logPrecision) 1) (2 * acc + 1)
        omega
      · exact log2Digits_mono up n _ hs

theorem floorLog10_mono : ∀ fuel {m n : Nat}, m ≤ n → floorLog10 fuel m ≤ floorLog10 fuel n
  | 0, _, _, _ => le_rfl
  | fuel + 1, m, n, h => by
    simp only [floorLog10]
    split
    · rw [if_pos (by omega)]
      have := floorLog10_mono fuel (Nat.div_le_div_right (c := 10) h)
      omega
    · omega

/-- Rounding down gives the greatest magnitude that is not above the value (R110 item 4). -/
theorem roundMag_down_spec (m : Nat) (e : ℤ) : ∃ D, roundMag .down m e = min D infMag ∧ magVal D ≤ m * 2 ^ e ∧
    ∀ V, magVal V ≤ m * 2 ^ e → V ≤ D := by
  by_cases hm : m = 0
  · refine ⟨0, by simp [hm], by simp [hm], fun V hV => ?_⟩
    rw [hm, Nat.cast_zero, zero_mul, ← magVal_zero, magVal_strictMono.le_iff_le] at hV
    exact hV
  · refine ⟨floorMag m e, roundMag_down hm e, ?_, fun V hV => ?_⟩
    · rw [magVal_floorMag hm]; exact placeFloor_le m e
    · have h := lt_placeFloor m e
      rw [← magVal_floorMag_succ hm] at h
      have := magVal_strictMono.lt_iff_lt.mp (lt_of_le_of_lt hV h)
      omega

/-- Rounding up gives the least magnitude that is not below the value (R110 item 4). -/
theorem roundMag_up_spec (m : Nat) (e : ℤ) : ∃ U, roundMag .up m e = min U infMag ∧ m * 2 ^ e ≤ magVal U ∧
    ∀ V, m * 2 ^ e ≤ magVal V → U ≤ V := by
  by_cases hm : m = 0
  · exact ⟨0, by rw [hm, roundMag, if_pos rfl, Nat.zero_min], by rw [hm, magVal_zero, Nat.cast_zero, zero_mul], fun V _ => Nat.zero_le _⟩
  have hle := placeFloor_le m e
  have hlt := lt_placeFloor m e
  rw [← magVal_floorMag hm] at hle
  rw [← magVal_floorMag_succ hm] at hlt
  rw [roundMag_eq hm]
  have exact0 : (placeFloor m e : ℝ) * 2 ^ ulpExp m e = m * 2 ^ e → ∃ U, min (floorMag m e + 0) infMag = min U infMag ∧
      m * 2 ^ e ≤ magVal U ∧ ∀ V, m * 2 ^ e ≤ magVal V → U ≤ V := by
    intro h
    rw [← magVal_floorMag hm] at h
    refine ⟨floorMag m e, by rw [Nat.add_zero], h.ge, fun V hV => ?_⟩
    rwa [← h, magVal_strictMono.le_iff_le] at hV
  split
  · rename_i h
    apply exact0
    rw [placeFloor, if_pos h, zpow_split (d := (e - ulpExp m e).toNat) (e := ulpExp m e) (q := e) (by omega)]
    push_cast
    ring
  · rename_i h
    have hd : 0 < 2 ^ (ulpExp m e - e).toNat := Nat.two_pow_pos _
    have hdm := Nat.div_add_mod m (2 ^ (ulpExp m e - e).toNat)
    have hmod := Nat.mod_lt m hd
    generalize hD : 2 ^ (ulpExp m e - e).toNat = D at *
    simp only [roundShift, hD]
    by_cases h0 : m % D = 0
    · have h1 : (m + (D - 1)) / D = m / D := by
        rw [Nat.div_eq_iff hd]
        have := Nat.mul_comm D (m / D)
        omega
      rw [h1, Nat.sub_self]
      apply exact0
      rw [placeFloor, if_neg h, hD, zpow_split (d := (ulpExp m e - e).toNat) (e := e) (q := ulpExp m e) (by omega), ← mul_assoc]
      congr 1
      have h3 : m / D * D = m := by rw [Nat.mul_comm]; omega
      rw [← hD] at h3 ⊢
      exact_mod_cast h3
    · have h1 : (m + (D - 1)) / D = m / D + 1 := by
        rw [Nat.div_eq_iff hd]
        have := Nat.mul_comm D (m / D)
        have : (m / D + 1) * D = m / D * D + D := by ring
        omega
      rw [h1, Nat.add_sub_cancel_left]
      refine ⟨floorMag m e + 1, rfl, hlt.le, fun V hV => ?_⟩
      have hne : (placeFloor m e : ℝ) * 2 ^ ulpExp m e < m * 2 ^ e := by
        rw [placeFloor, if_neg h, hD, zpow_split (d := (ulpExp m e - e).toNat) (e := e) (q := ulpExp m e) (by omega), ← mul_assoc]
        apply mul_lt_mul_of_pos_right _ (two_zpow_pos e)
        have h3 : m / D * D < m := by rw [Nat.mul_comm]; omega
        rw [← hD] at h3 ⊢
        exact_mod_cast h3
      rw [← magVal_floorMag hm] at hne
      have := magVal_strictMono.lt_iff_lt.mp (lt_of_lt_of_le hne hV)
      omega

theorem roundMag_down_mono {m n : Nat} {e f : ℤ} (h : (m : ℝ) * 2 ^ e ≤ n * 2 ^ f) :
    roundMag .down m e ≤ roundMag .down n f := by
  obtain ⟨D, h1, h2, -⟩ := roundMag_down_spec m e
  obtain ⟨D', h1', -, h3'⟩ := roundMag_down_spec n f
  have := h3' D (h2.trans h)
  omega

theorem roundMag_up_mono {m n : Nat} {e f : ℤ} (h : (m : ℝ) * 2 ^ e ≤ n * 2 ^ f) :
    roundMag .up m e ≤ roundMag .up n f := by
  obtain ⟨D, h1, -, h3⟩ := roundMag_up_spec m e
  obtain ⟨D', h1', h2', -⟩ := roundMag_up_spec n f
  have := h3 D' (h.trans h2')
  omega

theorem log2FracLo_lt (m : Nat) : log2FracLo m < 2 ^ logDigits := by
  have := (log2Digits_bounds false logDigits (m * 2 ^ (logPrecision - m.log2)) 0).2
  simpa [log2FracLo] using this

theorem log2FracHi_le (m : Nat) : log2FracHi m ≤ 2 ^ logDigits := by
  have := (log2Digits_bounds true logDigits (m * 2 ^ (logPrecision - m.log2)) 0).2
  rw [log2FracHi]
  omega

theorem toLog10Lo_mono {a b : Nat} (h : a ≤ b) : toLog10Lo a ≤ toLog10Lo b :=
  Nat.div_le_div_right (Nat.mul_le_mul_right _ h)

theorem toLog10Hi_mono {a b : Nat} (h : a ≤ b) : toLog10Hi a ≤ toLog10Hi b :=
  Nat.div_le_div_right (Nat.add_le_add_right (Nat.mul_le_mul_right _ h) _)

theorem isPow10_iff (m : Nat) (e : ℤ) (d : Nat) : isPow10 m e d = true ↔ (m : ℝ) * 2 ^ e = 10 ^ d := by
  rw [isPow10, Bool.and_eq_true, beq_iff_eq]
  constructor
  · rintro ⟨h1, h2⟩
    rw [← (intPart_bounds m e).2.2 h1, h2]
    push_cast
    rfl
  · intro h
    by_cases he : 0 ≤ e
    · refine ⟨by simp [isIntegral, he], ?_⟩
      rw [← (intPart_bounds m e).2.2 (by simp [isIntegral, he])] at h
      exact_mod_cast h
    · have h1 : m = 10 ^ d * 2 ^ (-e).toNat := by
        have h2 : (2 : ℝ) ^ (0 : ℤ) = 2 ^ (-e).toNat * 2 ^ e := zpow_split (by omega)
        have h3 : (m : ℝ) = (10 ^ d * 2 ^ (-e).toNat : ℕ) := by
          push_cast
          rw [← h, mul_assoc, mul_comm ((2 : ℝ) ^ e), ← h2, zpow_zero, mul_one]
        exact_mod_cast h3
      have hi : isIntegral m e = true := by simp [isIntegral, h1]
      refine ⟨hi, ?_⟩
      rw [← (intPart_bounds m e).2.2 hi] at h
      exact_mod_cast h

/-- Two normal values in order: the last places, or at one last place the significands. -/
theorem encloseLog10_mono {m n : Nat} {e f : ℤ} (hm : 2 ^ 52 ≤ m ∧ m < 2 ^ 53) (hn : 2 ^ 52 ≤ n ∧ n < 2 ^ 53)
    (h0 : 0 ≤ 52 + e) (hi1 : 1 ≤ intPart m e) (hbig : intPart m e < 10 ^ (309 + 1)) (h : e < f ∨ e = f ∧ m ≤ n) :
    (encloseLog10 m e).lo ≤ (encloseLog10 n f).lo ∧ (encloseLog10 m e).hi ≤ (encloseLog10 n f).hi := by
  have lm : m.log2 = 52 := (Nat.log2_eq_iff (by omega)).mpr ⟨hm.1, hm.2⟩
  have ln : n.log2 = 52 := (Nat.log2_eq_iff (by omega)).mpr ⟨hn.1, hn.2⟩
  have hval : (m : ℝ) * 2 ^ e ≤ n * 2 ^ f := by
    rcases h with h | ⟨rfl, h⟩
    · have h1 : (m : ℝ) * 2 ^ e < 2 ^ (53 + e) := by
        rw [zpow_add₀ (by norm_num)]
        apply mul_lt_mul_of_pos_right _ (two_zpow_pos e)
        exact_mod_cast hm.2
      have h2 : (2 : ℝ) ^ (52 + f) ≤ n * 2 ^ f := by
        rw [zpow_add₀ (by norm_num)]
        apply mul_le_mul_of_nonneg_right _ (two_zpow_pos f).le
        exact_mod_cast hn.1
      have h3 : (2 : ℝ) ^ (53 + e) ≤ 2 ^ (52 + f) := zpow_le_zpow_right₀ (by norm_num) (by omega)
      linarith
    · exact mul_le_mul_of_nonneg_right (by exact_mod_cast h) (two_zpow_pos e).le
  have hint : intPart m e ≤ intPart n f := by
    have b1 := intPart_bounds m e
    have b2 := intPart_bounds n f
    have : (intPart m e : ℝ) < intPart n f + 1 := by linarith [b1.1, b2.2.1]
    have : intPart m e < intPart n f + 1 := by exact_mod_cast this
    omega
  have hd := floorLog10_mono 309 hint
  have hfrac : ∀ up : Bool, e = f → m ≤ n →
      log2Digits up logDigits (m * 2 ^ (logPrecision - m.log2)) 0 ≤ log2Digits up logDigits (n * 2 ^ (logPrecision - n.log2)) 0 := by
    intro up _ hmn
    rw [lm, ln]
    exact log2Digits_mono up _ _ (Nat.mul_le_mul_right _ hmn)
  have hE : ((52 : ℕ) + e : ℤ).toNat < ((52 : ℕ) + f : ℤ).toNat ∨ e = f ∧ m ≤ n := by
    rcases h with h | h
    · left; omega
    · exact .inr h
  have key : ∀ (E F : Nat), E < F → E * 2 ^ logDigits + 2 ^ logDigits ≤ F * 2 ^ logDigits := by
    intro E F hEF
    have := Nat.mul_le_mul_right (2 ^ logDigits) hEF
    rwa [Nat.succ_mul] at this
  have hlo : ((m.log2 : ℤ) + e).toNat * 2 ^ logDigits + log2FracLo m ≤ ((n.log2 : ℤ) + f).toNat * 2 ^ logDigits + log2FracLo n := by
    rw [lm, ln]
    rcases hE with h | ⟨h1, h2⟩
    · have := key _ _ h
      have := log2FracLo_lt m
      omega
    · have := hfrac false h1 h2
      rw [h1, log2FracLo, log2FracLo]
      omega
  have hhi : ((m.log2 : ℤ) + e).toNat * 2 ^ logDigits + log2FracHi m ≤ ((n.log2 : ℤ) + f).toNat * 2 ^ logDigits + log2FracHi n := by
    rw [lm, ln]
    rcases hE with h | ⟨h1, h2⟩
    · have := key _ _ h
      have := log2FracHi_le m
      omega
    · have := hfrac true h1 h2
      rw [h1, log2FracHi, log2FracHi]
      omega
  have hpow : isPow10 n f (floorLog10 309 (intPart n f)) = true → floorLog10 309 (intPart m e) = floorLog10 309 (intPart n f) →
      isPow10 m e (floorLog10 309 (intPart m e)) = true := by
    intro hp hdd
    rw [isPow10_iff] at hp ⊢
    rw [← hdd] at hp
    refine le_antisymm (hp ▸ hval) ?_
    refine le_trans ?_ (intPart_bounds m e).1
    exact_mod_cast (floorLog10_spec 309 (intPart m e) hi1 hbig).1
  have hc : (if isPow10 m e (floorLog10 309 (intPart m e)) = true then floorLog10 309 (intPart m e) else floorLog10 309 (intPart m e) + 1) ≤
      if isPow10 n f (floorLog10 309 (intPart n f)) = true then floorLog10 309 (intPart n f) else floorLog10 309 (intPart n f) + 1 := by
    by_cases hn1 : isPow10 n f (floorLog10 309 (intPart n f)) = true
    · rw [if_pos hn1]
      by_cases hdd : floorLog10 309 (intPart m e) = floorLog10 309 (intPart n f)
      · rw [if_pos (hpow hn1 hdd)]; exact hd
      · split <;> omega
    · rw [if_neg hn1]
      split <;> omega
  exact ⟨max_le_max (toLog10Lo_mono hlo) (Nat.mul_le_mul_right _ hd), min_le_min (toLog10Hi_mono hhi) (Nat.mul_le_mul_right _ hc)⟩

theorem roundMag_down_le_up {m n : Nat} {e f : ℤ} (h : (m : ℝ) * 2 ^ e ≤ n * 2 ^ f) :
    roundMag .down m e ≤ roundMag .up n f := by
  obtain ⟨D, h1, h2, -⟩ := roundMag_down_spec m e
  obtain ⟨D', h1', h2', -⟩ := roundMag_up_spec n f
  have := magVal_strictMono.le_iff_le.mp ((h2.trans h).trans h2')
  omega

theorem roundMag_up_one : roundMag .up 1 0 = 1023 * 2 ^ 52 := by decide +kernel

theorem faithfulMag_bounds (off : ℤ) {x : Enclosure} {v : ℝ} (h1 : (x.lo : ℝ) * 2 ^ x.exp ≤ v) (h2 : v ≤ x.hi * 2 ^ x.exp) :
    roundMag .down x.lo x.exp ≤ faithfulMag off x ∧ faithfulMag off x ≤ roundMag .up x.hi x.exp := by
  have := roundMag_down_le_up (h1.trans h2)
  unfold faithfulMag clampNat
  omega

theorem faithfulLog_bounds (off : Word64 → ℤ) {x : Enclosure} {v : ℝ} (h1 : (x.lo : ℝ) * 2 ^ x.exp ≤ v) (h2 : v ≤ x.hi * 2 ^ x.exp) :
    roundMag .down x.lo x.exp ≤ faithfulLog off x ∧ faithfulLog off x ≤ roundMag .up x.hi x.exp := by
  have := roundMag_down_le_up (h1.trans h2)
  simp only [faithfulLog]
  have := log10Walk_bounds off x.mid (roundMag .up x.hi x.exp - roundMag .down x.lo x.exp) (roundMag .down x.lo x.exp)
  omega

theorem hi_le_one_unit (v : ℤ) (err P : Nat) : ((encloseUnit v err P).hi : ℝ) * 2 ^ (encloseUnit v err P).exp ≤ (1:ℕ) * 2 ^ (0:ℤ) := by
  have h : (2 : ℝ) ^ (0 : ℤ) = 2 ^ P * 2 ^ (-(P:ℤ)) := zpow_split (by omega)
  simp only [encloseUnit]
  rw [h, Nat.cast_one, one_mul]
  apply mul_le_mul_of_nonneg_right _ (two_zpow_pos _).le
  exact_mod_cast Nat.min_le_right _ _

theorem encloseSin_hi (m : Nat) (e : ℤ) : ((encloseSin m e).2.hi : ℝ) * 2 ^ (encloseSin m e).2.exp ≤ (1:ℕ) * 2 ^ (0:ℤ) := by
  unfold encloseSin
  split
  · rename_i ht
    simp only [isTinyAngle, decide_eq_true_eq] at ht
    have h : (2 : ℝ) ^ e = 2 ^ (2 - 2 * e).toNat * 2 ^ (3 * e - 2) := zpow_split (by omega)
    simp only
    push_cast
    rw [mul_assoc, ← h, one_mul]
    refine (value_lt (m := m) e).le.trans ?_
    exact zpow_le_zpow_right₀ (by norm_num) (by omega)
  · exact hi_le_one_unit _ _ _

theorem encloseCos_hi (m : Nat) (e : ℤ) : ((encloseCos m e).2.hi : ℝ) * 2 ^ (encloseCos m e).2.exp ≤ (1:ℕ) * 2 ^ (0:ℤ) := by
  unfold encloseCos
  split
  · rename_i ht
    simp only [isTinyAngle, decide_eq_true_eq] at ht
    have h : (2 : ℝ) ^ (0:ℤ) = 2 ^ (1 - 2 * e).toNat * 2 ^ (2 * e - 1) := zpow_split (by omega)
    simp only
    push_cast
    rw [h, one_mul]
    
  · exact hi_le_one_unit _ _ _

theorem finite_withSign {s : Bool} {mag : Nat} (h : mag < infMag) : isFinite (withSign s mag) = true := by
  have := infMag_lt
  rw [isFinite_iff, magBits_withSign (by omega)]; exact h

theorem unit_withSign {s : Bool} {mag : Nat} (h : mag ≤ 1023 * 2 ^ 52) : isFinite (withSign s mag) = true ∧ |f64 (withSign s mag)| ≤ 1 := by
  have hi : mag < infMag := by rw [infMag_eq]; omega
  have h63 := infMag_lt
  have hf := finite_withSign (s := s) hi
  refine ⟨hf, ?_⟩
  have h1 := f64_abs hf
  rw [magBits_withSign (by omega)] at h1
  have h2 := magVal_strictMono.le_iff_le.mpr h
  have h3 : magVal (1023 * 2 ^ 52) = 1 := by rw [magVal]; norm_num
  have : |(f64 (withSign s mag) : ℝ)| ≤ 1 := by rw [h1, ← h3]; exact h2
  exact_mod_cast this

theorem one_le_iff {m : Nat} (hm : m ≠ 0) (e : ℤ) : (1 : ℝ) ≤ m * 2 ^ e ↔ 0 ≤ (m.log2 : ℤ) + e := by
  constructor
  · intro h
    by_contra hc
    have := value_lt (m := m) e
    have : (2 : ℝ) ^ ((m.log2 : ℤ) + 1 + e) ≤ 2 ^ (0:ℤ) := zpow_le_zpow_right₀ (by norm_num) (by omega)
    rw [zpow_zero] at this
    linarith
  · intro h
    refine le_trans ?_ (le_value hm e)
    rw [show (1 : ℝ) = 2 ^ (0 : ℤ) by simp]
    exact zpow_le_zpow_right₀ (by norm_num) h

theorem logs_small {m : Nat} (h : m < 2 ^ 53) (hm : m ≠ 0) : m.log2 ≤ logPrecision := by
  have : m.log2 < 53 := (Nat.log2_lt hm).mpr h
  unfold logPrecision; omega

theorem intPart_small {m : Nat} {e : ℤ} (h : (m : ℝ) * 2 ^ e < 2 ^ 1024) : intPart m e < 10 ^ (309 + 1) := by
  have h1 := (intPart_bounds m e).1
  have h2 : (intPart m e : ℝ) < 2 ^ 1024 := by linarith
  have h3 : intPart m e < 2 ^ 1024 := by exact_mod_cast h2
  have : 2 ^ 1024 < 10 ^ (309 + 1) := by decide +kernel
  omega

theorem faithfulMag_le (off : ℤ) (x : Enclosure) : faithfulMag off x ≤ infMag := by
  unfold faithfulMag clampNat
  have := roundMag_le .up x.hi x.exp
  omega

theorem flog10_fin (fp : Fpu) {a : Word64} {m : Nat} {e : ℤ} (hu : unpack a = .fin false m e) (hm : m ≠ 0) (hlog : 0 ≤ (m.log2 : ℤ) + e) :
    flog10 fp a = withSign false (faithfulLog fp.log10Cut (encloseLog10 m e)) := by
  simp [flog10, hu, hm, hlog]

theorem faithfulLog_le (off : Word64 → ℤ) (x : Enclosure) : faithfulLog off x ≤ infMag := by
  simp only [faithfulLog]
  have := log10Walk_bounds off x.mid (roundMag .up x.hi x.exp - roundMag .down x.lo x.exp) (roundMag .down x.lo x.exp)
  have := roundMag_le .up x.hi x.exp
  have := roundMag_le .down x.lo x.exp
  omega

theorem ge_one {a : Word64} (h : fle 0x3FF0000000000000 a = true) :
    a.msb = false ∧ 1023 * 2 ^ 52 ≤ magBits a ∧ magBits a ≤ infMag := by
  rw [fle_iff] at h
  have h1 : ordKey (0x3FF0000000000000 : Word64) = 1023 * 2 ^ 52 := by decide
  rw [h1, ordKey, signed] at h
  have h2 := (isNaN_eq_false_iff a).mp h.2.1
  cases hs : a.msb
  · simp only [hs, Bool.false_eq_true, if_false] at h
    refine ⟨rfl, by omega, h2⟩
  · simp only [hs, if_true] at h
    omega

theorem unpack_ge_one {a : Word64} (h : fle 0x3FF0000000000000 a = true) :
    (a = 0x7FF0000000000000) ∨ ∃ m e, unpack a = .fin false m e ∧ 2 ^ 52 ≤ m ∧ m < 2 ^ 53 ∧ 0 ≤ 52 + e ∧
      magBits a = (e + 1074).toNat * 2 ^ 52 + m ∧ (m : ℝ) * 2 ^ e < 2 ^ 1024 := by
  obtain ⟨h1, h2, h3⟩ := ge_one h
  by_cases hi : magBits a = infMag
  · left
    exact ext_mag (by rw [h1]; decide) (by rw [hi]; decide)
  · right
    have hf : isFinite a = true := by rw [isFinite_iff]; omega
    have hE := expField_eq a
    have hF := fracField_eq a
    rw [infMag_eq] at h3 hi
    have e1 : expField a ≠ 2047 := by omega
    have e2 : expField a ≠ 0 := by omega
    obtain ⟨m, e, hu, hv, -⟩ := unpack_fin hf
    rw [unpack, if_neg e1, if_neg e2, h1, Fp.fin.injEq] at hu
    refine ⟨2 ^ 52 + fracField a, (expField a : ℤ) - 1075, ?_, by omega, by omega, by omega, by omega, ?_⟩
    · rw [unpack, if_neg e1, if_neg e2, h1]
    · rw [hu.2.1, hu.2.2, hv, ← magVal_infMag]; exact magVal_strictMono ((isFinite_iff a).mp hf)

theorem ordKey_pos {m : Nat} (h : m ≤ infMag) : ordKey (withSign false m) = m := by
  have := infMag_lt
  rw [ordKey, msb_withSign (by omega), magBits_withSign (by omega)]; rfl

theorem unpack_pinf : unpack 0x7FF0000000000000 = .inf false := by decide

theorem flog10_pinf (fp : Fpu) : flog10 fp 0x7FF0000000000000 = 0x7FF0000000000000 := by
  rw [flog10, unpack_pinf]; simp only [Bool.false_eq_true, if_false]

theorem flog10_mono (fp : Fpu) (a b : Word64) (ha : fle 0x3FF0000000000000 a = true) (hab : fle a b = true) :
    fle (flog10 fp a) (flog10 fp b) = true := by
  have hb := fle_trans ha hab
  have hmag : magBits a ≤ magBits b := by
    rw [fle_iff, ordKey, ordKey, (ge_one ha).1, (ge_one hb).1] at hab
    simp only [signed, Bool.false_eq_true, if_false] at hab
    omega
  rcases unpack_ge_one ha with rfl | ⟨m, e, hu, hm1, hm2, he, hma, hv⟩
  · have : magBits (0x7FF0000000000000 : Word64) = infMag := by decide
    have hb2 : b = 0x7FF0000000000000 := by
      have := (ge_one hb).2.2
      exact ext_mag (by rw [(ge_one hb).1]; decide) (by omega)
    rw [hb2, flog10_pinf]
    exact fle_refl (by decide)
  have hm : m ≠ 0 := by omega
  have hlm : m.log2 = 52 := (Nat.log2_eq_iff (by omega)).mpr ⟨hm1, hm2⟩
  rw [flog10_fin fp hu hm (by omega), fle_iff]
  have l1 := faithfulLog_le fp.log10Cut (encloseLog10 m e)
  rw [ordKey_pos l1]
  refine ⟨isNaN_withSign l1, ?_⟩
  rcases unpack_ge_one hb with rfl | ⟨n, f, hu', hn1, hn2, hf, hna, hv'⟩
  · rw [flog10_pinf]
    refine ⟨by decide, ?_⟩
    rw [show ordKey (0x7FF0000000000000 : Word64) = infMag by decide]
    exact_mod_cast l1
  have hn : n ≠ 0 := by omega
  have hln : n.log2 = 52 := (Nat.log2_eq_iff (by omega)).mpr ⟨hn1, hn2⟩
  rw [flog10_fin fp hu' hn (by omega)]
  have l2 := faithfulLog_le fp.log10Cut (encloseLog10 n f)
  rw [ordKey_pos l2]
  refine ⟨isNaN_withSign l2, ?_⟩
  have hord : e < f ∨ e = f ∧ m ≤ n := by
    rcases lt_trichotomy e f with h | h | h
    · exact .inl h
    · exact .inr ⟨h, by subst h; omega⟩
    · exfalso
      have : (f + 1074).toNat + 1 ≤ (e + 1074).toNat := by omega
      have := Nat.mul_le_mul_right (2 ^ 52) this
      omega
  have hi1 : 1 ≤ intPart m e := by
    have h1 := (one_le_iff hm e).mpr (by omega)
    have := (intPart_bounds m e).2.1
    by_contra hc
    rw [show intPart m e = 0 by omega] at this
    push_cast at this
    linarith
  have henc := encloseLog10_mono ⟨hm1, hm2⟩ ⟨hn1, hn2⟩ he hi1 (intPart_small hv) hord
  have hexp : ∀ m e, (encloseLog10 m e).exp = -(logDigits : ℤ) := fun _ _ => rfl
  have hmid : ∀ m e, (encloseLog10 m e).mid = (encloseLog10 m e).lo := fun _ _ => rfl
  have key := faithfulLog_mono fp.log10Cut (a := encloseLog10 m e) (b := encloseLog10 n f)
    (roundMag_down_mono (by rw [hexp, hexp]; exact mul_le_mul_of_nonneg_right (by exact_mod_cast henc.1) (two_zpow_pos _).le))
    (roundMag_up_mono (by rw [hexp, hexp]; exact mul_le_mul_of_nonneg_right (by exact_mod_cast henc.2) (two_zpow_pos _).le))
    (by rw [hmid, hmid]; exact henc.1)
  exact_mod_cast key

end Sys2Proof.Machine
end

