-- ==== Sys2Proof/Laws/PerInstr.lean ====
section
/-! SUPPORT. The statements made once for each command (spec/30_encoding.md R89, R93). -/

namespace Sys2Proof.Laws.FixedBits

/-- The fixed bits of a command: the mask and the match of its row (R89). -/
def row : Instr → Word32 × Word32
  | .nop => (0xFFFFFFFF, 0x00000000)
  | .cadd _ _ _ => (0xFF000FFF, 0x10000000)
  | .csub _ _ _ => (0xFF000FFF, 0x11000000)
  | .cmul _ _ _ => (0xFF000FFF, 0x12000000)
  | .cconj _ _ => (0xFF00FFFF, 0x13000000)
  | .cmag _ _ => (0xFF00FFFF, 0x14000000)
  | .cpolar _ _ _ => (0xFF000FFF, 0x15000000)
  | .fft1d _ => (0xFFFFFFFE, 0x20000000)
  | .ifft1d => (0xFFFFFFFF, 0x21000000)
  | .gray _ => (0xFFFEFFFF, 0x30000000)
  | .pad _ _ => (0xFFEEFFFF, 0x31000000)
  | .fwd2d _ => (0xFFFEFFFF, 0x32000000)
  | .inv2d _ => (0xFFEFFFFF, 0x33000000)
  | .vis _ => (0xFFEFFFFF, 0x34000000)

/-- The word of the command has the fixed bits of its row and no other bit outside its operand fields (R89, R93). -/
def Statement (i : Instr) : Prop := encode i &&& (row i).1 = (row i).2

theorem nop : Statement .nop := by unfold Statement; decide

theorem regBits_low (r : CReg) (lo : Nat) (h : lo = 12 ∨ lo = 16 ∨ lo = 20) : regBits r lo &&& 0xFF000FFF = 0 := by
  rcases h with rfl | rfl | rfl <;> revert r <;> decide

theorem regBits_low2 (r : CReg) (lo : Nat) (h : lo = 16 ∨ lo = 20) : regBits r lo &&& 0xFF00FFFF = 0 := by
  rcases h with rfl | rfl <;> revert r <;> decide

theorem three (op : Word32) (cd ca cb : CReg) (h : op &&& 0xFF000FFF = op) :
    (op ||| regBits cd 20 ||| regBits ca 16 ||| regBits cb 12) &&& 0xFF000FFF = op := by
  simp only [BitVec.and_or_distrib_right, regBits_low _ _ (.inl rfl), regBits_low _ _ (.inr (.inl rfl)),
    regBits_low _ _ (.inr (.inr rfl)), h]
  simp

theorem two (op : Word32) (cd ca : CReg) (h : op &&& 0xFF00FFFF = op) :
    (op ||| regBits cd 20 ||| regBits ca 16) &&& 0xFF00FFFF = op := by
  simp only [BitVec.and_or_distrib_right, regBits_low2 _ _ (.inl rfl), regBits_low2 _ _ (.inr rfl), h]
  simp

theorem cadd (cd ca cb : CReg) : Statement (.cadd cd ca cb) := three _ cd ca cb (by decide)
theorem csub (cd ca cb : CReg) : Statement (.csub cd ca cb) := three _ cd ca cb (by decide)
theorem cmul (cd ca cb : CReg) : Statement (.cmul cd ca cb) := three _ cd ca cb (by decide)
theorem cconj (cd ca : CReg) : Statement (.cconj cd ca) := two _ cd ca (by decide)
theorem cmag (cd ca : CReg) : Statement (.cmag cd ca) := two _ cd ca (by decide)
theorem cpolar (cd ca cb : CReg) : Statement (.cpolar cd ca cb) := three _ cd ca cb (by decide)
theorem fft1d (ns : Bool) : Statement (.fft1d ns) := by cases ns <;> (unfold Statement; decide)
theorem ifft1d : Statement .ifft1d := by unfold Statement; decide
theorem gray (ps : PixBuf) : Statement (.gray ps) := by cases ps <;> (unfold Statement; decide)
theorem pad (pd ps : PixBuf) : Statement (.pad pd ps) := by cases pd <;> cases ps <;> (unfold Statement; decide)
theorem fwd2d (ps : PixBuf) : Statement (.fwd2d ps) := by cases ps <;> (unfold Statement; decide)
theorem inv2d (pd : PixBuf) : Statement (.inv2d pd) := by cases pd <;> (unfold Statement; decide)
theorem vis (pd : PixBuf) : Statement (.vis pd) := by cases pd <;> (unfold Statement; decide)

end Sys2Proof.Laws.FixedBits
end

