-- ==== Sys2Proof/Laws/Special.lean ====
section
/-! SUPPORT. The zeros, the infinities and the NaN sums by their magnitude bits, and the values from zero on (R100,
R106, R120). -/

namespace Sys2Proof.Machine

/-- The two infinities (R100). -/
theorem isInf_iff (a : Word64) : (a = 0x7FF0000000000000 ∨ a = 0xFFF0000000000000) ↔ magBits a = infMag := by
  constructor
  · rintro (rfl | rfl) <;> decide
  · intro h
    rw [← withSign_msb_magBits a, h]
    cases a.msb
    · left; decide
    · right; decide

theorem pinf_iff (a : Word64) : a = 0x7FF0000000000000 ↔ magBits a = infMag ∧ a.msb = false := by
  constructor
  · rintro rfl; decide
  · rintro ⟨h, h2⟩
    rw [← withSign_msb_magBits a, h, h2]; decide

theorem ninf_iff (a : Word64) : a = 0xFFF0000000000000 ↔ magBits a = infMag ∧ a.msb = true := by
  constructor
  · rintro rfl; decide
  · rintro ⟨h, h2⟩
    rw [← withSign_msb_magBits a, h, h2]; decide

/-- The two zeros (R100). -/
theorem isZero_iff (a : Word64) : (a = 0x0000000000000000 ∨ a = 0x8000000000000000) ↔ magBits a = 0 := by
  constructor
  · rintro (rfl | rfl) <;> decide
  · intro h
    rw [← withSign_msb_magBits a, h]
    cases a.msb
    · left; decide
    · right; decide

theorem isNaN_of_infMag {a : Word64} (h : magBits a = infMag) : isNaN a = false := by
  rw [isNaN_eq_false_iff]; omega

/-- The values below zero (R120). -/
theorem fgt_zero (a : Word64) : fgt 0x0000000000000000 a = true ↔ a.msb = true ∧ magBits a ≠ 0 ∧ isNaN a = false := by
  rw [fgt_iff, show ordKey (0x0000000000000000 : Word64) = 0 by decide, ordKey]
  have : isNaN (0x0000000000000000 : Word64) = false := by decide
  cases a.msb
  · simp [signed]
  · simp only [signed, if_true, true_and, this]; constructor
    · rintro ⟨h1, h2⟩; exact ⟨by omega, h1⟩
    · rintro ⟨h1, h2⟩; exact ⟨h2, by omega⟩

/-- The values from zero on (R120). -/
theorem fle_zero_iff (a : Word64) : fle 0x0000000000000000 a = true ↔ isNaN a = false ∧ (a.msb = false ∨ magBits a = 0) := by
  rw [fle_iff, show ordKey (0x0000000000000000 : Word64) = 0 by decide, ordKey]
  have : isNaN (0x0000000000000000 : Word64) = false := by decide
  cases a.msb
  · simp only [signed, this]; simp
  · simp only [signed, if_true, this, true_and]
    constructor
    · rintro ⟨h1, h2⟩; exact ⟨h1, .inr (by omega)⟩
    · rintro ⟨h1, h2 | h2⟩
      · cases h2
      · exact ⟨h1, by omega⟩

/-- When a sum is a NaN (R106). -/
theorem isNaN_sumWith (nan a b : Word64) (hN : isNaN nan = true) : isNaN (sumWith nan a b) = true ↔
    isNaN a = true ∨ isNaN b = true ∨ (magBits a = infMag ∧ magBits b = infMag ∧ a.msb ≠ b.msb) := by
  rcases unpack_cases a with ⟨h, hu⟩ | ⟨h, hu⟩ | ⟨h, m, e, hu, hv, hm, he, hm0⟩ <;>
  rcases unpack_cases b with ⟨h', hu'⟩ | ⟨h', hu'⟩ | ⟨h', n, f, hu', hv', hn, hf, hn0⟩
  · simp [sumWith, hu, hu', h, hN]
  · simp [sumWith, hu, hu', h, hN]
  · simp [sumWith, hu, hu', h, hN]
  · simp [sumWith, hu, hu', h', hN]
  · simp only [sumWith, hu, hu', isNaN_of_infMag h, isNaN_of_infMag h', h, h']
    by_cases hs : a.msb = b.msb <;> simp [hs, hN, isNaN_of_infMag h]
  · have h2 := isFinite_not_isNaN h'
    rw [isFinite_iff] at h'
    simp only [sumWith, hu, hu', isNaN_of_infMag h, h2]
    simp; omega
  · simp [sumWith, hu, hu', h', hN]
  · have h2 := isFinite_not_isNaN h
    rw [isFinite_iff] at h
    simp only [sumWith, hu, hu', isNaN_of_infMag h', h2]
    simp; omega
  · have h2 := isFinite_not_isNaN h
    have h2' := isFinite_not_isNaN h'
    rw [isFinite_iff] at h
    simp only [sumWith, hu, hu', h2, h2', isNaN_addFinite]
    simp; omega

theorem f64_zero : (f64 0x0000000000000000 : ℝ) = 0 := by
  rw [f64, show unpack 0x0000000000000000 = .fin false 0 (-1074) by decide]; simp

theorem nonneg_iff {a : Word64} (h : isFinite a = true) : fle 0x0000000000000000 a = true ↔ (0 : ℝ) ≤ f64 a := by
  rw [fle_finite (by decide) h, f64_zero]

/-- What lies between two finite values is finite. -/
theorem finite_of_between {a b c : Word64} (ha : isFinite a = true) (hc : isFinite c = true) (h1 : fle a b = true) (h2 : fle b c = true) : isFinite b = true := by
  rw [fle_iff] at h1 h2
  rw [isFinite_iff] at *
  simp only [ordKey, signed] at h1 h2
  split at h1 <;> split at h2 <;> split at h1 <;> omega

theorem inf_or_finite {a : Word64} (h : isNaN a = false) (h0 : fle 0x0000000000000000 a = true) : a = 0x7FF0000000000000 ∨ isFinite a = true := by
  rw [isNaN_eq_false_iff] at h
  by_cases hi : magBits a = infMag
  · left
    rw [fle_zero_iff] at h0
    rw [pinf_iff]
    refine ⟨hi, ?_⟩
    rcases h0.2 with h | h
    · exact h
    · rw [h] at hi; exact absurd hi (by decide)
  · right; rw [isFinite_iff]; omega

/-- The positive infinity is above every value. -/
theorem pinf_top {a : Word64} (h : isNaN a = false) : fle a 0x7FF0000000000000 = true := by
  rw [fle_iff]
  refine ⟨h, by decide, ?_⟩
  rw [show ordKey (0x7FF0000000000000 : Word64) = infMag by decide]
  exact (ordKey_bounds h).2

theorem pinf_le {a : Word64} (h : fle 0x7FF0000000000000 a = true) : a = 0x7FF0000000000000 := by
  have := (fle_iff _ _).mp h
  have h2 := ordKey_bounds this.2.1
  rw [show ordKey (0x7FF0000000000000 : Word64) = infMag by decide] at this
  rw [pinf_iff]
  have h3 := (isNaN_eq_false_iff a).mp this.2.1
  have h4 := this.2.2
  rw [ordKey, signed] at h4
  have : infMag = 9218868437227405312 := rfl
  split at h4
  · omega
  · rename_i hs; exact ⟨by omega, by simpa using hs⟩

/-- The integer part of a value is its floor. -/
theorem floor_value {m : Nat} {e : ℤ} : (⌊((m : ℝ) * 2 ^ e)⌋ : ℤ) = intPart m e := by
  have := intPart_bounds m e
  rw [Int.floor_eq_iff]
  push_cast
  exact ⟨this.1, this.2.1⟩

theorem integral_iff (m : Nat) (e : ℤ) : isIntegral m e = true ↔ (intPart m e : ℝ) = m * 2 ^ e := by
  constructor
  · exact (intPart_bounds m e).2.2
  · intro h
    by_cases he : 0 ≤ e
    · simp [isIntegral, he]
    · have h1 : m = intPart m e * 2 ^ (-e).toNat := by
        have h2 : (2 : ℝ) ^ (0 : ℤ) = 2 ^ (-e).toNat * 2 ^ e := zpow_split (by omega)
        have h3 : (m : ℝ) = (intPart m e * 2 ^ (-e).toNat : ℕ) := by
          push_cast
          rw [h, mul_assoc, mul_comm ((2 : ℝ) ^ e), ← h2, zpow_zero, mul_one]
        exact_mod_cast h3
      rw [isIntegral, Bool.or_eq_true]
      right
      rw [beq_iff_eq]
      exact Nat.mod_eq_zero_of_dvd ⟨intPart m e, by rw [Nat.mul_comm]; exact h1⟩

theorem ordKey_inj_nonneg {a b : Word64} (ha : a.msb = false) (hb : b.msb = false) (h : ordKey a = ordKey b) : a = b := by
  rw [ordKey, ordKey, ha, hb] at h
  exact ext_mag (by rw [ha, hb]) (by simpa [signed] using h)

end Sys2Proof.Machine
end

