-- ==== Sys2Proof/Laws/Transform.lean ====
section
/-! SUPPORT. The one-dimensional transform element by element (spec/42_fft1d.md): lengths, halves, one level of the
recursion, and how the levels of the iterative form split over the two halves. -/

namespace Sys2Proof.Machine

theorem length_evens : ∀ (h : Nat) (x : Samples), x.length = 2 * h → (evens x).length = h
  | 0, [], _ => rfl
  | h + 1, a :: b :: rest, hx => by
    simp only [evens, List.length_cons] at hx ⊢
    rw [length_evens h rest (by omega)]
  | 0, _ :: _, hx => by simp at hx
  | h + 1, [], hx => by simp at hx
  | h + 1, [_], hx => by simp at hx; omega

theorem length_odds : ∀ (h : Nat) (x : Samples), x.length = 2 * h → (odds x).length = h
  | 0, [], _ => rfl
  | h + 1, a :: b :: rest, hx => by
    simp only [odds, List.length_cons] at hx ⊢
    rw [length_odds h rest (by omega)]
  | 0, _ :: _, hx => by simp at hx
  | h + 1, [], hx => by simp at hx
  | h + 1, [_], hx => by simp at hx; omega

theorem sampleAt_evens : ∀ (x : Samples) (k : Nat), sampleAt (evens x) k = sampleAt x (2 * k)
  | [], k => by simp [evens, sampleAt]
  | [a], k => by cases k <;> simp [evens, sampleAt]
  | a :: b :: rest, 0 => rfl
  | a :: b :: rest, k + 1 => by
    have := sampleAt_evens rest k
    simpa [evens, sampleAt, Nat.mul_add] using this

theorem sampleAt_odds : ∀ (x : Samples) (k : Nat), sampleAt (odds x) k = sampleAt x (2 * k + 1)
  | [], k => by simp [odds, sampleAt]
  | [a], k => by simp [odds, sampleAt]
  | a :: b :: rest, 0 => rfl
  | a :: b :: rest, k + 1 => by
    have := sampleAt_odds rest k
    simpa [odds, sampleAt, Nat.mul_add] using this

theorem length_twiddled (fp : Fpu) (ps : Bool) (h : Nat) : ∀ (k : Nat) (l : Samples), (twiddled fp ps h k l).length = l.length
  | _, [] => rfl
  | k, _ :: rest => by simp [twiddled, length_twiddled fp ps h (k + 1) rest]

theorem sampleAt_twiddled (fp : Fpu) (ps : Bool) (h : Nat) : ∀ (l : Samples) (k0 k : Nat), k < l.length →
    sampleAt (twiddled fp ps h k0 l) k = Cmul fp (sampleAt l k) (twiddle fp ps h (k0 + k))
  | [], _, _, hk => by simp at hk
  | o :: rest, k0, 0, _ => rfl
  | o :: rest, k0, k + 1, hk => by
    have := sampleAt_twiddled fp ps h rest (k0 + 1) k (by simpa using hk)
    simp only [twiddled, sampleAt, List.getD_cons_succ] at this ⊢
    rw [this]
    congr 2
    omega

theorem length_Fft1 (fp : Fpu) (ps : Bool) : ∀ (L : Nat) (x : Samples), x.length = 2 ^ L → (Fft1 fp ps L x).length = 2 ^ L
  | 0, x, hx => by simpa [Fft1] using hx
  | L + 1, x, hx => by
    have h2 : x.length = 2 * 2 ^ L := by rw [hx, Nat.pow_succ, Nat.mul_comm]
    have hE := length_Fft1 fp ps L (evens x) (length_evens _ _ h2)
    have hO := length_Fft1 fp ps L (odds x) (length_odds _ _ h2)
    simp only [Fft1, List.length_append, List.length_zipWith, length_twiddled, hE, hO, Nat.min_self, Nat.pow_succ]
    omega

theorem sampleAt_zipWith (f : Sample → Sample → Sample) {a b : Samples} {k : Nat} (ha : k < a.length) (hb : k < b.length) :
    sampleAt (List.zipWith f a b) k = f (sampleAt a k) (sampleAt b k) := by
  have hk : k < (List.zipWith f a b).length := by simp [ha, hb]
  simp [sampleAt, List.getD_eq_getElem?_getD, List.getElem?_eq_getElem hk, List.getElem?_eq_getElem ha,
    List.getElem?_eq_getElem hb]

/-- One level of the recursion, element by element (R152 to R154). -/
theorem sampleAt_Fft1 (fp : Fpu) (ps : Bool) {L : Nat} {x : Samples} (hx : x.length = 2 ^ (L + 1)) {k : Nat}
    (hk : k < 2 ^ L) :
    let e := sampleAt (Fft1 fp ps L (evens x)) k
    let t := Cmul fp (sampleAt (Fft1 fp ps L (odds x)) k) (twiddle fp ps (2 ^ L) k)
    sampleAt (Fft1 fp ps (L + 1) x) k = Cadd fp e t ∧ sampleAt (Fft1 fp ps (L + 1) x) (k + 2 ^ L) = Csub fp e t := by
  have h2 : x.length = 2 * 2 ^ L := by rw [hx, Nat.pow_succ, Nat.mul_comm]
  have hE := length_Fft1 fp ps L (evens x) (length_evens _ _ h2)
  have hO := length_Fft1 fp ps L (odds x) (length_odds _ _ h2)
  have ht : sampleAt (twiddled fp ps (2 ^ L) 0 (Fft1 fp ps L (odds x))) k =
      Cmul fp (sampleAt (Fft1 fp ps L (odds x)) k) (twiddle fp ps (2 ^ L) k) := by
    rw [sampleAt_twiddled fp ps _ _ _ _ (by omega), Nat.zero_add]
  have hlen : (List.zipWith (Cadd fp) (Fft1 fp ps L (evens x)) (twiddled fp ps (2 ^ L) 0 (Fft1 fp ps L (odds x)))).length = 2 ^ L := by
    simp [length_twiddled, hE, hO]
  constructor
  · rw [← ht, ← sampleAt_zipWith (Cadd fp) (by omega) (by rw [length_twiddled]; omega)]
    simp only [Fft1, sampleAt, List.getD_eq_getElem?_getD]
    rw [List.getElem?_append_left (by rw [hlen]; exact hk)]
  · rw [← ht, ← sampleAt_zipWith (Csub fp) (by omega) (by rw [length_twiddled]; omega)]
    simp only [Fft1, sampleAt, List.getD_eq_getElem?_getD]
    rw [List.getElem?_append_right (by rw [hlen]; omega), hlen, Nat.add_sub_cancel]

theorem samples_ext {x y : Samples} (hl : x.length = y.length) (h : ∀ k, k < x.length → sampleAt x k = sampleAt y k) : x = y := by
  apply List.ext_getElem hl
  intro k h1 h2
  have := h k h1
  simpa [sampleAt, List.getD_eq_getElem?_getD, h1, h2] using this

theorem sampleAt_map_range (f : Nat → Sample) {n k : Nat} (hk : k < n) : sampleAt ((List.range n).map f) k = f k := by
  simp [sampleAt, List.getD_eq_getElem?_getD, hk]

theorem evens_eq {h : Nat} {x : Samples} (hx : x.length = 2 * h) :
    evens x = (List.range h).map fun k => sampleAt x (2 * k) :=
  samples_ext (by simp [length_evens h x hx]) fun k hk => by
    rw [length_evens h x hx] at hk
    rw [sampleAt_map_range _ hk, sampleAt_evens]

theorem odds_eq {h : Nat} {x : Samples} (hx : x.length = 2 * h) :
    odds x = (List.range h).map fun k => sampleAt x (2 * k + 1) :=
  samples_ext (by simp [length_odds h x hx]) fun k hk => by
    rw [length_odds h x hx] at hk
    rw [sampleAt_map_range _ hk, sampleAt_odds]

theorem bitrev_lt : ∀ L i, i < 2 ^ L → bitrev L i < 2 ^ L := by
  intro L
  induction L with
  | zero => intro i hi; simpa [bitrev] using hi
  | succ L ih =>
    intro i hi
    simp only [bitrev]
    have := ih (i / 2) (by rw [Nat.pow_succ] at hi; omega)
    have h2 : i % 2 < 2 := Nat.mod_lt _ (by decide)
    rw [Nat.pow_succ]
    rcases Nat.mod_two_eq_zero_or_one i with h | h <;> rw [h] <;> omega

/-- The reversal of one binary digit more: the low half of the positions holds the even indices, the high half the odd
ones. -/
theorem bitrev_succ : ∀ L j, j < 2 ^ L → bitrev (L + 1) j = 2 * bitrev L j ∧ bitrev (L + 1) (j + 2 ^ L) = 2 * bitrev L j + 1 := by
  intro L
  induction L with
  | zero => intro j hj; have : j = 0 := by simpa using hj
            subst this; simp [bitrev]
  | succ L ih =>
    intro j hj
    have hh : j / 2 < 2 ^ L := by rw [Nat.pow_succ] at hj; omega
    obtain ⟨a, b⟩ := ih (j / 2) hh
    have e1 : (j + 2 ^ (L + 1)) / 2 = j / 2 + 2 ^ L := by rw [Nat.pow_succ]; omega
    have e2 : (j + 2 ^ (L + 1)) % 2 = j % 2 := by rw [Nat.pow_succ]; omega
    constructor
    · rw [bitrev, a]; conv_rhs => rw [bitrev]
      rw [Nat.pow_succ]; ring
    · rw [bitrev, e1, e2, b]; conv_rhs => rw [bitrev]
      rw [Nat.pow_succ]; ring

/-- A level whose blocks fit into the halves acts on each half alone. -/
theorem fftStage_append (fp : Fpu) (ps : Bool) (l L : Nat) (hl : l < L) (a b : Samples) (ha : a.length = 2 ^ L) (hb : b.length = 2 ^ L) :
    fftStage fp ps (2 ^ l) (2 ^ (L+1)) (a ++ b) = fftStage fp ps (2 ^ l) (2 ^ L) a ++ fftStage fp ps (2 ^ l) (2 ^ L) b := by
  have hp : 2 ^ (L + 1) = 2 ^ L + 2 ^ L := by rw [Nat.pow_succ]; omega
  obtain ⟨c, hc⟩ : ∃ c, 2 ^ L = 2 * 2 ^ l * c := ⟨2 ^ (L - l - 1), by rw [← Nat.pow_succ', ← Nat.pow_add]; congr 1; omega⟩
  have hm : 0 < 2 ^ l := Nat.two_pow_pos l
  rw [fftStage, hp, List.range_add, List.map_append]
  congr 1
  · apply List.map_congr_left
    intro i hi
    rw [List.mem_range] at hi
    have hblk : i - i % (2 * 2 ^ l) + 2 * 2 ^ l ≤ 2 ^ L := by
      have h1 : i - i % (2 * 2 ^ l) = 2 * 2 ^ l * (i / (2 * 2 ^ l)) := by
        have := Nat.div_add_mod i (2 * 2 ^ l); omega
      have h2 : i / (2 * 2 ^ l) < c := by rw [Nat.div_lt_iff_lt_mul (by omega)]; rw [hc] at hi; rw [Nat.mul_comm]; exact hi
      rw [h1, hc, ← Nat.mul_succ]
      exact Nat.mul_le_mul_left _ h2
    have hk : i % 2 ^ l < 2 ^ l := Nat.mod_lt _ hm
    have g : ∀ j, j < 2 ^ L → sampleAt (a ++ b) j = sampleAt a j := by
      intro j hj; simp only [sampleAt, List.getD_eq_getElem?_getD]; rw [List.getElem?_append_left (by omega)]
    dsimp only
    rw [g _ (by omega), g _ (by omega)]
  · rw [List.map_map]
    apply List.map_congr_left
    intro i hi
    rw [List.mem_range] at hi
    have g : ∀ j, sampleAt (a ++ b) (2 ^ L + j) = sampleAt b j := by
      intro j; simp only [sampleAt, List.getD_eq_getElem?_getD]; rw [List.getElem?_append_right (by omega), ha, Nat.add_sub_cancel_left]
    have m1 : (2 ^ L + i) % (2 * 2 ^ l) = i % (2 * 2 ^ l) := by rw [hc]; exact Nat.mul_add_mod _ _ _
    have m2 : (2 ^ L + i) % 2 ^ l = i % 2 ^ l := by
      rw [hc, Nat.mul_comm 2, Nat.mul_assoc]; exact Nat.mul_add_mod _ _ _
    have le : i % (2 * 2 ^ l) ≤ i := Nat.mod_le _ _
    simp only [Function.comp]
    rw [m1, m2]
    have e1 : 2 ^ L + i - i % (2 * 2 ^ l) + i % 2 ^ l + 2 ^ l = 2 ^ L + (i - i % (2 * 2 ^ l) + i % 2 ^ l + 2 ^ l) := by omega
    have e2 : 2 ^ L + i - i % (2 * 2 ^ l) + i % 2 ^ l = 2 ^ L + (i - i % (2 * 2 ^ l) + i % 2 ^ l) := by omega
    rw [e1, e2, g, g]

theorem length_fftStage (fp : Fpu) (ps : Bool) (h n : Nat) (a : Samples) : (fftStage fp ps h n a).length = n := by simp [fftStage]
theorem length_fftStages (fp : Fpu) (ps : Bool) (n : Nat) : ∀ l a, a.length = n → (fftStages fp ps n l a).length = n
  | 0, _, h => h
  | _ + 1, _, _ => length_fftStage ..

theorem fftStages_append (fp : Fpu) (ps : Bool) (L : Nat) (a b : Samples) (ha : a.length = 2 ^ L) (hb : b.length = 2 ^ L) :
    ∀ l, l ≤ L → fftStages fp ps (2 ^ (L+1)) l (a ++ b) = fftStages fp ps (2 ^ L) l a ++ fftStages fp ps (2 ^ L) l b
  | 0, _ => rfl
  | l + 1, h => by
    rw [fftStages, fftStages_append fp ps L a b ha hb l (by omega), fftStage_append fp ps l L (by omega) _ _ (length_fftStages _ _ _ _ _ ha) (length_fftStages _ _ _ _ _ hb)]
    rfl

/-- The leaves are those of the two halves, one after the other. -/
theorem fftLeaves_succ (L : Nat) (x : Samples) : fftLeaves (L+1) x = fftLeaves L (evens x) ++ fftLeaves L (odds x) := by
  have hp : 2 ^ (L + 1) = 2 ^ L + 2 ^ L := by rw [Nat.pow_succ]; omega
  rw [fftLeaves, hp, List.range_add, List.map_append]
  congr 1
  · apply List.map_congr_left
    intro i hi
    rw [List.mem_range] at hi
    rw [sampleAt_evens, (bitrev_succ L i hi).1]
  · rw [List.map_map]
    apply List.map_congr_left
    intro i hi
    rw [List.mem_range] at hi
    simp only [Function.comp]
    rw [sampleAt_odds, Nat.add_comm (2 ^ L) i, (bitrev_succ L i hi).2]

end Sys2Proof.Machine
end

