-- ==== Sys2Proof/Laws/Width.lean ====
section
/-! SUPPORT. How narrow the enclosures behind `fsin`, `fcos` and `flog10` are (R110 item 4, R111 item 4; log entries 5,
6), and when no representable value lies inside one. -/

namespace Sys2Proof.Machine

/-! ### The sine and the cosine -/

/-- One doubling, at most `S` in all: the error grows by a factor of four and hardly more. -/
theorem doubleAngle_err {P S i : Nat} (b : SinCos) (hi : i ≤ S) (hP : 16 * 4 ^ i * S ≤ 2 ^ P)
    (h : (b.err + 2) * S ≤ 4 ^ i * (8 * S + 8 * i)) (hS : 0 < S) :
    ((doubleAngle P b).err + 2) * S ≤ 4 ^ (i + 1) * (8 * S + 8 * (i + 1)) := by
  have h4 : 4 ^ i * (8 * S + 8 * i) ≤ 16 * 4 ^ i * S := by
    calc 4 ^ i * (8 * S + 8 * i) ≤ 4 ^ i * (16 * S) := Nat.mul_le_mul_left _ (by omega)
      _ = _ := by ring
  have he : b.err ≤ 16 * 4 ^ i := by
    have := Nat.le_of_mul_le_mul_right (h.trans h4) hS
    omega
  have hsq : 2 * b.err * b.err / 2 ^ P * S ≤ 8 * 4 ^ (i + 1) := by
    have h1 : 2 * b.err * b.err * S ≤ 8 * 4 ^ (i + 1) * 2 ^ P := by
      calc 2 * b.err * b.err * S ≤ 2 * (16 * 4 ^ i) * (16 * 4 ^ i) * S :=
            Nat.mul_le_mul_right _ (Nat.mul_le_mul (Nat.mul_le_mul_left _ he) he)
        _ = 8 * 4 ^ (i + 1) * (16 * 4 ^ i * S) := by ring
        _ ≤ _ := Nat.mul_le_mul_left _ hP
    have h2 : 2 * b.err * b.err / 2 ^ P * S * 2 ^ P ≤ 2 * b.err * b.err * S := by
      calc 2 * b.err * b.err / 2 ^ P * S * 2 ^ P = 2 * b.err * b.err / 2 ^ P * 2 ^ P * S := by ring
        _ ≤ _ := Nat.mul_le_mul_right _ (Nat.div_mul_le_self _ _)
    exact Nat.le_of_mul_le_mul_right (h2.trans h1) (Nat.two_pow_pos P)
  simp only [doubleAngle]
  calc (4 * b.err + 2 * b.err * b.err / 2 ^ P + 3 + 2) * S
      ≤ 4 * ((b.err + 2) * S) + 2 * b.err * b.err / 2 ^ P * S := by nlinarith
    _ ≤ 4 * (4 ^ i * (8 * S + 8 * i)) + 8 * 4 ^ (i + 1) := by omega
    _ = _ := by ring

/-- The error after `k` doublings, of which `i` are done. -/
theorem doubleAngles_err {P S k : Nat} (hP : 16 * 4 ^ k * S ≤ 2 ^ P) (hk : k ≤ S) (hS : 0 < S) (j : Nat) :
    ∀ (b : SinCos) (i : Nat), i + j = k → (b.err + 2) * S ≤ 4 ^ i * (8 * S + 8 * i) →
      (doubleAngles P j b).err ≤ 16 * 4 ^ k := by
  induction j with
  | zero =>
    intro b i hi h
    obtain rfl : i = k := by omega
    have h1 : 4 ^ i * (8 * S + 8 * i) ≤ 16 * 4 ^ i * S := by
      calc 4 ^ i * (8 * S + 8 * i) ≤ 4 ^ i * (16 * S) := Nat.mul_le_mul_left _ (by omega)
        _ = _ := by ring
    have := Nat.le_of_mul_le_mul_right (h.trans h1) hS
    rw [doubleAngles]
    omega
  | succ j ih =>
    intro b i hi h
    refine ih (doubleAngle P b) (i + 1) (by omega) (doubleAngle_err b (by omega) ?_ h hS)
    refine le_trans (Nat.mul_le_mul_right _ (Nat.mul_le_mul_left _ ?_)) hP
    exact Nat.pow_le_pow_right (by norm_num) (by omega)

theorem sinCos_err (m : Nat) (e : ℤ) {E : Nat} (hE : E ≤ 1024) : (sinCos m e E).err ≤ 2 ^ (6 * E + 472) := by
  have hk : E + anglePrecision E / 3 = 3 * E + 234 := by unfold anglePrecision; omega
  have h4 : 16 * 4 ^ (3 * E + 234) = 2 ^ (6 * E + 472) := by
    generalize hq : 3 * E + 234 = q
    rw [show 6 * E + 472 = 4 + 2 * q by omega, pow_add, pow_mul]
    norm_num
  obtain ⟨S, hS⟩ : ∃ S : Nat, S = 2 ^ 12 := ⟨_, rfl⟩
  have hP : 16 * 4 ^ (3 * E + 234) * S ≤ 2 ^ anglePrecision E := by
    rw [h4, hS, ← pow_add]
    exact Nat.pow_le_pow_right (by norm_num) (by unfold anglePrecision; omega)
  have hS' : S = 4096 := by rw [hS]; norm_num
  rw [← h4]
  simp only [sinCos, hk]
  refine doubleAngles_err hP (by omega) (by omega) _ _ 0 (Nat.zero_add _) ?_
  rw [pow_zero]
  show (4 + 2) * S ≤ _
  omega

theorem encloseUnit_width {v : ℤ} {err E : Nat} (h : err ≤ 2 ^ (6 * E + 472)) :
    (((encloseUnit v err (anglePrecision E)).hi : ℝ) - (encloseUnit v err (anglePrecision E)).lo) *
      2 ^ (encloseUnit v err (anglePrecision E)).exp ≤ 2 ^ (-200 : ℤ) := by
  have h1 : ((encloseUnit v err (anglePrecision E)).hi : ℝ) - (encloseUnit v err (anglePrecision E)).lo ≤
      2 ^ (6 * E + 473) := by
    have : (encloseUnit v err (anglePrecision E)).hi ≤ (encloseUnit v err (anglePrecision E)).lo + 2 ^ (6 * E + 473) := by
      have := Nat.min_le_left (v.natAbs + err) (2 ^ anglePrecision E)
      rw [show 6 * E + 473 = 6 * E + 472 + 1 by omega, pow_succ]
      simp only [encloseUnit]
      omega
    have : ((encloseUnit v err (anglePrecision E)).hi : ℝ) ≤ (encloseUnit v err (anglePrecision E)).lo + 2 ^ (6 * E + 473) := by
      exact_mod_cast this
    linarith
  refine (mul_le_mul_of_nonneg_right h1 (two_zpow_pos _).le).trans ?_
  rw [← zpow_natCast, ← zpow_add₀ (by norm_num)]
  apply zpow_le_zpow_right₀ (by norm_num)
  simp only [encloseUnit, anglePrecision]
  push_cast
  omega

theorem isTinyAngle_iff {m : Nat} (hm : m ≠ 0) (e : ℤ) : isTinyAngle m e = true ↔ (m : ℝ) * 2 ^ e < 2 ^ (-27 : ℤ) := by
  rw [isTinyAngle, decide_eq_true_eq]
  constructor
  · intro h
    refine lt_of_lt_of_le (value_lt (m := m) e) (zpow_le_zpow_right₀ (by norm_num) (by omega))
  · intro h
    by_contra hc
    have := le_value hm e
    have : (2 : ℝ) ^ (-27 : ℤ) ≤ 2 ^ ((m.log2 : ℤ) + e) := zpow_le_zpow_right₀ (by norm_num) (by omega)
    linarith

theorem encloseSin_width {m : Nat} {e : ℤ} (hm : m ≠ 0) (hE : angleBits m e ≤ 1024) :
    (((encloseSin m e).2.hi : ℝ) - (encloseSin m e).2.lo) * 2 ^ (encloseSin m e).2.exp ≤
      if (m : ℝ) * 2 ^ e < 2 ^ (-27 : ℤ) then (m : ℝ) * 2 ^ e * 2 ^ (-56 : ℤ) else 2 ^ (-200 : ℤ) := by
  unfold encloseSin
  by_cases ht : isTinyAngle m e = true
  · have hx := (isTinyAngle_iff hm e).mp ht
    rw [if_pos ht, if_pos hx]
    have h1 : ((m * 2 ^ (2 - 2 * e).toNat : Nat) : ℝ) - ((m * 2 ^ (2 - 2 * e).toNat - m * m * m : Nat) : ℝ) ≤ m * m * m := by
      have : m * 2 ^ (2 - 2 * e).toNat ≤ (m * 2 ^ (2 - 2 * e).toNat - m * m * m) + m * m * m := by omega
      have : ((m * 2 ^ (2 - 2 * e).toNat : Nat) : ℝ) ≤ ((m * 2 ^ (2 - 2 * e).toNat - m * m * m : Nat) : ℝ) + m * m * m := by
        exact_mod_cast this
      linarith
    simp only
    refine (mul_le_mul_of_nonneg_right h1 (two_zpow_pos _).le).trans ?_
    have h2 : (2 : ℝ) ^ (3 * e - 2) = 2 ^ e * 2 ^ e * 2 ^ e * 2 ^ (-2 : ℤ) := by
      rw [← zpow_add₀ (by norm_num), ← zpow_add₀ (by norm_num), ← zpow_add₀ (by norm_num)]
      congr 1; ring
    have h3 : (2 : ℝ) ^ (-56 : ℤ) = 2 ^ (-27 : ℤ) * 2 ^ (-27 : ℤ) * 2 ^ (-2 : ℤ) := by norm_num
    have hx0 : (0 : ℝ) ≤ m * 2 ^ e := mul_nonneg (Nat.cast_nonneg m) (two_zpow_pos e).le
    rw [h2, h3]
    calc (m : ℝ) * m * m * (2 ^ e * 2 ^ e * 2 ^ e * 2 ^ (-2 : ℤ)) =
          m * 2 ^ e * ((m * 2 ^ e) * (m * 2 ^ e) * 2 ^ (-2 : ℤ)) := by ring
      _ ≤ m * 2 ^ e * (2 ^ (-27 : ℤ) * 2 ^ (-27 : ℤ) * 2 ^ (-2 : ℤ)) := by gcongr
  · rw [if_neg ht, if_neg (fun h => ht ((isTinyAngle_iff hm e).mpr h))]
    exact encloseUnit_width (sinCos_err m e hE)

theorem encloseCos_width {m : Nat} {e : ℤ} (hm : m ≠ 0) (hE : angleBits m e ≤ 1024) :
    (((encloseCos m e).2.hi : ℝ) - (encloseCos m e).2.lo) * 2 ^ (encloseCos m e).2.exp ≤
      if (m : ℝ) * 2 ^ e < 2 ^ (-27 : ℤ) then 2 ^ (-55 : ℤ) else 2 ^ (-200 : ℤ) := by
  unfold encloseCos
  by_cases ht : isTinyAngle m e = true
  · have hx := (isTinyAngle_iff hm e).mp ht
    rw [if_pos ht, if_pos hx]
    have h1 : ((2 ^ (1 - 2 * e).toNat : Nat) : ℝ) - ((2 ^ (1 - 2 * e).toNat - m * m : Nat) : ℝ) ≤ m * m := by
      have : 2 ^ (1 - 2 * e).toNat ≤ (2 ^ (1 - 2 * e).toNat - m * m) + m * m := by omega
      have : ((2 ^ (1 - 2 * e).toNat : Nat) : ℝ) ≤ ((2 ^ (1 - 2 * e).toNat - m * m : Nat) : ℝ) + m * m := by
        exact_mod_cast this
      linarith
    simp only
    refine (mul_le_mul_of_nonneg_right h1 (two_zpow_pos _).le).trans ?_
    have h2 : (2 : ℝ) ^ (2 * e - 1) = 2 ^ e * 2 ^ e * 2 ^ (-1 : ℤ) := by
      rw [← zpow_add₀ (by norm_num), ← zpow_add₀ (by norm_num)]
      congr 1; ring
    have h3 : (2 : ℝ) ^ (-55 : ℤ) = 2 ^ (-27 : ℤ) * 2 ^ (-27 : ℤ) * 2 ^ (-1 : ℤ) := by norm_num
    have hx0 : (0 : ℝ) ≤ m * 2 ^ e := mul_nonneg (Nat.cast_nonneg m) (two_zpow_pos e).le
    rw [h2, h3]
    calc (m : ℝ) * m * (2 ^ e * 2 ^ e * 2 ^ (-1 : ℤ)) = (m * 2 ^ e) * (m * 2 ^ e) * 2 ^ (-1 : ℤ) := by ring
      _ ≤ 2 ^ (-27 : ℤ) * 2 ^ (-27 : ℤ) * 2 ^ (-1 : ℤ) := by gcongr
  · rw [if_neg ht, if_neg (fun h => ht ((isTinyAngle_iff hm e).mpr h))]
    exact encloseUnit_width (sinCos_err m e hE)

/-! ### The logarithm -/

/-- A relative error `t` costs a binary logarithm at most `2 t`. -/
theorem logb_le_add {x y t : ℝ} (hx : 0 < x) (hy : 0 < y) (ht : 0 ≤ t) (h : x ≤ y * (1 + t)) :
    Real.logb 2 x ≤ Real.logb 2 y + 2 * t := by
  have h1 : Real.logb 2 x ≤ Real.logb 2 (y * (1 + t)) := Real.logb_le_logb_of_le (by norm_num) hx h
  rw [Real.logb_mul hy.ne' (by positivity)] at h1
  have h2 : Real.logb 2 (1 + t) ≤ 2 * t := by
    rw [Real.logb, div_le_iff₀ (Real.log_pos (by norm_num))]
    have h3 := Real.log_le_sub_one_of_pos (show (0 : ℝ) < 1 + t by positivity)
    have h4 := Real.log_two_gt_d9
    nlinarith
  linarith

theorem shiftTo_false_bound (x d : Nat) : x < (shiftTo false x d + 1) * 2 ^ d := by
  simp only [shiftTo, Bool.false_eq_true, if_false]
  exact Nat.lt_mul_of_div_lt (Nat.lt_succ_self _) (Nat.two_pow_pos d)

theorem shiftTo_true_bound (x d : Nat) : shiftTo true x d * 2 ^ d < x + 2 ^ d := by
  simp only [shiftTo, if_true]
  have := Nat.div_mul_le_self (x + (2 ^ d - 1)) (2 ^ d)
  have := Nat.two_pow_pos d
  omega

/-- The digits rounded down miss at most one unit and what the roundings lose, `4 / 2^p` for each squaring. -/
theorem log2Digits_lower_close {p : Nat} (hprec : p = logPrecision) : ∀ (n y acc : Nat), 2 ^ p ≤ y → y < 2 ^ (p + 1) →
    2 ^ n * (acc + Real.logb 2 (y / 2 ^ p)) ≤ (log2Digits false n y acc : ℝ) + 1 + 2 ^ n * (4 / 2 ^ p)
  | 0, y, acc, hy, hy2 => by
    have hy0 : (0 : ℝ) < y := by
      have : 0 < y := lt_of_lt_of_le (Nat.two_pow_pos _) hy
      exact_mod_cast this
    have h1 : Real.logb 2 ((y : ℝ) / 2 ^ p) ≤ 1 := by
      rw [show (1 : ℝ) = Real.logb 2 2 by simp]
      apply Real.logb_le_logb_of_le (by norm_num) (by positivity)
      rw [div_le_iff₀ (by positivity)]
      rw [pow_succ, Nat.mul_comm] at hy2
      exact_mod_cast hy2.le
    have : (0 : ℝ) ≤ 4 / 2 ^ p := by positivity
    simp only [log2Digits, pow_zero, one_mul]
    linarith
  | n + 1, y, acc, hy, hy2 => by
    have hp : (0 : ℝ) < 2 ^ p := by positivity
    have hy0 : (0 : ℝ) < y := by
      have : 0 < y := lt_of_lt_of_le (Nat.two_pow_pos _) hy
      exact_mod_cast this
    have hP0 := Nat.two_pow_pos p
    have hz := shiftTo_false_bound (y * y) p
    have hzge : 2 ^ p ≤ shiftTo false (y * y) p := by
      simp only [shiftTo, Bool.false_eq_true, if_false]
      rw [Nat.le_div_iff_mul_le hP0]
      exact Nat.mul_le_mul hy hy
    have hzlt : shiftTo false (y * y) p < 2 ^ (p + 2) := by
      simp only [shiftTo, Bool.false_eq_true, if_false]
      rw [Nat.div_lt_iff_lt_mul hP0]
      calc y * y < 2 ^ (p + 1) * 2 ^ (p + 1) := Nat.mul_lt_mul'' hy2 hy2
        _ = _ := by ring
    simp only [log2Digits, ← hprec]
    generalize shiftTo false (y * y) p = z at *
    have hz0 : (0 : ℝ) < z := by
      have : 0 < z := lt_of_lt_of_le hP0 hzge
      exact_mod_cast this
    have hzgeR : (2 : ℝ) ^ p ≤ z := by exact_mod_cast hzge
    have hzR : (y : ℝ) * y < (z + 1) * 2 ^ p := by exact_mod_cast hz
    have hzlog : 2 * Real.logb 2 (y / 2 ^ p) ≤ Real.logb 2 ((z : ℝ) / 2 ^ p) + 2 * (1 / 2 ^ p) := by
      rw [← Real.logb_rpow_eq_mul_logb_of_pos (by positivity)]
      apply logb_le_add (by positivity) (by positivity) (by positivity)
      rw [Real.rpow_two, div_pow, div_le_iff₀ (by positivity)]
      have : (z : ℝ) / 2 ^ p * (1 + 1 / 2 ^ p) * (2 ^ p) ^ 2 = z * 2 ^ p + z := by field_simp
      rw [this]
      nlinarith
    have hn : (0 : ℝ) < 2 ^ n := by positivity
    have hloss : (4 : ℝ) / 2 ^ p = 2 * (1 / 2 ^ p) + 2 * (1 / 2 ^ p) := by ring
    have hl0 : (0 : ℝ) < 1 / 2 ^ p := by positivity
    split
    · rename_i hbit
      have hsh : 2 ^ p ≤ shiftTo false z 1 := by
        simp only [shiftTo, Bool.false_eq_true, if_false]
        rw [Nat.le_div_iff_mul_le (by norm_num), pow_one, ← pow_succ]
        exact hbit
      have hsh2 : shiftTo false z 1 < 2 ^ (p + 1) := by
        simp only [shiftTo, Bool.false_eq_true, if_false]
        rw [Nat.div_lt_iff_lt_mul (by norm_num), pow_one, ← pow_succ]
        exact hzlt
      have ih := log2Digits_lower_close hprec n (shiftTo false z 1) (2 * acc + 1) hsh hsh2
      have hz1 := shiftTo_false_bound z 1
      generalize shiftTo false z 1 = w at *
      have hz1R : (z : ℝ) < (w + 1) * 2 := by
        have : (z : ℝ) < (w + 1) * 2 ^ 1 := by exact_mod_cast hz1
        linarith
      have hw0 : (2 : ℝ) ^ p ≤ w := by exact_mod_cast hsh
      have hwpos : (0 : ℝ) < w := by linarith
      have h2 : Real.logb 2 ((z : ℝ) / 2 ^ p) - 1 ≤ Real.logb 2 ((w : ℝ) / 2 ^ p) + 2 * (1 / 2 ^ p) := by
        have : Real.logb 2 ((z : ℝ) / 2 ^ p) - 1 = Real.logb 2 ((z : ℝ) / 2 ^ p / 2) := by
          rw [Real.logb_div (x := (z : ℝ) / 2 ^ p) (y := 2) (by positivity) (by norm_num),
            Real.logb_self_eq_one (by norm_num)]
        rw [this]
        apply logb_le_add (by positivity) (by positivity) (by positivity)
        rw [div_div, div_le_iff₀ (by positivity)]
        have : (w : ℝ) / 2 ^ p * (1 + 1 / 2 ^ p) * (2 ^ p * 2) = 2 * w + 2 * (w / 2 ^ p) := by field_simp
        rw [this]
        have : 1 ≤ (w : ℝ) / 2 ^ p := by rw [le_div_iff₀ hp]; linarith
        linarith
      have hstep : (2 : ℝ) ^ (n + 1) * (acc + Real.logb 2 (y / 2 ^ p)) ≤
          2 ^ n * (((2 * acc + 1 : ℕ) : ℝ) + Real.logb 2 (w / 2 ^ p)) + 2 ^ n * (4 / 2 ^ p) := by
        rw [pow_succ, mul_assoc, ← mul_add]
        apply mul_le_mul_of_nonneg_left _ hn.le
        push_cast
        linarith
      rw [pow_succ] at hstep ⊢
      linarith
    · have ih := log2Digits_lower_close hprec n z (2 * acc) hzge (by omega)
      have hstep : (2 : ℝ) ^ (n + 1) * (acc + Real.logb 2 (y / 2 ^ p)) ≤
          2 ^ n * (((2 * acc : ℕ) : ℝ) + Real.logb 2 (z / 2 ^ p)) + 2 ^ n * (4 / 2 ^ p) := by
        rw [pow_succ, mul_assoc, ← mul_add]
        apply mul_le_mul_of_nonneg_left _ hn.le
        push_cast
        linarith
      rw [pow_succ] at hstep ⊢
      linarith

/-- The digits rounded up exceed by what the roundings add only. -/
theorem log2Digits_upper_close {p : Nat} (hprec : p = logPrecision) : ∀ (n y acc : Nat), 2 ^ p ≤ y →
    (log2Digits true n y acc : ℝ) ≤ 2 ^ n * (acc + Real.logb 2 (y / 2 ^ p)) + 2 ^ n * (4 / 2 ^ p)
  | 0, y, acc, hy => by
    have hyR : (2 : ℝ) ^ p ≤ y := by exact_mod_cast hy
    have h1 : 0 ≤ Real.logb 2 ((y : ℝ) / 2 ^ p) := by
      apply Real.logb_nonneg (by norm_num)
      rw [le_div_iff₀ (by positivity)]
      linarith
    have : (0 : ℝ) ≤ 4 / 2 ^ p := by positivity
    simp only [log2Digits, pow_zero, one_mul]
    linarith
  | n + 1, y, acc, hy => by
    have hp : (0 : ℝ) < 2 ^ p := by positivity
    have hyR : (2 : ℝ) ^ p ≤ y := by exact_mod_cast hy
    have hy0 : (0 : ℝ) < y := by linarith
    have hP0 := Nat.two_pow_pos p
    have hz := shiftTo_true_bound (y * y) p
    have hzge : 2 ^ p ≤ shiftTo true (y * y) p := by
      simp only [shiftTo, if_true]
      rw [Nat.le_div_iff_mul_le hP0]
      exact le_trans (Nat.mul_le_mul hy hy) (Nat.le_add_right _ _)
    simp only [log2Digits, ← hprec]
    generalize shiftTo true (y * y) p = z at *
    have hzgeR : (2 : ℝ) ^ p ≤ z := by exact_mod_cast hzge
    have hz0 : (0 : ℝ) < z := by linarith
    have hzR : (z : ℝ) * 2 ^ p < y * y + 2 ^ p := by exact_mod_cast hz
    have hzlog : Real.logb 2 ((z : ℝ) / 2 ^ p) ≤ 2 * Real.logb 2 (y / 2 ^ p) + 2 * (1 / 2 ^ p) := by
      rw [← Real.logb_rpow_eq_mul_logb_of_pos (by positivity)]
      apply logb_le_add (by positivity) (by positivity) (by positivity)
      rw [Real.rpow_two, div_pow, div_le_iff₀ hp]
      have : (y : ℝ) ^ 2 / (2 ^ p) ^ 2 * (1 + 1 / 2 ^ p) * 2 ^ p = y * y / 2 ^ p + (y / 2 ^ p) * (y / 2 ^ p) := by
        field_simp
      rw [this]
      have h1 : 1 ≤ (y : ℝ) / 2 ^ p := by rw [le_div_iff₀ hp]; linarith
      have h2 : (z : ℝ) ≤ y * y / 2 ^ p + 1 := by
        rw [← sub_le_iff_le_add, le_div_iff₀ hp]
        linarith
      nlinarith
    have hn : (0 : ℝ) < 2 ^ n := by positivity
    have hloss : (4 : ℝ) / 2 ^ p = 2 * (1 / 2 ^ p) + 2 * (1 / 2 ^ p) := by ring
    have hl0 : (0 : ℝ) < 1 / 2 ^ p := by positivity
    split
    · rename_i hbit
      have hsh : 2 ^ p ≤ shiftTo true z 1 := by
        simp only [shiftTo, if_true]
        rw [Nat.le_div_iff_mul_le (by norm_num), pow_one, ← pow_succ]
        omega
      have ih := log2Digits_upper_close hprec n (shiftTo true z 1) (2 * acc + 1) hsh
      have hz1 := shiftTo_true_bound z 1
      generalize shiftTo true z 1 = w at *
      have hz1R : (w : ℝ) * 2 < z + 2 := by
        have : (w : ℝ) * 2 ^ 1 < z + 2 ^ 1 := by exact_mod_cast hz1
        linarith
      have hw0 : (2 : ℝ) ^ p ≤ w := by exact_mod_cast hsh
      have hwpos : (0 : ℝ) < w := by linarith
      have hbitR : (2 : ℝ) ^ p * 2 ≤ z := by rw [pow_succ] at hbit; exact_mod_cast hbit
      have h2 : Real.logb 2 ((w : ℝ) / 2 ^ p) ≤ Real.logb 2 ((z : ℝ) / 2 ^ p) - 1 + 2 * (1 / 2 ^ p) := by
        have : Real.logb 2 ((z : ℝ) / 2 ^ p) - 1 = Real.logb 2 ((z : ℝ) / 2 ^ p / 2) := by
          rw [Real.logb_div (x := (z : ℝ) / 2 ^ p) (y := 2) (by positivity) (by norm_num),
            Real.logb_self_eq_one (by norm_num)]
        rw [this]
        apply logb_le_add (by positivity) (by positivity) (by positivity)
        rw [div_le_iff₀ hp]
        have : (z : ℝ) / 2 ^ p / 2 * (1 + 1 / 2 ^ p) * 2 ^ p = z / 2 + z / (2 ^ p * 2) := by field_simp
        rw [this]
        have : 1 ≤ (z : ℝ) / (2 ^ p * 2) := by rw [le_div_iff₀ (by positivity)]; linarith
        linarith
      have hstep : 2 ^ n * (((2 * acc + 1 : ℕ) : ℝ) + Real.logb 2 (w / 2 ^ p)) ≤
          (2 : ℝ) ^ (n + 1) * (acc + Real.logb 2 (y / 2 ^ p)) + 2 ^ n * (4 / 2 ^ p) := by
        rw [pow_succ, mul_assoc, ← mul_add]
        apply mul_le_mul_of_nonneg_left _ hn.le
        push_cast
        linarith
      rw [pow_succ] at hstep ⊢
      linarith
    · have ih := log2Digits_upper_close hprec n z (2 * acc) hzge
      have hstep : 2 ^ n * (((2 * acc : ℕ) : ℝ) + Real.logb 2 (z / 2 ^ p)) ≤
          (2 : ℝ) ^ (n + 1) * (acc + Real.logb 2 (y / 2 ^ p)) + 2 ^ n * (4 / 2 ^ p) := by
        rw [pow_succ, mul_assoc, ← mul_add]
        apply mul_le_mul_of_nonneg_left _ hn.le
        push_cast
        linarith
      rw [pow_succ] at hstep ⊢
      linarith

/-- The number being squared is below two. -/
theorem log2_start_lt {p m : Nat} (hlog : m.log2 ≤ p) : m * 2 ^ (p - m.log2) < 2 ^ (p + 1) := by
  have h : m < 2 ^ (m.log2 + 1) := Nat.lt_log2_self
  calc m * 2 ^ (p - m.log2) < 2 ^ (m.log2 + 1) * 2 ^ (p - m.log2) := Nat.mul_lt_mul_of_pos_right h (Nat.two_pow_pos _)
    _ = _ := by rw [← pow_add]; congr 1; omega

theorem squaringLoss_le : (2 : ℝ) ^ logDigits * (4 / 2 ^ logPrecision) ≤ 1 := by
  rw [mul_div_assoc', div_le_one (by positivity), logDigits, logPrecision,
    show (4 : ℝ) = 2 ^ 2 by norm_num, ← pow_add]
  exact pow_le_pow_right₀ (by norm_num) (by norm_num)

theorem log2FracLo_close {m : Nat} (hm : m ≠ 0) (hlog : m.log2 ≤ logPrecision) :
    2 ^ logDigits * (Real.logb 2 m - m.log2) ≤ (log2FracLo m : ℝ) + 2 := by
  obtain ⟨h1, -, h3⟩ := log2_start hm hlog
  have h2 := log2_start_lt (p := logPrecision) hlog
  have := log2Digits_lower_close rfl logDigits _ 0 h1 h2
  rw [h3, Nat.cast_zero, zero_add] at this
  have hs := squaringLoss_le
  rw [log2FracLo]
  linarith

theorem log2FracHi_close {m : Nat} (hm : m ≠ 0) (hlog : m.log2 ≤ logPrecision) :
    (log2FracHi m : ℝ) ≤ 2 ^ logDigits * (Real.logb 2 m - m.log2) + 2 := by
  obtain ⟨h1, -, h3⟩ := log2_start hm hlog
  have := log2Digits_upper_close rfl logDigits _ 0 h1
  rw [h3, Nat.cast_zero, zero_add] at this
  have hs := squaringLoss_le
  rw [log2FracHi]
  push_cast
  linarith

theorem log2Ten_close : (log2TenHi : ℝ) ≤ 2 ^ logDigits * Real.logb 2 10 + 2 ∧
    2 ^ logDigits * Real.logb 2 10 - 2 ≤ log2TenLo := by
  have h5 : Nat.log2 5 = 2 := by decide
  have h1 := log2FracLo_close (m := 5) (by norm_num) (by rw [h5]; decide)
  have h2 := log2FracHi_close (m := 5) (by norm_num) (by rw [h5]; decide)
  rw [h5] at h1 h2
  rw [log2TenLo, log2TenHi, logb_two_ten]
  push_cast at h1 h2 ⊢
  constructor <;> linarith

theorem three_le_logb_ten : 3 ≤ Real.logb 2 10 := by
  rw [Real.le_logb_iff_rpow_le (by norm_num) (by norm_num)]
  norm_num

/-- From close bounds of a binary logarithm to close bounds of the decimal one. -/
theorem toLog10Lo_close {lo : Nat} {l : ℝ} (h0 : 0 ≤ l) (hl : l ≤ 1100) (h : 2 ^ logDigits * l ≤ (lo : ℝ) + 2) :
    2 ^ logDigits * (l / Real.logb 2 10) ≤ (toLog10Lo lo : ℝ) + 1000 := by
  have hc := three_le_logb_ten
  have hT := log2Ten_close.1
  have hT0 : (0 : ℝ) < log2TenHi := by
    have := log2Ten_bounds
    linarith
  have hN : (1 : ℝ) ≤ 2 ^ logDigits := one_le_pow₀ (by norm_num)
  have hdiv : ((lo * 2 ^ logDigits : Nat) : ℝ) / log2TenHi ≤ toLog10Lo lo + 1 := by
    rw [div_le_iff₀ hT0, toLog10Lo]
    have hpos : 0 < log2TenHi := by exact_mod_cast hT0
    have := Nat.lt_mul_of_div_lt (Nat.lt_succ_self (lo * 2 ^ logDigits / log2TenHi)) hpos
    exact_mod_cast this.le
  by_contra hcon
  have hlt : ((lo * 2 ^ logDigits : Nat) : ℝ) / log2TenHi < 2 ^ logDigits * (l / Real.logb 2 10) - 999 := by linarith
  rw [div_lt_iff₀ hT0] at hlt
  push_cast at hlt
  clear hdiv hcon
  generalize (log2TenHi : ℝ) = H at *
  generalize (2 : ℝ) ^ logDigits = N at *
  generalize Real.logb 2 10 = c at *
  have hc0 : 0 < c := by linarith
  have hq : l / c * c = l := by field_simp
  have hq0 : 0 ≤ l / c := by positivity
  have hq1 : l / c ≤ 400 := by rw [div_le_iff₀ hc0]; linarith
  generalize l / c = q at *
  subst hq
  have hpos : 0 ≤ N * q - 999 := by
    by_contra hneg
    have : (N * q - 999) * H < 0 := mul_neg_of_neg_of_pos (not_le.mp hneg) hT0
    have : (0 : ℝ) ≤ lo * N := by positivity
    linarith
  have h1 := mul_le_mul_of_nonneg_left hT hpos
  have h2 : N * (N * (q * c)) ≤ N * (lo + 2) := mul_le_mul_of_nonneg_left h (by linarith)
  nlinarith [mul_nonneg (show (0 : ℝ) ≤ N by linarith) hq0, mul_nonneg (show (0 : ℝ) ≤ N by linarith) hc0.le,
    mul_le_mul_of_nonneg_left hq1 (show (0 : ℝ) ≤ N by linarith), mul_le_mul_of_nonneg_left hc (show (0 : ℝ) ≤ N by linarith)]

theorem toLog10Hi_close {hi : Nat} {l : ℝ} (h0 : 0 ≤ l) (hl : l ≤ 1100) (h : (hi : ℝ) ≤ 2 ^ logDigits * l + 2) :
    (toLog10Hi hi : ℝ) ≤ 2 ^ logDigits * (l / Real.logb 2 10) + 1000 := by
  have hc := three_le_logb_ten
  have hT := log2Ten_close.2
  obtain ⟨-, -, hT0⟩ := log2Ten_bounds
  have hN : (1 : ℝ) ≤ 2 ^ logDigits := one_le_pow₀ (by norm_num)
  have hdiv : (toLog10Hi hi : ℝ) ≤ ((hi * 2 ^ logDigits : Nat) : ℝ) / log2TenLo + 1 := by
    rw [← sub_le_iff_le_add, le_div_iff₀ hT0, toLog10Hi]
    have h1 := Nat.div_mul_le_self (hi * 2 ^ logDigits + (log2TenLo - 1)) log2TenLo
    have hpos : 0 < log2TenLo := by exact_mod_cast hT0
    have h2 : (hi * 2 ^ logDigits + (log2TenLo - 1)) / log2TenLo * log2TenLo ≤ hi * 2 ^ logDigits + log2TenLo := by omega
    have h3 : (((hi * 2 ^ logDigits + (log2TenLo - 1)) / log2TenLo : ℕ) : ℝ) * log2TenLo ≤
        ((hi * 2 ^ logDigits : ℕ) : ℝ) + log2TenLo := by exact_mod_cast h2
    linarith
  refine hdiv.trans ?_
  have hgoal : ((hi * 2 ^ logDigits : Nat) : ℝ) / log2TenLo ≤ 2 ^ logDigits * (l / Real.logb 2 10) + 999 := by
    rw [div_le_iff₀ hT0]
    push_cast
    clear hdiv
    generalize (log2TenLo : ℝ) = H at *
    generalize (2 : ℝ) ^ logDigits = N at *
    generalize Real.logb 2 10 = c at *
    have hc0 : 0 < c := by linarith
    have hq : l / c * c = l := by field_simp
    have hq0 : 0 ≤ l / c := by positivity
    have hq1 : l / c ≤ 400 := by rw [div_le_iff₀ hc0]; linarith
    generalize l / c = q at *
    subst hq
    have hN0 : (0 : ℝ) ≤ N := by linarith
    have h1 := mul_le_mul_of_nonneg_left hT (show 0 ≤ N * q + 999 by positivity)
    have h2 : (hi : ℝ) * N ≤ (N * (q * c) + 2) * N := mul_le_mul_of_nonneg_right h hN0
    nlinarith [mul_nonneg hN0 hq0, mul_le_mul_of_nonneg_left hq1 hN0, mul_le_mul_of_nonneg_left hc hN0]
  linarith

/-- A width of 2000 units is below `2^-240`. -/
theorem width_of_units {hi lo : ℝ} (h : hi - lo ≤ 2000) : (hi - lo) * 2 ^ (-(logDigits : ℤ)) ≤ 2 ^ (-240 : ℤ) := by
  refine (mul_le_mul_of_nonneg_right h (two_zpow_pos _).le).trans ?_
  have : (2000 : ℝ) ≤ 2 ^ (16 : ℤ) := by norm_num
  refine (mul_le_mul_of_nonneg_right this (two_zpow_pos _).le).trans (le_of_eq ?_)
  rw [← zpow_add₀ (by norm_num)]
  congr 1

theorem encloseLog10_width {m : Nat} {e : ℤ} (hm : m ≠ 0) (h1 : 0 ≤ (m.log2 : ℤ) + e) (hlog : m.log2 ≤ logPrecision)
    (hbig : (m.log2 : ℤ) + e < 1024) :
    (((encloseLog10 m e).hi : ℝ) - (encloseLog10 m e).lo) * 2 ^ (encloseLog10 m e).exp ≤ 2 ^ (-240 : ℤ) := by
  have hE : ((((m.log2 : ℤ) + e).toNat : Nat) : ℝ) = m.log2 + e := by
    have : (((m.log2 : ℤ) + e).toNat : ℤ) = m.log2 + e := Int.toNat_of_nonneg h1
    exact_mod_cast this
  have hv := logb_value hm e
  obtain ⟨hl0, hl1⟩ : 0 ≤ Real.logb 2 (m * 2 ^ e) ∧ Real.logb 2 (m * 2 ^ e) ≤ 1100 := by
    have hx0 : (0 : ℝ) < m * 2 ^ e := mul_pos (by exact_mod_cast Nat.pos_of_ne_zero hm) (two_zpow_pos e)
    have hlt := value_lt (m := m) e
    constructor
    · exact Real.logb_nonneg (by norm_num) ((one_le_iff hm e).mpr h1)
    · rw [Real.logb_le_iff_le_rpow (by norm_num) hx0]
      refine hlt.le.trans ?_
      rw [show (1100 : ℝ) = ((1100 : ℤ) : ℝ) by norm_num, Real.rpow_intCast]
      exact zpow_le_zpow_right₀ (by norm_num) (by omega)
  have hlo := toLog10Lo_close (lo := ((m.log2 : ℤ) + e).toNat * 2 ^ logDigits + log2FracLo m) hl0 hl1 (by
    have := log2FracLo_close hm hlog
    rw [hv]; push_cast; rw [hE]; linarith)
  have hhi := toLog10Hi_close (hi := ((m.log2 : ℤ) + e).toNat * 2 ^ logDigits + log2FracHi m) hl0 hl1 (by
    have := log2FracHi_close hm hlog
    rw [hv]; push_cast; rw [hE]; linarith)
  apply width_of_units
  simp only [encloseLog10]
  have a1 : ((toLog10Lo (((m.log2 : ℤ) + e).toNat * 2 ^ logDigits + log2FracLo m) : ℕ) : ℝ) ≤
      ((max (toLog10Lo (((m.log2 : ℤ) + e).toNat * 2 ^ logDigits + log2FracLo m))
        (floorLog10 309 (intPart m e) * 2 ^ logDigits) : ℕ) : ℝ) := by exact_mod_cast le_max_left _ _
  have a2 : ∀ c : ℕ, ((min (toLog10Hi (((m.log2 : ℤ) + e).toNat * 2 ^ logDigits + log2FracHi m)) c : ℕ) : ℝ) ≤
      toLog10Hi (((m.log2 : ℤ) + e).toNat * 2 ^ logDigits + log2FracHi m) := fun c => by
    exact_mod_cast min_le_left _ _
  have a3 := a2 ((if isPow10 m e (floorLog10 309 (intPart m e)) = true then floorLog10 309 (intPart m e)
    else floorLog10 309 (intPart m e) + 1) * 2 ^ logDigits)
  linarith

theorem encloseNegLog10_width {m : Nat} {e : ℤ} (hm : m ≠ 0) (h1 : (m.log2 : ℤ) + e < 0) (hlog : m.log2 ≤ logPrecision)
    (hsmall : -1074 ≤ e) :
    (((encloseNegLog10 m e).hi : ℝ) - (encloseNegLog10 m e).lo) * 2 ^ (encloseNegLog10 m e).exp ≤ 2 ^ (-240 : ℤ) := by
  have hE : (((-((m.log2 : ℤ) + e)).toNat : Nat) : ℝ) = -(m.log2 + e) := by
    have : ((-((m.log2 : ℤ) + e)).toNat : ℤ) = -(m.log2 + e) := Int.toNat_of_nonneg (by omega)
    exact_mod_cast this
  have hv := logb_value hm e
  obtain ⟨hl0, hl1⟩ : 0 ≤ -Real.logb 2 (m * 2 ^ e) ∧ -Real.logb 2 (m * 2 ^ e) ≤ 1100 := by
    have hx0 : (0 : ℝ) < m * 2 ^ e := mul_pos (by exact_mod_cast Nat.pos_of_ne_zero hm) (two_zpow_pos e)
    constructor
    · have hx1 : (m : ℝ) * 2 ^ e ≤ 1 := by
        by_contra hc
        have := (one_le_iff hm e).mp (not_le.mp hc).le
        omega
      have := Real.logb_nonpos (b := 2) (by norm_num) hx0.le hx1
      linarith
    · rw [neg_le, Real.le_logb_iff_rpow_le (by norm_num) hx0, show (-1100 : ℝ) = ((-1100 : ℤ) : ℝ) by norm_num,
        Real.rpow_intCast]
      refine le_trans (zpow_le_zpow_right₀ (by norm_num) ?_) (le_value hm e)
      omega
  have hle : (log2FracHi m : ℝ) ≤ 2 ^ logDigits := by exact_mod_cast log2FracHi_le m
  have hNge : 2 ^ logDigits ≤ (-((m.log2 : ℤ) + e)).toNat * 2 ^ logDigits :=
    Nat.le_mul_of_pos_left _ (by omega)
  have hsub1 : log2FracHi m ≤ (-((m.log2 : ℤ) + e)).toNat * 2 ^ logDigits := (log2FracHi_le m).trans hNge
  have hsub2 : log2FracLo m ≤ (-((m.log2 : ℤ) + e)).toNat * 2 ^ logDigits := (log2FracLo_lt m).le.trans hNge
  have hlo := toLog10Lo_close (lo := (-((m.log2 : ℤ) + e)).toNat * 2 ^ logDigits - log2FracHi m) hl0 hl1 (by
    have := log2FracHi_close hm hlog
    rw [hv, Nat.cast_sub hsub1]; push_cast; rw [hE]; linarith)
  have hhi := toLog10Hi_close (hi := (-((m.log2 : ℤ) + e)).toNat * 2 ^ logDigits - log2FracLo m) hl0 hl1 (by
    have := log2FracLo_close hm hlog
    rw [hv, Nat.cast_sub hsub2]; push_cast; rw [hE]; linarith)
  apply width_of_units
  simp only [encloseNegLog10]
  linarith

/-! ### Representable values and an enclosure -/

/-- Where the rounded bounds are adjacent or equal, no representable value lies inside the enclosure. -/
theorem nothing_inside {b : Enclosure} (h : roundMag .up b.hi b.exp ≤ roundMag .down b.lo b.exp + 1)
    {c : Word64} (hc : isFinite c = true) :
    ¬ ((b.lo : ℝ) * 2 ^ b.exp < |(f64 c : ℝ)| ∧ |(f64 c : ℝ)| < b.hi * 2 ^ b.exp) := by
  rintro ⟨h1, h2⟩
  rw [f64_abs hc] at h1 h2
  have hci := (isFinite_iff c).mp hc
  obtain ⟨D, hD, -, hD2⟩ := roundMag_down_spec b.lo b.exp
  obtain ⟨U, hU, hU1, -⟩ := roundMag_up_spec b.hi b.exp
  obtain ⟨D', hD', hD'1, -⟩ := roundMag_down_spec b.lo b.exp
  have hlt1 : D' < magBits c := magVal_strictMono.lt_iff_lt.mp (lt_of_le_of_lt hD'1 h1)
  have hlt2 : magBits c < U := magVal_strictMono.lt_iff_lt.mp (lt_of_lt_of_le h2 hU1)
  omega

end Sys2Proof.Machine
end

