-- ==== Sys2Proof/Tests/Slice0.lean ====
section
/-! SUPPORT. The model's own tests. Expected results are those of spec/95_test_vectors.md and of the rules' examples;
a vector marked [NUM] there is taken under the reference numerics. The last section shows, for every statement with
hypotheses, data that meet them together. -/

namespace Sys2Proof.Tests

set_option Elab.async false

open Sys2Proof Sys2Proof.Machine

/-! ### Decoding: words written from the tables of R89 and R93 (T-ENC) -/

theorem test_decode_nop : decode 0x00000000 = .command .nop := by decide
theorem test_decode_cadd : decode 0x10FFF000 = .command (.cadd 15 15 15) := by decide
theorem test_decode_cadd_illegal : decode 0x10FFF001 = .illegal (.mustBeZero 0x10FFF001) := by decide
theorem test_decode_csub : decode 0x11846000 = .command (.csub 8 4 6) := by decide
theorem test_decode_cmul : decode 0x12433000 = .command (.cmul 4 3 3) := by decide
theorem test_decode_cconj : decode 0x13640000 = .command (.cconj 6 4) := by decide
theorem test_decode_cmag : decode 0x14540000 = .command (.cmag 5 4) := by decide
theorem test_decode_cmag_illegal : decode 0x14211000 = .illegal (.mustBeZero 0x14211000) := by decide
theorem test_decode_cpolar : decode 0x15312000 = .command (.cpolar 3 1 2) := by decide
theorem test_decode_fft1d : decode 0x20000000 = .command (.fft1d false) := by decide
theorem test_decode_fft1d_ns : decode 0x20000001 = .command (.fft1d true) := by decide
theorem test_decode_fft1d_illegal : decode 0x20000002 = .illegal (.mustBeZero 0x20000002) := by decide
theorem test_decode_ifft1d : decode 0x21000000 = .command .ifft1d := by decide
theorem test_decode_gray : decode 0x30010000 = .command (.gray .p1) := by decide
theorem test_decode_pad : decode 0x31010000 = .command (.pad .p0 .p1) := by decide
theorem test_decode_pad_aliased : decode 0x31110000 = .command (.pad .p1 .p1) := by decide
theorem test_decode_pad_illegal : decode 0x31200000 = .illegal (.mustBeZero 0x31200000) := by decide
theorem test_decode_fwd2d : decode 0x32010000 = .command (.fwd2d .p1) := by decide
theorem test_decode_fwd2d_illegal : decode 0x32100000 = .illegal (.mustBeZero 0x32100000) := by decide
theorem test_decode_inv2d : decode 0x33100000 = .command (.inv2d .p1) := by decide
theorem test_decode_inv2d_illegal : decode 0x33010000 = .illegal (.mustBeZero 0x33010000) := by decide
theorem test_decode_vis : decode 0x34100000 = .command (.vis .p1) := by decide
theorem test_decode_unassigned : decode 0x16000000 = .illegal (.unassignedOpcode 0x16) ∧
    decode 0x22000000 = .illegal (.unassignedOpcode 0x22) ∧ decode 0x35000000 = .illegal (.unassignedOpcode 0x35) ∧
    decode 0xFFFFFFFF = .illegal (.unassignedOpcode 0xFF) := by decide

/-- R93: the assembler's spellings, `FFT1D.PS` the same command as `FFT1D`. -/
theorem test_assemble : assemble "CADD" [.c 3, .c 1, .c 2] = some (.cadd 3 1 2) ∧
    assemble "FFT1D.PS" [] = assemble "FFT1D" [] ∧ assemble "PAD" [.p .p1, .p .p0] = some (.pad .p1 .p0) ∧
    assemble "PAD" [.p .p1] = none := by decide

theorem test_decodeTableWord : decodeTableWord 32 0x12312000 = some (.cmul 3 1 2) ∧
    decodeTableWord 32 0x01000000 = none := by decide

/-! ### Ill-formed host accesses are refused by name (R55, R58) -/

theorem test_reg_size : (HostEvent.memRead .reg 0 8).wellFormed = false ∧
    event (.memRead .reg 0 8) State.reset = .refused .accessSize := ⟨by decide, rfl⟩

theorem test_pix_size : (HostEvent.memWrite .pix0 0 4 0).wellFormed = false ∧
    event (.memWrite .pix0 0 4 0) State.reset = .refused .accessSize := ⟨by decide, rfl⟩

theorem test_reg_index : (HostEvent.memRead .reg 64 4).wellFormed = false ∧
    event (.memRead .reg 64 4) State.reset = .refused .accessIndex := ⟨by decide, rfl⟩

theorem test_creg_index : (HostEvent.memWrite .creg 32 8 0).wellFormed = false ∧
    event (.memWrite .creg 32 8 0) State.reset = .refused .accessIndex := ⟨by decide, rfl⟩

theorem test_vec_index : (HostEvent.memRead .vec (2 * Config.nmax) 8).wellFormed = false := by
  simp [HostEvent.wellFormed, HostEvent.indexOk, Space.elems]

theorem test_grid_index : (HostEvent.memRead .grid (2 * Config.nmax ^ 2) 8).wellFormed = false := by
  simp [HostEvent.wellFormed, HostEvent.indexOk, Space.elems]

theorem test_pix_index : (HostEvent.memRead .pix1 (4 * Config.nmax ^ 2) 1).wellFormed = false := by
  simp [HostEvent.wellFormed, HostEvent.indexOk, Space.elems]

theorem test_value : (HostEvent.memWrite .creg 0 8 (2 ^ 64)).wellFormed = false ∧
    event (.memWrite .creg 0 8 (2 ^ 64)) State.reset = .refused .accessValue := ⟨by decide, rfl⟩

theorem test_access_ok : (HostEvent.memWrite .creg 31 8 (2 ^ 64 - 1)).wellFormed = true := by decide

/-! ### Scalar numerics (T-NUM) -/

/-- The numerics the vectors are taken under. -/
abbrev fp : Fpu := Fpu.reference

theorem test_fmul_underflow : fmul fp 0x16687E92154EF7AC 0x16687E92154EF7AC = 0x0000000000000000 := by decide +kernel
theorem test_nan_cases : isNaN (fmul fp 0x7FF0000000000000 0x8000000000000000) = true ∧
    isNaN (fsub fp 0x7FF0000000000000 0x7FF0000000000000) = true ∧ isNaN (fdiv fp F0 F0) = true := by decide +kernel
theorem test_zero_signs : fadd fp 0x8000000000000000 0x8000000000000000 = 0x8000000000000000 ∧
    fadd fp 0x8000000000000000 F0 = F0 ∧ fsub fp 0x8000000000000000 F0 = 0x8000000000000000 ∧
    fsub fp 0x8000000000000000 0x8000000000000000 = F0 := by decide +kernel
theorem test_angle : fmul fp (fdiv fp NEG_TWO_PI (intToF64 8)) (intToF64 (-3)) = 0x4002D97C7F3321D2 ∧
    fmul fp (fdiv fp NEG_TWO_PI (intToF64 8)) F0 = 0x8000000000000000 := by decide +kernel
theorem test_fdiv_third : fdiv fp F1 0x4008000000000000 = 0x3FD5555555555555 := by decide +kernel
theorem test_fsqrt_two : fsqrt fp 0x4000000000000000 = 0x3FF6A09E667F3BCD := by decide +kernel
theorem test_ffloor : ffloor fp 0x406FDFFFFFFFFFFF = 0x406FC00000000000 ∧
    ffloor fp 0xBFF8000000000000 = 0xC000000000000000 := by decide +kernel
theorem test_flog10 : flog10 fp 0x408FE80000000000 = 0x4008127C1698AEEC := by decide +kernel
theorem test_sincos : (fcos fp 0x4002D97C7F3321D2, fsin fp 0x4002D97C7F3321D2) =
    (0xBFE6A09E667F3BCC, 0x3FE6A09E667F3BCD) := by decide +kernel
theorem test_sincos_pi : (fcos fp PI64, fsin fp PI64) = (0xBFF0000000000000, 0x3CA1A62633145C07) := by decide +kernel
theorem test_toU8 : toU8 0x406FDFFFFFFFFFFF = 254 ∧ toU8 0xC014000000000000 = 0 ∧ toU8 0x7FF0000000000000 = 255 ∧
    toU8 0x40530FAE147AE148 = 76 ∧ toU8 0x7FF8000000000000 = 0 := by decide +kernel
theorem test_nextPow2 : [0, 1, 2, 3, 4, 5, 64, 65, 128, 129].map nextPow2 = [1, 1, 2, 4, 4, 8, 64, 128, 128, 256] := by
  decide +kernel
theorem test_isPow2 : [0, 1, 2, 3, 4, 6, 64].map isPow2 = [false, true, true, false, true, false, true] := by decide

/-! ### The complex unit (T-CPX), through `step` where the result needs no `NUM` -/

/-- A state with two registers set. -/
def withRegs (a b : Sample) : State := writeC 2 b (writeC 1 a State.reset)

/-- The state of an answer. -/
def stateOf (r : Result) : State :=
  match r with
  | .next s => s
  | .fault _ => State.reset
  | .refused _ => State.reset

/-- The state after the step that runs the word. -/
def after (w : Nat) (s : State) : State := stateOf (step (s.withFetchWord 32 w))

theorem test_cadd : readC (after 0x10312000 (withRegs ⟨0x3FF0000000000000, 0x4000000000000000⟩
    ⟨0x4008000000000000, 0xC010000000000000⟩)) 3 = ⟨0x4010000000000000, 0xC000000000000000⟩ := by decide +kernel
theorem test_csub : readC (after 0x11312000 (withRegs ⟨0x3FF0000000000000, 0x4000000000000000⟩
    ⟨0x4008000000000000, 0xC010000000000000⟩)) 3 = ⟨0xC000000000000000, 0x4018000000000000⟩ := by decide +kernel
theorem test_cmul : readC (after 0x12312000 (withRegs ⟨0x3FB999999999999A, 0x3FC999999999999A⟩
    ⟨0x3FD3333333333333, 0x3FD999999999999A⟩)) 3 = ⟨0xBFA999999999999C, 0x3FB999999999999A⟩ := by decide +kernel
theorem test_cmul_in_place : readC (after 0x12111000 (withRegs ⟨0x3FF0000000000000, 0x4000000000000000⟩ zeroSample)) 1 =
    ⟨0xC008000000000000, 0x4010000000000000⟩ := by decide +kernel
theorem test_cconj : readC (after 0x13310000 (withRegs ⟨0x3CD0000000000000, 0x4010000000000000⟩ zeroSample)) 3 =
    ⟨0x3CD0000000000000, 0xC010000000000000⟩ := by decide +kernel
theorem test_cmag : readC (after 0x14210000 (withRegs ⟨0x4008000000000000, 0x4010000000000000⟩ zeroSample)) 2 =
    ⟨0x4014000000000000, 0x0000000000000000⟩ := by decide +kernel
theorem test_cmag_root : Cmag fp ⟨F1, F1⟩ = 0x3FF6A09E667F3BCD := by decide +kernel
theorem test_cpolar : Cpolar fp 0x4000000000000000 0x3FE921FB54442D18 = ⟨0x3FF6A09E667F3BCD, 0x3FF6A09E667F3BCC⟩ := by
  decide +kernel
theorem test_cpolar_zero : readC (after 0x15312000 (withRegs ⟨0xC000000000000000, 0x7FF8000000000000⟩
    ⟨0x0000000000000000, 0x7FF8000000000000⟩)) 3 = ⟨0xC000000000000000, 0x8000000000000000⟩ := by decide +kernel

/-! ### The transforms (T-FFT, T-IFFT) -/

/-- A real sequence. -/
def reals (l : List Int) : Samples := l.map fun n => ⟨intToF64 n, F0⟩

theorem test_fft1d_ns : Fft1 fp false 2 (reals [1, 2, 3, 4]) =
    [⟨0x4024000000000000, 0x0000000000000000⟩, ⟨0xC000000000000000, 0x4000000000000000⟩,
      ⟨0xC000000000000000, 0x0000000000000000⟩, ⟨0xBFFFFFFFFFFFFFFF, 0xC000000000000000⟩] := by decide +kernel
theorem test_fft1d : Fft1 fp true 2 (reals [1, 2, 3, 4]) =
    [⟨0x0000000000000000, 0xBCBA79394C9E8A0A⟩, ⟨0x4010000000000001, 0x4018000000000000⟩,
      ⟨0xC010000000000000, 0x3CD3DAEAF976E788⟩, ⟨0x400FFFFFFFFFFFFE, 0xC018000000000000⟩] := by decide +kernel
theorem test_fftIter : FftIter fp true 2 (reals [1, 2, 3, 4]) = Fft1 fp true 2 (reals [1, 2, 3, 4]) := by decide +kernel
theorem test_fft1d_guard : Fft1 fp false 1 [⟨0x7FF8000000000000, F1⟩, ⟨0x4014000000000000, F0⟩] =
    [⟨0x4014000000000000, F0⟩, ⟨0xC014000000000000, F0⟩] := by decide +kernel
theorem test_ifft1d : Ifft1 fp 2 [⟨0x4024000000000000, F0⟩, ⟨0xC000000000000000, 0x4000000000000000⟩,
      ⟨0xC000000000000000, F0⟩, ⟨0xC000000000000000, 0xC000000000000000⟩] =
    [⟨0x4010000000000000, 0x8000000000000000⟩, ⟨0x4020000000000000, 0x3CB1A62633145C07⟩,
      ⟨0x4028000000000000, 0x8000000000000000⟩, ⟨0x4030000000000000, 0xBCB1A62633145C07⟩] := by decide +kernel
theorem test_ifft1d_guard : Ifft1 fp 0 [⟨0x7FF8000000000000, 0x4008000000000000⟩] = [⟨F0, 0x8000000000000000⟩] := by
  decide +kernel

/-! ### Images (T-LUMA, T-GRAY, T-PAD, T-2D, T-VIS) -/

theorem test_luma : Luma fp 255 0 0 = 0x40530FAE147AE148 ∧ Luma fp 0 255 0 = 0x4062B5EB851EB852 ∧
    Luma fp 0 0 255 = 0x403D11EB851EB852 ∧ Luma fp 200 100 50 = 0x405F0CCCCCCCCCCD := by decide +kernel

/-- T-GRAY-02: the first grid index is the column, alpha is ignored. -/
theorem test_gray : Gray fp (fun x y => if x = 0 then (if y = 0 then ⟨255, 0, 0, 0⟩ else ⟨0, 0, 255, 255⟩)
      else (if y = 0 then ⟨0, 255, 0, 7⟩ else ⟨12, 34, 56, 1⟩)) 2 =
    [[⟨0x40530FAE147AE148, F0⟩, ⟨0x403D11EB851EB852, F0⟩], [⟨0x4062B5EB851EB852, F0⟩, ⟨0x403DEE147AE147AF, F0⟩]] := by
  decide +kernel

/-- T-PAD-04, T-PAD-05, T-PAD-07 to T-PAD-09: the side of the canvas. -/
theorem test_pad_side : padSide 65 1 = 128 ∧ padSide 3 2 = 4 ∧ padSide 5 5 = 8 ∧ padSide 0 0 = 1 ∧ padSide 0 3 = 4 := by
  decide +kernel

/-- T-PAD-05: a 3 by 2 image stands at `ox = 0`, `oy = 1` of the 4 by 4 canvas. -/
theorem test_pad_place : padPixel (fun x y => ⟨BitVec.ofNat 8 x, BitVec.ofNat 8 y, 9, 128⟩) 3 2 2 2 = ⟨2, 1, 9, 128⟩ ∧
    padPixel (fun _ _ => ⟨0, 0, 0, 0⟩) 3 2 3 1 = whitePixel ∧ padPixel (fun _ _ => ⟨0, 0, 0, 0⟩) 3 2 0 0 = whitePixel ∧
    padPixel (fun _ _ => ⟨0, 0, 0, 0⟩) 3 2 0 3 = whitePixel := by decide +kernel

/-- T-2D-01, forward. -/
theorem test_fwd2d : Fwd2DGrid fp 1 [[⟨F255, F0⟩, ⟨F255, F0⟩], [⟨F255, F0⟩, ⟨F255, F0⟩]] =
    [[⟨0xB9D36456B704D2EB, 0x0000000000000000⟩, ⟨0x39D36456B704D2EB, 0x3D3194800CE147AB⟩],
      [⟨0x0000000000000000, 0x3D3194800CE147AA⟩, ⟨0x408FE00000000000, 0xBD4194800CE147AB⟩]] := by decide +kernel

/-- T-2D-01, inverse: the grid before the magnitude. -/
theorem test_inv2d : Inv2DGrid fp 1 [[⟨0xB9D36456B704D2EB, 0x0000000000000000⟩, ⟨0x39D36456B704D2EB, 0x3D3194800CE147AB⟩],
      [⟨0x0000000000000000, 0x3D3194800CE147AA⟩, ⟨0x408FE00000000000, 0xBD4194800CE147AB⟩]] =
    [[⟨0x406FE00000000000, 0xB9D0000000000000⟩, ⟨0xC06FE00000000000, 0x3D2194800CE147AC⟩],
      [⟨0xC06FE00000000000, 0x3D2194800CE147AA⟩, ⟨0x406FE00000000000, 0xBD3194800CE147AB⟩]] := by decide +kernel

/-- T-2D-07: magnitude, truncation and saturation. -/
theorem test_inv2d_pixel : magPixel fp ⟨0x4008000000000000, 0x4010000000000000⟩ = ⟨5, 5, 5, 255⟩ ∧
    magPixel fp ⟨0xC01F99999999999A, F0⟩ = ⟨7, 7, 7, 255⟩ ∧ magPixel fp ⟨0x4072C00000000000, F0⟩ = ⟨255, 255, 255, 255⟩ :=
  by decide +kernel

/-- T-VIS-03: the greatest magnitude does not always give 255. -/
theorem test_vis : visPixel (VisValue fp 0x405F0CCCCCCCCCCD 0x405F0CCCCCCCCCCD) = ⟨254, 254, 254, 255⟩ ∧
    visPixel (VisValue fp 0x408FE00000000000 0x408FE00000000000) = ⟨255, 255, 255, 255⟩ := by decide +kernel

/-- T-VIS-02, T-VIS-05: the NaN pixel is all zero bytes, a finite magnitude under an infinite one is black. -/
theorem test_vis_nan : visPixel (VisValue fp F0 F0) = ⟨0, 0, 0, 0⟩ ∧
    visPixel (VisValue fp 0x4014000000000000 0x7FF0000000000000) = ⟨0, 0, 0, 255⟩ := by decide +kernel

theorem test_maxMag : MaxMag fp [[⟨0x7FF8000000000000, F0⟩, ⟨0x4008000000000000, 0x4010000000000000⟩], [⟨F1, F0⟩]] =
    0x4014000000000000 := by decide +kernel

/-! ### The host port, rejection and reset (program P4, T-REG) -/

/-- The status word after the step that runs the word from reset. -/
def statusAfter (w : Nat) (s : State) : Word32 := statusWord (after w s)

theorem test_status_illegal : statusAfter 0xFF000000 State.reset = 0x00000101 := by decide +kernel
theorem test_status_aliased : statusAfter 0x31000000 State.reset = 0x00000104 := by decide +kernel
theorem test_status_nop : statusAfter 0x00000000 (after 0x31000000 State.reset) = 0x00000100 := by decide +kernel
theorem test_status_dim_mismatch (h : 2 ≤ Config.log2Nmax) :
    ∃ t, exec (.fwd2d .p0) { State.reset with pix0W := 3, pix0H := 2 } = .next t ∧ statusWord t = 0x00000102 := by
  have h4 : 2 ^ 2 ≤ Config.nmax := two_pow_le_nmax.mpr h
  have hc : CheckSquarePow2 3 2 = .error .dimMismatch := by
    unfold CheckSquarePow2
    rw [if_neg (by omega)]
    rfl
  exact ⟨_, runBody_error (show bodyFwd2d .p0 _ = .error .dimMismatch by simp [bodyFwd2d, pixW, pixH, hc]), rfl⟩

/-- FFT1D runs as the first command after reset: `VEC_LOG2N = 0` is within every capacity. -/
theorem test_fft1d_from_reset : (after 0x20000001 State.reset).lastErr = 0 ∧ (after 0x21000000 State.reset).lastErr = 0 := by
  decide +kernel

/-- INV2D and VIS run on the grid of side 1 that reset leaves, PAD on the empty image. -/
theorem test_images_from_reset : (after 0x33000000 State.reset).pix0W = 1 ∧ (after 0x34100000 State.reset).pix1H = 1 ∧
    (after 0x31100000 State.reset).pix1W = 1 := by decide +kernel

/-- GRAY and FWD2D complete on an image of side 1 and leave `GRID_LOG2N = 0`. -/
theorem test_side_one : ∀ i ∈ [Instr.gray .p0, Instr.fwd2d .p0],
    ∃ t, exec i { State.reset with pix0W := 1, pix0H := 1, gridLog2n := 5 } = .next t ∧ t.lastErr = 0 ∧
      t.gridLog2n = 0 := by
  have hc : CheckSquarePow2 (1 : BitVec 16).toNat (1 : BitVec 16).toNat = .ok 0 := by simpa using checkSquarePow2_of (n := 0) (Nat.zero_le _)
  intro i hi
  simp only [List.mem_cons, List.not_mem_nil, or_false] at hi
  rcases hi with rfl | rfl
  · exact ⟨_, runBody_ok (by simp only [bodyGray, pixW, pixH]; rw [hc]),
      rfl, rfl⟩
  · exact ⟨_, runBody_ok (by simp only [bodyFwd2d, pixW, pixH]; rw [hc]),
      rfl, rfl⟩

/-! ### Witnesses: for each statement with hypotheses, data that meet them together, at the ends of their ranges -/

/-- Buffer 0 and buffer 1 with one width and one height, and both logarithms set. -/
def sized (w h n : Nat) : State :=
  { State.reset with
    pix0W := BitVec.ofNat 16 w, pix0H := BitVec.ofNat 16 h, pix1W := BitVec.ofNat 16 w, pix1H := BitVec.ofNat 16 h
    gridLog2n := BitVec.ofNat 5 n, vecLog2n := BitVec.ofNat 5 n }

theorem sized_canonical (w h n : Nat) : (sized w h n).canonical = true := rfl

theorem sized_pixW {w : Nat} (h n : Nat) (hw : w ≤ Config.nmax + 1) (k : PixBuf) : pixW (sized w h n) k = w := by
  have := nmax_le
  cases k <;> simp only [sized, pixW, BitVec.toNat_ofNat] <;> omega

theorem sized_pixH {h : Nat} (w n : Nat) (hh : h ≤ Config.nmax + 1) (k : PixBuf) : pixH (sized w h n) k = h := by
  have := nmax_le
  cases k <;> simp only [sized, pixH, BitVec.toNat_ofNat] <;> omega

theorem sized_logs {n : Nat} (w h : Nat) (hn : n ≤ Config.log2Nmax + 1) :
    vecLog (sized w h n) = n ∧ gridLog (sized w h n) = n := by
  have := log2Nmax_le
  constructor <;> simp only [sized, vecLog, gridLog, BitVec.toNat_ofNat] <;> omega

theorem witness_DecodeInvertsEncode : (Instr.cpolar 15 0 15).wellFormed = true := by decide

theorem witness_EncodeInvertsDecode : decode 0x31110000 = .command (.pad .p1 .p1) := by decide

theorem witness_IllegalWordRejected : (∀ row ∈ opcodeTable, row.op ≠ (0x01FFFFFF : Word32).extractLsb' 24 8) ∧
    ∃ row ∈ opcodeTable, row.op = (0x10FFF001 : Word32).extractLsb' 24 8 ∧ 0x10FFF001 &&& row.mask ≠ row.value :=
  ⟨by decide, _, .tail _ (.head _), by decide, by decide⟩

theorem witness_ResetControlRegisters : ∃ s t : State, s.lastErr = 5 ∧ event .reset s = .next t :=
  ⟨{ State.reset with lastErr := 5 }, _, rfl, rfl⟩

theorem witness_StatusRegister : ∃ s t : State, s.lastErr.toNat ≤ 5 ∧ s.lastErr = 5 ∧ step s = .next t :=
  ⟨{ State.reset with lastErr := 5, sticky := true, inbox := [RegWrite 1 0] }, _, by decide, rfl, rfl⟩

theorem witness_RejectionChangesStatusAlone : ∃ t, execute 0xFFFFFFFF State.reset = .next t ∧ t.lastErr ≠ 0 :=
  ⟨_, rfl, by decide⟩

theorem witness_RejectionCodeByPriority_illegal : ∀ i, decode 0xFF000000 ≠ .command i := by
  intro i h
  rw [show decode 0xFF000000 = .illegal (.unassignedOpcode 0xFF) by decide] at h
  cases h

theorem witness_RejectionCodeByPriority_capacity (k : PixBuf) :
    Config.nmax < pixW (sized (Config.nmax + 1) 0 0) k ∧ Config.nmax < pixH (sized 0 (Config.nmax + 1) 0) k := by
  rw [sized_pixW _ _ le_rfl, sized_pixH _ _ le_rfl]
  omega

theorem witness_RejectionCodeByPriority_mismatch (k : PixBuf) : pixW (sized Config.nmax 0 0) k ≤ Config.nmax ∧
    pixH (sized Config.nmax 0 0) k ≤ Config.nmax ∧ pixW (sized Config.nmax 0 0) k ≠ pixH (sized Config.nmax 0 0) k := by
  have := nmax_pos
  rw [sized_pixW _ _ (by omega), sized_pixH _ _ (by omega)]
  omega

theorem witness_RejectionCodeByPriority_unsupported (k : PixBuf) : pixW (sized 0 0 0) k ≤ Config.nmax ∧
    pixW (sized 0 0 0) k = pixH (sized 0 0 0) k ∧ ∀ n, pixW (sized 0 0 0) k ≠ 2 ^ n := by
  rw [sized_pixW _ _ (by omega), sized_pixH _ _ (by omega)]
  exact ⟨Nat.zero_le _, rfl, fun n => (Nat.two_pow_pos n).ne⟩

theorem witness_RejectionCodeByPriority_logs : Config.log2Nmax < vecLog (sized 0 0 (Config.log2Nmax + 1)) ∧
    Config.log2Nmax < gridLog (sized 0 0 (Config.log2Nmax + 1)) := by
  rw [(sized_logs _ _ le_rfl).1, (sized_logs _ _ le_rfl).2]
  omega

theorem witness_NopChangesNothingElse : (0x00800000 : Word32) ≠ 0x00000000 ∧
    (0x00800000 : Word32) &&& 0xFF000000 = 0x00000000 := by decide

/-- FFT1D, IFFT1D, INV2D and VIS at the greatest size. -/
theorem witness_TransformCommands : (sized 0 0 Config.log2Nmax).canonical = true ∧
    vecLog (sized 0 0 Config.log2Nmax) ≤ Config.log2Nmax ∧ gridLog (sized 0 0 Config.log2Nmax) ≤ Config.log2Nmax := by
  rw [(sized_logs _ _ (by omega)).1, (sized_logs _ _ (by omega)).2]
  exact ⟨rfl, le_rfl, le_rfl⟩

/-- GRAY and FWD2D at the greatest and at the least size. -/
theorem witness_ImageCommands (k : PixBuf) : ∀ n ∈ [0, Config.log2Nmax],
    (sized (2 ^ n) (2 ^ n) 0).canonical = true ∧ n ≤ Config.log2Nmax ∧ pixW (sized (2 ^ n) (2 ^ n) 0) k = 2 ^ n ∧
      pixH (sized (2 ^ n) (2 ^ n) 0) k = 2 ^ n := by
  intro n hn
  have hle : n ≤ Config.log2Nmax := by
    simp only [List.mem_cons, List.not_mem_nil, or_false] at hn
    omega
  have := two_pow_le_nmax.mpr hle
  exact ⟨rfl, hle, sized_pixW _ _ (by omega) k, sized_pixH _ _ (by omega) k⟩

theorem witness_PadCommand : PixBuf.p1 ≠ PixBuf.p0 ∧ (sized Config.nmax 0 0).canonical = true ∧
    pixW (sized Config.nmax 0 0) .p0 ≤ Config.nmax ∧ pixH (sized Config.nmax 0 0) .p0 ≤ Config.nmax := by
  rw [sized_pixW _ _ (by omega), sized_pixH _ _ (by omega)]
  exact ⟨by decide, rfl, le_rfl, Nat.zero_le _⟩

theorem witness_StepRunsDecodedCommand : decode 0x31110000 = .command (.pad .p1 .p1) ∧
    ({ State.reset with inbox := [RegWrite 1 0x31110000, .reset] } : State).inbox = RegWrite 1 0x31110000 :: [.reset] :=
  ⟨by decide, rfl⟩

theorem witness_StepStopsOnlyOutsideThePort : State.reset.inbox = [] ∧
    ({ State.reset with inbox := [RegRead 63] } : State).inbox = RegRead 63 :: [] ∧
    (HostEvent.memRead .reg 64 4).wellFormed = false := ⟨rfl, rfl, by decide⟩

theorem witness_DataAccesses : State.reset.canonical = true ∧ Space.creg ≠ .reg ∧ 31 < Space.creg.elems ∧
    2 * Config.nmax - 1 < Space.vec.elems ∧ 2 * Config.nmax ^ 2 - 1 < Space.grid.elems ∧
    4 * Config.nmax ^ 2 - 1 < Space.pix1.elems ∧ 2 ^ 64 - 1 < 2 ^ (8 * Space.grid.elemBytes) ∧
    255 < 2 ^ (8 * Space.pix0.elemBytes) := by
  have h := nmax_pos
  have h2 : 0 < Config.nmax ^ 2 := Nat.pow_pos h
  simp only [Space.elems, Space.elemBytes]
  refine ⟨rfl, by decide, by decide, by omega, by omega, by omega, by decide, by decide⟩

theorem witness_TypedLocationsAreDistinct : 0 < Config.nmax ∧ Config.nmax - 1 < Config.nmax :=
  ⟨nmax_pos, Nat.sub_lt nmax_pos (by decide)⟩

theorem witness_OnlyCommandsChangeStatus : ∃ t, event (RegWrite 2 5) State.reset = .next t ∧ RegWrite 2 5 ≠ .reset ∧
    ∀ w, RegWrite 2 5 ≠ RegWrite 1 w := by
  refine ⟨_, rfl, by decide, fun w h => ?_⟩
  simp [RegWrite] at h

theorem witness_StickyStaysUntilReset : ∃ s t : State, step s = .next t ∧ s.sticky = true ∧
    ∀ rest, s.inbox ≠ .reset :: rest :=
  ⟨{ State.reset with sticky := true, inbox := [RegWrite 1 0, .reset] }, _, rfl, rfl, fun rest h => by simp [RegWrite] at h⟩

theorem witness_OtherCommandsKeepComplexRegisters : ∃ t, exec (.vis .p1) State.reset = .next t ∧ t.lastErr = 0 :=
  ⟨_, rfl, by decide +kernel⟩

/-- An image of one pixel with every byte at its reset value. -/
def onePixel : State := sized 1 1 0

/-- The same with another alpha byte. -/
def otherAlpha : State :=
  { onePixel with pix0 := [(pixIndex 0 0 .a, Config.resetPix0 0 (pixIndex 0 0 .a) ^^^ 1)] }

theorem witness_AlphaNeverReachesTheGrid : onePixel.canonical = true ∧ otherAlpha.canonical = true ∧
    onePixel.draws = otherAlpha.draws ∧ pixW onePixel .p0 = pixW otherAlpha .p0 ∧
    pixH onePixel .p0 = pixH otherAlpha .p0 ∧ (readPixel onePixel .p0 0 0).a ≠ (readPixel otherAlpha .p0 0 0).a ∧
    (∀ x y, x < pixW onePixel .p0 → y < pixH onePixel .p0 →
      (readPixel onePixel .p0 x y).r = (readPixel otherAlpha .p0 x y).r ∧
      (readPixel onePixel .p0 x y).g = (readPixel otherAlpha .p0 x y).g ∧
      (readPixel onePixel .p0 x y).b = (readPixel otherAlpha .p0 x y).b) ∧
    (∀ i ∈ [Instr.gray .p0, Instr.fwd2d .p0], ∃ t t', exec i onePixel = .next t ∧ exec i otherAlpha = .next t') := by
  have hne : ∀ b : Byte, b ≠ b ^^^ 1 := by decide
  have h0 : pixIndex 0 0 .a = 3 := by simp [pixIndex, channelIndex]
  refine ⟨rfl, ?_, rfl, rfl, rfl, ?_, ?_, fun i _ => ?_⟩
  · have hb : ∀ b : Byte, (b ^^^ 1 != b) = true := by decide
    simp only [State.canonical, Bool.and_eq_true]
    refine ⟨⟨⟨rfl, rfl⟩, ?_⟩, rfl⟩
    simp only [Mem.wf, otherAlpha, onePixel, sized, State.reset, State.afterReset, pixBackground, List.all_cons,
      List.all_nil, Bool.and_true, hb]
    simp
  · simp only [readPixel, readChannel, otherAlpha, onePixel, pixMem, Mem.read, sized, State.reset, State.afterReset,
      pixBackground, h0, if_true]
    exact hne _
  · intro x y hx hy
    have hw : pixW onePixel .p0 = 1 := sized_pixW _ _ (by omega) _
    have hh : pixH onePixel .p0 = 1 := sized_pixH _ _ (by omega) _
    obtain ⟨rfl, rfl⟩ : x = 0 ∧ y = 0 := by omega
    simp [readPixel, readChannel, otherAlpha, onePixel, pixMem, Mem.read, sized, State.reset, State.afterReset,
      pixBackground, pixIndex, channelIndex]
  · obtain ⟨t, ht⟩ := exec_isNext i onePixel
    obtain ⟨t', ht'⟩ := exec_isNext i otherAlpha
    exact ⟨t, t', ht, ht'⟩

theorem witness_StepKeepsInvariant : ∃ s t : State, s.inv = true ∧ s.vec ≠ [] ∧ s.lastErr = 4 ∧ step s = .next t := by
  refine ⟨{ State.reset with
    lastErr := 4, sticky := true, vec := [(0, Config.resetVec 0 0 ^^^ 1)], inbox := [VecWrite ⟨0, nmax_pos⟩ .re 7] }, ?_⟩
  have hb : ∀ b : Word64, (b ^^^ 1 != b) = true := by
    intro b
    simp only [bne_iff_ne, ne_eq]
    intro h
    have := congrArg (fun v : Word64 => v.getLsbD 0) h
    simp at this
  have hn := nmax_pos
  have hinv : State.inv { State.reset with
      lastErr := 4, sticky := true, vec := [(0, Config.resetVec 0 0 ^^^ 1)], inbox := [VecWrite ⟨0, nmax_pos⟩ .re 7] } = true := by
    simp only [State.inv, State.canonical, State.inRange, State.statusOk, Bool.and_eq_true]
    refine ⟨⟨⟨⟨⟨?_, rfl⟩, rfl⟩, rfl⟩, ⟨⟨?_, rfl⟩, rfl⟩, rfl⟩, by decide⟩
    · simp only [Mem.wf, State.reset, State.afterReset, vecBackground, List.all_cons, List.all_nil, Bool.and_true, hb]
      simp
    · simp [Mem.below, Space.elems, hn]
  obtain ⟨t, ht⟩ := event_isNext (e := VecWrite ⟨0, nmax_pos⟩ .re 7) { State.reset with
      lastErr := 4, sticky := true, vec := [(0, Config.resetVec 0 0 ^^^ 1)], inbox := [] } (by
    simp [HostEvent.wellFormed, VecWrite, HostEvent.sizeOk, HostEvent.indexOk, HostEvent.valueOk, Space.elemBytes,
      Space.elems, vecIndex, partIndex, hn])
  exact ⟨t, hinv, by simp, rfl, ht⟩

theorem witness_FormatOfBinary64 : ((0x0010000000000000 : Word64).extractLsb' 52 11).toNat = 1 ∧
    ((0x7FEFFFFFFFFFFFFF : Word64).extractLsb' 52 11).toNat = 2046 ∧
    ((0x800FFFFFFFFFFFFF : Word64).extractLsb' 52 11).toNat = 0 ∧
    ((0x7FF0000000000000 : Word64).extractLsb' 52 11).toNat = 2047 ∧
    ((0x7FF0000000000000 : Word64).extractLsb' 0 52).toNat = 0 ∧
    ((0x8000000000000000 : Word64).extractLsb' 0 52).toNat = 0 := by decide

theorem f64_one : f64 F1 = 1 := by
  have h : unpack F1 = .fin false (2 ^ 52) (-52) := by decide +kernel
  rw [f64, h]
  norm_num

theorem witness_BasicOperationsCorrectlyRounded : isFinite 0x7FEFFFFFFFFFFFFF = true ∧ isFinite F1 = true ∧ f64 F1 ≠ 0 :=
  ⟨by decide +kernel, by decide +kernel, by rw [f64_one]; norm_num⟩

theorem witness_SquareRootCorrectlyRounded : fgt F0 0x8000000000000001 = true ∧ isNaN 0x7FF0000000000001 = true ∧
    isFinite F1 = true ∧ 0 ≤ f64 F1 := ⟨by decide +kernel, by decide +kernel, by decide +kernel, by rw [f64_one]; norm_num⟩

theorem witness_SumAndProductCommute : isNaN (fadd fp F1 0x7FF0000000000000) = false ∧
    isNaN (fmul fp F1 0x8000000000000000) = false := by decide +kernel

theorem witness_NegationAndConjugation : 0 < 63 ∧ 62 < 63 := by decide

theorem witness_NaNExactlyInTheListedCases : isNaN (fadd fp 0x7FF0000000000000 0xFFF0000000000000) = true ∧
    isNaN (fsqrt fp 0xBFF0000000000000) = true ∧ isNaN 0xFFF0000000000001 = true := by decide +kernel

theorem witness_SignedZeros : isFinite F1 = true ∧ f64 F1 ≠ 0 ∧ isNaN (fmul fp F0 0x8000000000000000) = false ∧
    isNaN (fdiv fp F1 0x8000000000000000) = false :=
  ⟨by decide +kernel, by rw [f64_one]; norm_num, by decide +kernel, by decide +kernel⟩

theorem witness_ComparisonOfValues : isNaN 0x7FF0000000000000 = false ∧ isNaN 0xFFF0000000000000 = false ∧
    isFinite 0x8000000000000000 = true ∧ isNaN 0x7FFFFFFFFFFFFFFF = true := by decide +kernel

theorem witness_SineAndCosineContract : isFinite 0x7FF0000000000000 = false ∧ isFinite 0x7FEFFFFFFFFFFFFF = true := by
  decide +kernel

theorem witness_LogarithmContract : fle F1 F1 = true ∧ fle F1 0x7FF0000000000000 = true ∧
    fgt F0 0xFFF0000000000000 = true := by decide +kernel

/-- Above and below 1, with the sine and the cosine away from zero, and an angle below `2^-27`. -/
theorem witness_ConfigurationFunctionsEnclosed : unpack 0x4000000000000000 = .fin false (2 ^ 52) (-51) ∧
    (2 : ℕ) ^ 52 ≠ 0 ∧ 0 < (encloseSin (2 ^ 52) (-51)).2.lo ∧ 0 < (encloseCos (2 ^ 52) (-51)).2.lo ∧
    (1 : ℝ) ≤ ((2 ^ 52 : ℕ) : ℝ) * 2 ^ (-51 : ℤ) ∧ unpack 0x3FE0000000000000 = .fin false (2 ^ 52) (-53) ∧
    ((2 ^ 52 : ℕ) : ℝ) * 2 ^ (-53 : ℤ) < 1 ∧ unpack 0x3E30000000000000 = .fin false (2 ^ 52) (-80) ∧
    ((2 ^ 52 : ℕ) : ℝ) * 2 ^ (-80 : ℤ) < 2 ^ (-27 : ℤ) := by
  refine ⟨by decide +kernel, by norm_num, by decide +kernel, by decide +kernel, ?_, by decide +kernel, ?_,
    by decide +kernel, ?_⟩ <;> norm_num

/-- No representable value lies inside the enclosures of `sin 2`, `cos 2`, `sin 2^-28`, `log10 2` and `log10 0.5`. -/
theorem witness_ConfigurationFunctionsEnclosed_inside (b : Enclosure)
    (hb : b ∈ [(encloseSin (2 ^ 52) (-51)).2, (encloseCos (2 ^ 52) (-51)).2, (encloseSin (2 ^ 52) (-80)).2,
      encloseLog10 (2 ^ 52) (-51), encloseNegLog10 (2 ^ 52) (-53)]) :
    ∀ c, isFinite c = true → ¬ ((b.lo : ℝ) * 2 ^ b.exp < |(f64 c : ℝ)| ∧ |(f64 c : ℝ)| < b.hi * 2 ^ b.exp) := by
  intro c hc
  have h : ∀ b ∈ [(encloseSin (2 ^ 52) (-51)).2, (encloseCos (2 ^ 52) (-51)).2, (encloseSin (2 ^ 52) (-80)).2,
      encloseLog10 (2 ^ 52) (-51), encloseNegLog10 (2 ^ 52) (-53)],
      roundMag .up b.hi b.exp ≤ roundMag .down b.lo b.exp + 1 := by decide +kernel
  exact nothing_inside (h b hb) hc

theorem f64_half : f64 0xBFE0000000000000 = -1 / 2 := by
  have h : unpack 0xBFE0000000000000 = .fin true (2 ^ 52) (-53) := by decide +kernel
  rw [f64, h]
  norm_num

theorem witness_FloorOfValues : isFinite F1 = true ∧ ¬ (-1 < f64 F1 ∧ f64 F1 < 0) ∧
    isFinite 0xBFE0000000000000 = true ∧ -1 < f64 0xBFE0000000000000 ∧ f64 0xBFE0000000000000 < 0 ∧
    isNaN 0x7FF8000000000000 = true := by
  rw [f64_one, f64_half]
  exact ⟨by decide +kernel, by norm_num, by decide +kernel, by norm_num, by norm_num, by decide +kernel⟩

theorem witness_IntegerConversionsExact : (-(2 ^ 53) : Int).natAbs ≤ 2 ^ 53 := by decide

theorem witness_ByteConversion : isNaN 0x7FF0000000000001 = true ∧ fge 0x4070000000000000 0x4070000000000000 = true ∧
    fle 0x8000000000000000 F0 = true ∧ isFinite F1 = true ∧ 0 < f64 F1 ∧ f64 F1 < 256 := by
  rw [f64_one]
  exact ⟨by decide +kernel, by decide +kernel, by decide +kernel, by decide +kernel, by norm_num, by norm_num⟩

theorem witness_PowersOfTwo : Config.nmax ≤ Config.nmax ∧ 5 ≤ 2 ^ 3 := ⟨le_rfl, by decide⟩

theorem witness_MagnitudeIsNeverNegative : isNaN (Sample.mk F1 0x7FF8000000000000).re = true ∨
    isNaN (Sample.mk F1 0x7FF8000000000000).im = true := by decide +kernel

theorem witness_UnitPolarIsExact : isNaN (fcos fp F0) = false ∧ isNaN (fsin fp F0) = false := by decide +kernel

/-- A sequence of every power-of-two length, for the statements about the transform. -/
theorem witness_TransformLengths (L : Nat) : (List.replicate (2 ^ L) zeroSample).length = 2 ^ L := List.length_replicate

theorem witness_GuardActsOnInputsOnly : isNaN (Sample.mk 0x7FF0000000000000 F0).re = false ∧
    isNaN (Sample.mk 0x7FF0000000000000 F0).im = false := by decide +kernel

theorem witness_MaxMagIsTheGreatest : ([[⟨F1, F0⟩], [⟨F0, F0⟩]] : SampleGrid).flatten.Perm
    ([[⟨F0, F0⟩, ⟨F1, F0⟩]] : SampleGrid).flatten := by decide +kernel

theorem witness_VisualizationIsMonotone : fle F0 0x4014000000000000 = true ∧
    fle 0x4014000000000000 0x405F0CCCCCCCCCCD = true ∧
    fgt (flog10 fp (fadd fp F1 0x405F0CCCCCCCCCCD)) F0 = true ∧
    fgt 0x7FF0000000000000 (flog10 fp (fadd fp F1 0x405F0CCCCCCCCCCD)) = true := by decide +kernel

/-- PAD from reset is accepted. -/
theorem witness_Padding : State.reset.canonical = true ∧ ∃ t, exec (.pad .p1 .p0) State.reset = .next t ∧ t.lastErr = 0 :=
  ⟨rfl, _, rfl, by decide +kernel⟩

theorem witness_AddingNegativeZeroCopies : ∃ s : State, readC s 2 = ⟨0x8000000000000000, 0x8000000000000000⟩ ∧
    isNaN (readC s 1).re = false ∧ isNaN (readC s 1).im = false :=
  ⟨withRegs ⟨0x8000000000000000, 0x7FF0000000000000⟩ ⟨0x8000000000000000, 0x8000000000000000⟩,
    by decide +kernel, by decide +kernel, by decide +kernel⟩

end Sys2Proof.Tests
end

section
/-! PROOFS. The control registers and `STATUS` (spec/10_state.md): what an access to a register does, what a step does to
`STATUS`, that no command reads it, and which commands leave the complex registers alone. -/

namespace Sys2Proof.Machine

/-! ### Register accesses as events (R24, R51, R222) -/

theorem event_of_wellFormed {e : HostEvent} (s : State) (h : e.wellFormed = true) : event e s = portEvent e s := by
  simp only [HostEvent.wellFormed, Bool.and_eq_true] at h
  obtain ⟨⟨hsize, hindex⟩, hvalue⟩ := h
  simp [event, hsize, hindex, hvalue]

theorem wellFormed_RegRead (i : RegIndex) : (RegRead i).wellFormed = true := by
  simp [RegRead, HostEvent.wellFormed, HostEvent.sizeOk, HostEvent.indexOk, HostEvent.valueOk, Space.elemBytes, Space.elems]

theorem wellFormed_RegWrite (i : RegIndex) (w : Word32) : (RegWrite i w).wellFormed = true := by
  have hw : w.toNat < 4294967296 := w.isLt
  simp [RegWrite, HostEvent.wellFormed, HostEvent.sizeOk, HostEvent.indexOk, HostEvent.valueOk, Space.elemBytes,
    Space.elems, hw]

/-- A register read replies and changes nothing else. -/
theorem event_RegRead (i : RegIndex) (s : State) :
    event (RegRead i) s = .next { s with replies := s.replies ++ [.word (regRead s i.val)] } :=
  event_of_wellFormed s (wellFormed_RegRead i)

/-- The write of `CMD` executes the word (R26). -/
theorem event_RegWrite_cmd (w : Word32) (s : State) : event (RegWrite 1 w) s = execute w s := by
  rw [event_of_wellFormed s (wellFormed_RegWrite 1 w)]
  simp [RegWrite, portEvent]

theorem event_RegWrite {i : RegIndex} (hi : i ≠ 1) (w : Word32) (s : State) :
    event (RegWrite i w) s = .next (regWrite i.val w s) := by
  have hval : i.val ≠ 1 := fun h => hi (Fin.ext h)
  rw [event_of_wellFormed s (wellFormed_RegWrite i w)]
  simp [RegWrite, portEvent, portWrite, hval]

/-! ### The reserved registers (R32) -/

theorem regRead_reserved (s : State) {i : Nat} (hi : 10 ≤ i) : regRead s i = 0 := by
  obtain ⟨k, rfl⟩ := Nat.exists_eq_add_of_le' hi
  rfl

theorem regWrite_reserved (w : Word32) (s : State) {i : Nat} (hi : 10 ≤ i) : regWrite i w s = s := by
  obtain ⟨k, rfl⟩ := Nat.exists_eq_add_of_le' hi
  rfl

/-! ### The bits of the register words (R24, R27) -/

/-- What a field of `k` bits keeps of a word is the word's low `k` bits. -/
theorem zeroExtend_truncate (w : Word32) {k : Nat} (hk : k ≤ 32) :
    (w.truncate k).zeroExtend 32 = w &&& BitVec.ofNat 32 (2 ^ k - 1) := by
  have hpow : 2 ^ k ≤ 2 ^ 32 := Nat.pow_le_pow_right (by decide) hk
  have hmask : 2 ^ k - 1 < 2 ^ 32 := by omega
  have hlow : w.toNat % 2 ^ k < 2 ^ 32 := lt_of_lt_of_le (Nat.mod_lt _ (Nat.two_pow_pos k)) hpow
  apply BitVec.eq_of_toNat_eq
  rw [BitVec.toNat_setWidth, BitVec.toNat_setWidth, BitVec.toNat_and, BitVec.toNat_ofNat, Nat.mod_eq_of_lt hmask,
    Nat.and_two_pow_sub_one_eq_mod, Nat.mod_eq_of_lt hlow]

theorem statusWord_eq_append (s : State) :
    statusWord s = ((BitVec.ofBool s.sticky ++ 0#4) ++ s.lastErr).zeroExtend 32 := by
  have h : ∀ (b : Bool) (e : BitVec 4), (if b then 1#32 <<< 8 else 0#32) ||| e.zeroExtend 32 =
      ((BitVec.ofBool b ++ 0#4) ++ e).zeroExtend 32 := by decide
  exact h s.sticky s.lastErr

theorem statusWord_zero_bits (s : State) : statusWord s &&& 0xFFFFFEF0 = 0 := by
  have h : ∀ (b : Bool) (e : BitVec 4),
      ((if b then 1#32 <<< 8 else 0#32) ||| e.zeroExtend 32) &&& 0xFFFFFEF0 = 0 := by decide
  exact h s.sticky s.lastErr

theorem cap_zero_bits : BitVec.ofNat 32 Config.log2Nmax &&& 0xFFFFFFE0 = 0 := by
  have h : ∀ n ≤ 15, BitVec.ofNat 32 n &&& 0xFFFFFFE0 = 0 := by decide
  exact h _ log2Nmax_le

/-- A host write of a dimension register leaves `STATUS` and is read back as the word's documented bits. -/
theorem event_RegWrite_masked {i : RegIndex} (hi : i ≠ 1) {mask : Word32} (w : Word32) (s : State)
    (hread : regRead (regWrite i.val w s) i.val = w &&& mask) :
    ∃ t, event (RegWrite i w) s = .next t ∧ t.lastErr = s.lastErr ∧ t.sticky = s.sticky ∧
      portRead t .reg i.val = .word (w &&& mask) := by
  have hw : portWrite .reg i.val w.toNat s = regWrite i.val w s := by simp [portWrite]
  obtain ⟨herr, hsticky⟩ := hw ▸ status_portWrite .reg i.val w.toNat s
  exact ⟨_, event_RegWrite hi w s, herr, hsticky, congrArg Reply.word hread⟩

/-! ### Execution of a word, and one step (R221, R222) -/

theorem execute_of_command {w : Word32} {i : Instr} (h : decode w = .command i) (s : State) :
    execute w s = exec i s := by
  simp [execute, h]

theorem execute_of_illegal {w : Word32} {why : Illegal} (h : decode w = .illegal why) (s : State) :
    execute w s = .next (reject .illegalCmd s) := by
  simp [execute, h]

theorem step_of_inbox_nil {s : State} (h : s.inbox = []) : step s = .next s := by
  simp [step, takeEvent, h]

theorem step_of_inbox_cons {s : State} {e : HostEvent} {rest : List HostEvent} (h : s.inbox = e :: rest) :
    step s = event e { s with inbox := rest } := by
  simp [step, takeEvent, h]

/-- Placing a command word makes the write of `CMD` the next event (log entry 7). -/
theorem withFetchWord_inbox (s : State) (nbits : Nat) (w : Word32) :
    (s.withFetchWord nbits w.toNat).inbox = RegWrite 1 w :: s.inbox := by
  have hw : w.toNat % 2 ^ 32 = w.toNat := Nat.mod_eq_of_lt w.isLt
  simp only [State.withFetchWord, placeCommand_inbox, RegWrite, hw]
  rfl

/-! ### What a step does to `STATUS` (R27, R221, R230, R242) -/

/-- Executed from `s`, a word leaves in `t` a code that R231 lists, and sets `STICKY` with every code but 0. -/
theorem execute_status {w : Word32} {s t : State} (h : execute w s = .next t) :
    t.lastErr.toNat ≤ 5 ∧ t.sticky = if t.lastErr = 0 then s.sticky else true := by
  rcases execute_cases h with ⟨e, rfl⟩ | ⟨s', hs', rfl⟩
  · obtain ⟨-, hle, hne⟩ := code_bounds e
    exact ⟨hle, (if_neg hne).symm⟩
  · obtain ⟨hsticky, -⟩ := hs'.other
    exact ⟨Nat.zero_le 5, hsticky⟩

/-- The three ways a step can end as far as `STATUS` goes: unchanged, as a command leaves it, or cleared by a reset. -/
theorem step_status {s t : State} (h : step s = .next t) :
    (t.lastErr = s.lastErr ∧ t.sticky = s.sticky) ∨
      (t.lastErr.toNat ≤ 5 ∧ t.sticky = if t.lastErr = 0 then s.sticky else true) ∨
      ((∃ rest, s.inbox = .reset :: rest) ∧ t.lastErr = 0) := by
  cases hinbox : s.inbox with
  | nil =>
    rw [step_of_inbox_nil hinbox] at h
    injection h with h
    subst h
    exact .inl ⟨rfl, rfl⟩
  | cons e rest =>
    rw [step_of_inbox_cons hinbox] at h
    obtain ⟨-, ⟨sp, idx, n, -, rfl⟩ | ⟨v, -, -, hexec⟩ | ⟨sp, idx, n, v, -, -, -, rfl⟩ | ⟨rfl, rfl⟩⟩ := event_cases h
    · exact .inl ⟨rfl, rfl⟩
    · exact .inr (.inl (by simpa using execute_status hexec))
    · exact .inl (status_portWrite sp idx v _)
    · exact .inr (.inr ⟨⟨rest, rfl⟩, rfl⟩)

/-! ### No command reads `STATUS` (R23) -/

/-- The state with another `STATUS`. -/
def withStatus (err : BitVec 4) (st : Bool) (s : State) : State := { s with lastErr := err, sticky := st }

/-- A command body neither reads nor writes `STATUS`: its rejection and its writes are those of the same state with any
other `STATUS`. -/
def StatusBlind (body : State → Except ErrCode State) : Prop :=
  ∀ err st s, body (withStatus err st s) = (body s).map (withStatus err st)

@[simp] theorem pixW_withStatus (err : BitVec 4) (st : Bool) (s : State) (k : PixBuf) :
    pixW (withStatus err st s) k = pixW s k := rfl

@[simp] theorem pixH_withStatus (err : BitVec 4) (st : Bool) (s : State) (k : PixBuf) :
    pixH (withStatus err st s) k = pixH s k := rfl

/-- Writing a square picture and its dimensions, as PAD, INV2D and VIS do. -/
theorem setPixDims_writePixels_withStatus (err : BitVec 4) (st : Bool) (k : PixBuf) (n : Nat) (q : Nat → Nat → Pixel)
    (s : State) : setPixDims k n (writePixels k n q (withStatus err st s)) =
      withStatus err st (setPixDims k n (writePixels k n q s)) := by
  cases k <;> rfl

/-- A body that checks a condition and then writes is blind when its condition and its writes are. -/
theorem statusBlind_guarded {c : State → Prop} [DecidablePred c] {e : ErrCode} {write : State → State}
    (hc : ∀ err st s, c (withStatus err st s) ↔ c s)
    (hwrite : ∀ err st s, write (withStatus err st s) = withStatus err st (write s)) :
    StatusBlind fun s => if c s then .error e else .ok (write s) := by
  intro err st s
  simp only [hc, hwrite]
  split <;> rfl

/-- A body that always completes is blind when its write is. -/
theorem statusBlind_write {write : State → State}
    (hwrite : ∀ err st s, write (withStatus err st s) = withStatus err st (write s)) :
    StatusBlind fun s => .ok (write s) :=
  fun err st s => congrArg Except.ok (hwrite err st s)

theorem statusBlind_bodyFft1d (ns : Bool) : StatusBlind (bodyFft1d ns) :=
  statusBlind_guarded (fun _ _ _ => Iff.rfl) fun _ _ _ => rfl

theorem statusBlind_bodyIfft1d : StatusBlind bodyIfft1d :=
  statusBlind_guarded (fun _ _ _ => Iff.rfl) fun _ _ _ => rfl

theorem statusBlind_bodyGray (ps : PixBuf) : StatusBlind (bodyGray ps) := by
  intro err st s
  simp only [bodyGray, pixW_withStatus, pixH_withStatus]
  split <;> rfl

theorem statusBlind_bodyFwd2d (ps : PixBuf) : StatusBlind (bodyFwd2d ps) := by
  intro err st s
  simp only [bodyFwd2d, pixW_withStatus, pixH_withStatus]
  split <;> rfl

theorem statusBlind_bodyPad (pd ps : PixBuf) : StatusBlind (bodyPad pd ps) := by
  intro err st s
  simp only [bodyPad, pixW_withStatus, pixH_withStatus, setPixDims_writePixels_withStatus]
  split
  · rfl
  · split <;> rfl

theorem statusBlind_bodyInv2d (pd : PixBuf) : StatusBlind (bodyInv2d pd) :=
  statusBlind_guarded (fun _ _ _ => Iff.rfl) fun _ _ _ => setPixDims_writePixels_withStatus ..

theorem statusBlind_bodyVis (pd : PixBuf) : StatusBlind (bodyVis pd) :=
  statusBlind_guarded (fun _ _ _ => Iff.rfl) fun _ _ _ => setPixDims_writePixels_withStatus ..

/-- Every command is the completion of a body that is blind to `STATUS`. -/
theorem exec_eq_runBody_statusBlind (i : Instr) : ∃ body, (∀ s, exec i s = runBody body s) ∧ StatusBlind body := by
  cases i with
  | nop => exact ⟨_, fun _ => rfl, statusBlind_write fun _ _ _ => rfl⟩
  | cadd cd ca cb => exact ⟨_, fun _ => rfl, statusBlind_write fun _ _ _ => rfl⟩
  | csub cd ca cb => exact ⟨_, fun _ => rfl, statusBlind_write fun _ _ _ => rfl⟩
  | cmul cd ca cb => exact ⟨_, fun _ => rfl, statusBlind_write fun _ _ _ => rfl⟩
  | cconj cd ca => exact ⟨_, fun _ => rfl, statusBlind_write fun _ _ _ => rfl⟩
  | cmag cd ca => exact ⟨_, fun _ => rfl, statusBlind_write fun _ _ _ => rfl⟩
  | cpolar cd ca cb => exact ⟨_, fun _ => rfl, statusBlind_write fun _ _ _ => rfl⟩
  | fft1d ns => exact ⟨_, fun _ => rfl, statusBlind_bodyFft1d ns⟩
  | ifft1d => exact ⟨_, fun _ => rfl, statusBlind_bodyIfft1d⟩
  | gray ps => exact ⟨_, fun _ => rfl, statusBlind_bodyGray ps⟩
  | pad pd ps => exact ⟨_, fun _ => rfl, statusBlind_bodyPad pd ps⟩
  | fwd2d ps => exact ⟨_, fun _ => rfl, statusBlind_bodyFwd2d ps⟩
  | inv2d pd => exact ⟨_, fun _ => rfl, statusBlind_bodyInv2d pd⟩
  | vis pd => exact ⟨_, fun _ => rfl, statusBlind_bodyVis pd⟩

/-- Run from two states that differ in `STATUS` alone, a blind body ends in states that differ at most in a `STICKY` that
neither run set. -/
theorem runBody_withStatus {body : State → Except ErrCode State} (h : StatusBlind body) (err : BitVec 4) (st : Bool)
    (s : State) : ∃ t, runBody body s = .next t ∧
      runBody body (withStatus err st s) = .next { t with sticky := if t.lastErr = 0 then st else true } := by
  have hblind := h err st s
  cases hs : body s with
  | error e =>
    obtain ⟨-, -, hcode⟩ := code_bounds e
    rw [hs] at hblind
    refine ⟨_, runBody_error hs, ?_⟩
    rw [runBody_error hblind, if_neg (show (reject e s).lastErr ≠ 0 from hcode)]
    rfl
  | ok s' =>
    rw [hs] at hblind
    exact ⟨_, runBody_ok hs, runBody_ok hblind⟩

/-! ### The commands that write no complex register (R21, R64) -/

/-- A command leaves the complex registers alone when its body does; a rejection always does (R242). -/
theorem runBody_c {body : State → Except ErrCode State} {s t : State} (h : runBody body s = .next t)
    (hbody : ∀ s', body s = .ok s' → s'.c = s.c) : t.c = s.c := by
  rcases runBody_eq_next.mp h with ⟨e, -, rfl⟩ | ⟨s', hs', rfl⟩
  · exact reject_c s e
  · exact (accept_c s').trans (hbody s' hs')

theorem bodyFft1d_c {ns : Bool} {s s' : State} (h : bodyFft1d ns s = .ok s') : s'.c = s.c := by
  obtain ⟨-, rfl⟩ := ite_error_ok h
  exact writeVec_c ..

theorem bodyIfft1d_c {s s' : State} (h : bodyIfft1d s = .ok s') : s'.c = s.c := by
  obtain ⟨-, rfl⟩ := ite_error_ok h
  exact writeVec_c ..

theorem bodyGray_c {ps : PixBuf} {s s' : State} (h : bodyGray ps s = .ok s') : s'.c = s.c := by
  unfold bodyGray at h
  split at h
  · cases h
  · injection h with h
    subst h
    simp

theorem bodyFwd2d_c {ps : PixBuf} {s s' : State} (h : bodyFwd2d ps s = .ok s') : s'.c = s.c := by
  unfold bodyFwd2d at h
  split at h
  · cases h
  · injection h with h
    subst h
    simp

theorem bodyPad_c {pd ps : PixBuf} {s s' : State} (h : bodyPad pd ps s = .ok s') : s'.c = s.c := by
  unfold bodyPad at h
  split at h
  · cases h
  · obtain ⟨-, rfl⟩ := ite_error_ok h
    simp

theorem bodyInv2d_c {pd : PixBuf} {s s' : State} (h : bodyInv2d pd s = .ok s') : s'.c = s.c := by
  obtain ⟨-, rfl⟩ := ite_error_ok h
  simp

theorem bodyVis_c {pd : PixBuf} {s s' : State} (h : bodyVis pd s = .ok s') : s'.c = s.c := by
  obtain ⟨-, rfl⟩ := ite_error_ok h
  simp

/-! ### The statements -/

/-- Settles O8: a read and a write by the rules of register accesses, the values of `LAST_ERR` by the inversion of
`execute` and of `step`. -/
theorem statusRegister : Obligations.StatusRegister := by
  refine ⟨fun s => ?_, fun s w => event_RegWrite (by decide) w s, fun s w => ?_, Nat.zero_le 5, fun s t hs h => ?_⟩
  · rw [event_RegRead, ← statusWord_eq_append]
    rfl
  · obtain ⟨t, ht⟩ := execute_isNext w s
    exact ⟨t, ht, execute_status ht⟩
  · rcases step_status h with ⟨hsame, -⟩ | ⟨hle, -⟩ | ⟨-, hzero⟩
    · rwa [hsame]
    · exact hle
    · rw [hzero]
      exact Nat.zero_le 5

/-- Settles O13: an illegal word is rejected alike, and every command's body is blind to `STATUS`. -/
theorem noCommandReadsStatus : Obligations.NoCommandReadsStatus := by
  intro w s err st
  cases hw : decode w with
  | illegal why => exact ⟨_, execute_of_illegal hw s, execute_of_illegal hw _⟩
  | command i =>
    obtain ⟨body, hexec, hblind⟩ := exec_eq_runBody_statusBlind i
    simp only [execute_of_command hw, hexec]
    exact runBody_withStatus hblind err st s

/-- Settles O30: of the three ways a step treats `STATUS`, the reset is excluded and the other two keep a set `STICKY`. -/
theorem stickyStaysUntilReset : Obligations.StickyStaysUntilReset := by
  intro s t h hsticky hnoReset
  rcases step_status h with ⟨-, hsame⟩ | ⟨-, hcommand⟩ | ⟨⟨rest, hreset⟩, -⟩
  · rw [hsame, hsticky]
  · rw [hcommand, hsticky, ite_self]
  · exact absurd hreset (hnoReset rest)

/-- Settles O31: no body of the eight commands writes a complex register. -/
theorem otherCommandsKeepComplexRegisters : Obligations.OtherCommandsKeepComplexRegisters := by
  intro ns pd ps s t i hi h
  simp only [List.mem_cons, List.not_mem_nil, or_false] at hi
  rcases hi with rfl | rfl | rfl | rfl | rfl | rfl | rfl | rfl
  · exact runBody_c h fun _ => bodyFft1d_c
  · exact runBody_c h fun _ => bodyIfft1d_c
  · exact runBody_c h fun _ => bodyGray_c
  · exact runBody_c h fun _ => bodyPad_c
  · exact runBody_c h fun _ => bodyFwd2d_c
  · exact runBody_c h fun _ => bodyInv2d_c
  · exact runBody_c h fun _ => bodyVis_c
  · exact runBody_c (body := .ok) h fun _ hs => by injection hs with hs; rw [hs]

/-- Settles O7, by the rules of register accesses. -/
theorem constantAndCommandRegisters : Obligations.ConstantAndCommandRegisters := by
  intro s w
  exact ⟨event_RegRead 0 s, event_RegWrite (by decide) w s, event_RegRead 1 s, event_RegWrite_cmd w s,
    event_RegRead 3 s, event_RegWrite (by decide) w s⟩

/-- Settles O9, by the rules of register accesses; the low bits that `regWrite` keeps are those of the statement. -/
theorem dimensionRegisters : Obligations.DimensionRegisters := by
  intro s w
  simp only [← BitVec.setWidth_eq_extractLsb' (show 16 ≤ 32 by decide),
    ← BitVec.setWidth_eq_extractLsb' (show 5 ≤ 32 by decide)]
  exact ⟨event_RegWrite (by decide) w s, event_RegWrite (by decide) w s, event_RegWrite (by decide) w s,
    event_RegWrite (by decide) w s, event_RegWrite (by decide) w s, event_RegWrite (by decide) w s,
    event_RegRead 4 s, event_RegRead 5 s, event_RegRead 6 s, event_RegRead 7 s, event_RegRead 8 s, event_RegRead 9 s⟩

/-- Settles O10: the reserved indices by the last arm of the register functions, the zero bits by the widths of the
fields behind each register. -/
theorem reservedRegisterSpace : Obligations.ReservedRegisterSpace := by
  intro s w
  refine ⟨fun i hi => ⟨?_, ?_⟩, fun i hi => ?_, fun i hi => ?_, ⟨_, rfl, statusWord_zero_bits s⟩,
    ⟨_, rfl, cap_zero_bits⟩⟩
  · rw [event_RegRead, regRead_reserved s hi]
  · have hne : i ≠ 1 := by
      rintro rfl
      exact absurd hi (by decide)
    rw [event_RegWrite hne, regWrite_reserved w s hi]
  · simp only [List.mem_cons, List.not_mem_nil, or_false] at hi
    rcases hi with rfl | rfl | rfl | rfl <;>
      exact event_RegWrite_masked (by decide) w s (zeroExtend_truncate (k := 16) w (by decide))
  · simp only [List.mem_cons, List.not_mem_nil, or_false] at hi
    rcases hi with rfl | rfl <;>
      exact event_RegWrite_masked (by decide) w s (zeroExtend_truncate (k := 5) w (by decide))

/-- Settles O25: the step takes the write of `CMD`, which executes the word, which runs its command. -/
theorem stepRunsDecodedCommand : Obligations.StepRunsDecodedCommand := by
  have hrun : ∀ (s : State) (w : Word32) (i : Instr) (rest : List HostEvent), decode w = .command i →
      s.inbox = RegWrite 1 w :: rest → step s = exec i { s with inbox := rest } := by
    intro s w i rest hw hinbox
    rw [step_of_inbox_cons hinbox, event_RegWrite_cmd, execute_of_command hw]
  exact ⟨hrun, fun s w i hw => hrun _ w i s.inbox hw (withFetchWord_inbox s 32 w)⟩

end Sys2Proof.Machine
end

section
/-! PROOFS. The memory port (spec/20_memory.md): which events the port answers, that the typed accesses are operations of
the port, and that their locations lie inside their spaces and share no element. -/

namespace Sys2Proof.Machine

/-! ### Which events the port answers (R55, R58) -/

theorem event_isNext_iff (e : HostEvent) (s : State) : (∃ t, event e s = .next t) ↔ e.wellFormed = true :=
  ⟨fun ⟨_, h⟩ => (event_cases h).1, event_isNext s⟩

/-- An access outside the port is refused by the first of the three conditions it misses. -/
theorem event_of_not_wellFormed {e : HostEvent} (s : State) (h : e.wellFormed = false) :
    event e s = .refused .accessSize ∨ event e s = .refused .accessIndex ∨ event e s = .refused .accessValue := by
  cases hsize : e.sizeOk with
  | false => exact .inl (by simp [event, hsize])
  | true =>
    cases hindex : e.indexOk with
    | false => exact .inr (.inl (by simp [event, hsize, hindex]))
    | true =>
      have hvalue : e.valueOk = false := by simpa [HostEvent.wellFormed, hsize, hindex] using h
      exact .inr (.inr (by simp [event, hsize, hindex, hvalue]))

/-! ### Accesses of whole elements are operations of the port (R51, R58) -/

theorem wellFormed_memRead {sp : Space} {idx n : Nat} (hsize : n = sp.elemBytes) (hidx : idx < sp.elems) :
    (HostEvent.memRead sp idx n).wellFormed = true := by
  simp [HostEvent.wellFormed, HostEvent.sizeOk, HostEvent.indexOk, HostEvent.valueOk, hsize, hidx]

/-- The value of a typed write is as wide as the element. -/
theorem wellFormed_memWrite {sp : Space} {idx n w : Nat} (hsize : n = sp.elemBytes) (hidx : idx < sp.elems)
    (hwidth : w = 8 * n) (v : BitVec w) : (HostEvent.memWrite sp idx n v.toNat).wellFormed = true := by
  have hv : v.toNat < 2 ^ (8 * n) := hwidth ▸ v.isLt
  subst hsize
  simp [HostEvent.wellFormed, HostEvent.sizeOk, HostEvent.indexOk, HostEvent.valueOk, hidx, hv]

theorem pixSpace_elemBytes (k : PixBuf) : (pixSpace k).elemBytes = 1 := by cases k <;> rfl

/-! ### The elements of the complex registers (R52) -/

theorem cregIndex_lt (r : CReg) (part : Part) : cregIndex r part < Space.creg.elems := by
  have hpart := partIndex_lt part
  have hr := r.isLt
  simp only [cregIndex, Space.elems]
  omega

/-- The complex registers are laid out as the elements of `V` are. -/
theorem cregIndex_inj {r r' : CReg} {p p' : Part} : cregIndex r p = cregIndex r' p' ↔ r = r' ∧ p = p' := by
  rw [Fin.ext_iff]
  exact vecIndex_inj

/-! ### The statements -/

/-- Settles O26: with an event pending the step is the event, which answers exactly when it is well formed. -/
theorem stepStopsOnlyOutsideThePort : Obligations.StepStopsOnlyOutsideThePort := by
  refine fun s => ⟨step_of_inbox_nil, fun e rest hinbox => ?_⟩
  rw [step_of_inbox_cons hinbox]
  exact ⟨event_isNext_iff e _, event_of_not_wellFormed _⟩

/-- Settles O28: a typed access has the size of its space's elements, and its index the bound and the injectivity of its
index map. -/
theorem typedLocationsAreDistinct : Obligations.TypedLocationsAreDistinct := by
  refine ⟨fun i w => ⟨wellFormed_RegRead i, wellFormed_RegWrite i w⟩, fun r i j part v => ?_, fun k x y ch v => ?_,
    fun r part => ?_, fun i part hi => ?_, fun i j part hi hj => ?_, fun x y ch hx hy => ?_⟩
  · have hcreg := cregIndex_lt r part
    have hvec := vecIndex_lt part i.isLt
    have hgrid := gridIndex_lt part i.isLt j.isLt
    exact ⟨wellFormed_memRead rfl hcreg, wellFormed_memWrite rfl hcreg rfl v, wellFormed_memRead rfl hvec,
      wellFormed_memWrite rfl hvec rfl v, wellFormed_memRead rfl hgrid, wellFormed_memWrite rfl hgrid rfl v⟩
  · have hsize := (pixSpace_elemBytes k).symm
    have hpix := pixIndex_lt ch k x.isLt y.isLt
    exact ⟨wellFormed_memRead hsize hpix, wellFormed_memWrite hsize hpix rfl v⟩
  · exact ⟨cregIndex_lt r part, fun _ _ => cregIndex_inj.mp⟩
  · exact ⟨vecIndex_lt part hi, fun _ _ => vecIndex_inj.mp⟩
  · exact ⟨gridIndex_lt part hi hj, fun _ _ _ _ hj' => (gridIndex_inj hj hj').mp⟩
  · exact ⟨pixIndex_lt ch .p0 hx hy, fun _ _ _ hx' _ => (pixIndex_inj hx hx').mp⟩

end Sys2Proof.Machine
end

section
/-! PROOFS. The encoding (spec/30_encoding.md): the decoder by the rows of the opcode map, the operand fields of a word
and the operand bits of a command's word, and that the decoder and the encoder invert each other. -/

namespace Sys2Proof

/-! ### The rows of the opcode map (R89) -/

/-- The row of a command (R89). -/
def rowOf : Instr → Row
  | .nop => opcodeTable[0]
  | .cadd _ _ _ => opcodeTable[1]
  | .csub _ _ _ => opcodeTable[2]
  | .cmul _ _ _ => opcodeTable[3]
  | .cconj _ _ => opcodeTable[4]
  | .cmag _ _ => opcodeTable[5]
  | .cpolar _ _ _ => opcodeTable[6]
  | .fft1d _ => opcodeTable[7]
  | .ifft1d => opcodeTable[8]
  | .gray _ => opcodeTable[9]
  | .pad _ _ => opcodeTable[10]
  | .fwd2d _ => opcodeTable[11]
  | .inv2d _ => opcodeTable[12]
  | .vis _ => opcodeTable[13]

theorem rowOf_mem (i : Instr) : rowOf i ∈ opcodeTable := by cases i <;> exact List.getElem_mem _

/-- Each row builds commands of its own. -/
theorem rowOf_build {row : Row} (h : row ∈ opcodeTable) (w : Word32) : rowOf (row.build w) = row := by
  revert row
  simp [opcodeTable, rowOf]

/-- A row is the only one of its `OP` byte. -/
theorem find?_opcodeTable {row : Row} (h : row ∈ opcodeTable) :
    opcodeTable.find? (fun r => r.op == row.op) = some row := by
  revert row
  simp [opcodeTable]

/-- The `OP` byte is among the fixed bits of every row. -/
theorem opByte_fixed : ∀ row ∈ opcodeTable,
    row.mask.extractLsb' 24 8 = BitVec.allOnes 8 ∧ row.value.extractLsb' 24 8 = row.op := by
  simp [opcodeTable]

theorem opField_of_match {row : Row} (h : row ∈ opcodeTable) {w : Word32} (hw : w &&& row.mask = row.value) :
    opField w = row.op := by
  obtain ⟨hmask, hvalue⟩ := opByte_fixed row h
  rw [← hvalue, ← hw, BitVec.extractLsb'_and, hmask, BitVec.and_allOnes, opField]

theorem fixedBits_row_eq (i : Instr) : Laws.FixedBits.row i = ((rowOf i).mask, (rowOf i).value) := by
  cases i <;> rfl

/-! ### The decoder by its rows (R91) -/

theorem decode_of_match {row : Row} (h : row ∈ opcodeTable) {w : Word32} (hw : w &&& row.mask = row.value) :
    decode w = .command (row.build w) := by
  rw [decode, opField_of_match h hw, find?_opcodeTable h]
  exact if_pos hw

/-- A word that matches no row is illegal. -/
theorem decode_of_no_match {w : Word32} (h : ∀ row ∈ opcodeTable, w &&& row.mask ≠ row.value) :
    ∃ why, decode w = .illegal why := by
  cases hfind : opcodeTable.find? (fun row => row.op == opField w) with
  | none => exact ⟨_, by rw [decode, hfind]⟩
  | some row => exact ⟨_, by rw [decode, hfind]; exact if_neg (h row (List.mem_of_find?_eq_some hfind))⟩

theorem decode_illegal_iff (w : Word32) :
    (∃ why, decode w = .illegal why) ↔ ∀ row ∈ opcodeTable, w &&& row.mask ≠ row.value := by
  refine ⟨?_, decode_of_no_match⟩
  rintro ⟨why, hwhy⟩ row hrow hw
  simp [decode_of_match hrow hw] at hwhy

theorem decode_command_iff (w : Word32) (i : Instr) :
    decode w = .command i ↔ w &&& (rowOf i).mask = (rowOf i).value ∧ (rowOf i).build w = i := by
  constructor
  · intro h
    by_cases hmatch : ∃ row ∈ opcodeTable, w &&& row.mask = row.value
    · obtain ⟨row, hrow, hw⟩ := hmatch
      obtain rfl : row.build w = i := by simpa [decode_of_match hrow hw] using h
      rw [rowOf_build hrow]
      exact ⟨hw, rfl⟩
    · obtain ⟨why, hwhy⟩ := decode_of_no_match (w := w) (by simpa using hmatch)
      simp [hwhy] at h
  · rintro ⟨hw, hbuild⟩
    rw [decode_of_match (rowOf_mem i) hw, hbuild]

/-! ### The operand fields (R92) and the operand bits (R93) -/

theorem regField_val (w : Word32) (lo : Nat) : (regField w lo).val = (w.extractLsb' lo 4).toNat :=
  Nat.mod_eq_of_lt (w.extractLsb' lo 4).isLt

theorem regField_eq_iff (w : Word32) (lo : Nat) (r : CReg) :
    regField w lo = r ↔ r.val = (w.extractLsb' lo 4).toNat := by
  rw [Fin.ext_iff, regField_val, eq_comm]

theorem pixField_eq_iff (w : Word32) (bit : Nat) (k : PixBuf) :
    pixField w bit = k ↔ (k = .p1 ↔ w.getLsbD bit = true) := by
  cases k <;> simp [pixField]

/-- The bits of a register number read from a word are that field of the word, in place. -/
theorem regBits_regField (w : Word32) (lo : Nat) : regBits (regField w lo) lo = w &&& 0xF#32 <<< lo := by
  have hfour (j : Nat) : (0xF#32).getLsbD j = decide (j < 4) := by
    rw [BitVec.getLsbD_ofNat, Nat.testBit_two_pow_sub_one 4]
    simp only [Bool.and_eq_right_iff_imp, decide_eq_true_eq]
    omega
  rw [regBits, regField_val, BitVec.ofNat_toNat]
  refine BitVec.eq_of_getLsbD_eq fun i hi => ?_
  simp only [BitVec.getLsbD_shiftLeft, BitVec.getLsbD_and, BitVec.getLsbD_setWidth, BitVec.getLsbD_extractLsb', hfour]
  by_cases hlo : lo ≤ i
  · simp [hi, Nat.not_lt.mpr hlo, Nat.add_sub_of_le hlo, Nat.lt_of_le_of_lt (Nat.sub_le i lo) hi, Bool.and_comm]
  · simp [Nat.lt_of_not_le hlo]

/-- The bits of a buffer number read from a word are that bit of the word, in place. -/
theorem pixBits_pixField (w : Word32) (bit : Nat) : pixBits (pixField w bit) bit = w &&& 1#32 <<< bit := by
  rw [← BitVec.twoPow_eq, BitVec.and_twoPow, pixField]
  cases w.getLsbD bit <;> simp [pixBits, BitVec.twoPow_eq]

theorem nsBits_nsField (w : Word32) : nsBits (nsField w) = w &&& 1#32 := by
  rw [show (1#32) = BitVec.twoPow 32 0 from rfl, BitVec.and_twoPow]
  rfl

/-- In the three register places, the field of a register number's bits is the number in its own place, and empty in
another. -/
theorem extractLsb'_regBits : ∀ lo ∈ [12, 16, 20], ∀ lo' ∈ [12, 16, 20], ∀ r : CReg,
    (regBits r lo).extractLsb' lo' 4 = if lo = lo' then BitVec.ofNat 4 r.val else 0 := by
  decide

theorem build_encode (i : Instr) : (rowOf i).build (encode i) = i := by
  cases i with
  | nop | ifft1d => rfl
  | cadd | csub | cmul | cconj | cmag | cpolar =>
    simp [rowOf, opcodeTable, encode, cdField, caField, cbField, regField_eq_iff, BitVec.extractLsb'_or,
      extractLsb'_regBits, -BitVec.extractLsb'_toNat]
  | fft1d ns => cases ns <;> rfl
  | gray k | fwd2d k | inv2d k | vis k => cases k <;> rfl
  | pad pd ps => cases pd <;> cases ps <;> rfl

/-- The word of the command of a row and a word is the row's fixed bits with the word's operand bits. -/
theorem encode_build {row : Row} (h : row ∈ opcodeTable) (w : Word32) :
    encode (row.build w) = row.value ||| (w &&& ~~~row.mask) := by
  revert row
  simp [opcodeTable, encode, cdField, caField, cbField, pdField, psField, regBits_regField, pixBits_pixField,
    nsBits_nsField, BitVec.or_assoc, ← BitVec.and_or_distrib_left]

open Laws.FixedBits in
/-- The word of every command has the fixed bits of its row. -/
theorem fixedBits_statement : ∀ i : Instr, Statement i
  | .nop => nop
  | .cadd cd ca cb => cadd cd ca cb
  | .csub cd ca cb => csub cd ca cb
  | .cmul cd ca cb => cmul cd ca cb
  | .cconj cd ca => cconj cd ca
  | .cmag cd ca => cmag cd ca
  | .cpolar cd ca cb => cpolar cd ca cb
  | .fft1d ns => fft1d ns
  | .ifft1d => ifft1d
  | .gray ps => gray ps
  | .pad pd ps => pad pd ps
  | .fwd2d ps => fwd2d ps
  | .inv2d pd => inv2d pd
  | .vis pd => vis pd

theorem encode_match (i : Instr) : encode i &&& (rowOf i).mask = (rowOf i).value := by
  simpa only [Laws.FixedBits.Statement, fixedBits_row_eq] using fixedBits_statement i

/-- A word that has the fixed bits is made up of them and its bits outside the mask. -/
theorem or_and_not_of_match {w mask value : Word32} (h : w &&& mask = value) : value ||| (w &&& ~~~mask) = w := by
  rw [← h, ← BitVec.and_or_distrib_left, BitVec.or_not_self, BitVec.and_allOnes]

/-! ### The statements -/

/-- Settles O3: the word of a command matches the command's row, and the row builds the command again from it. -/
theorem decodeInvertsEncode : Obligations.DecodeInvertsEncode := fun i _ =>
  (decode_command_iff (encode i) i).mpr ⟨encode_match i, build_encode i⟩

/-- Settles O2: a command by its row and that row's fields, an illegal word by the absence of a row. -/
theorem decodeFollowsOpcodeMap : Obligations.DecodeFollowsOpcodeMap := by
  intro w
  simp only [decode_command_iff, decode_illegal_iff]
  simp [rowOf, opcodeTable, cdField, caField, cbField, pdField, psField, nsField, regField_eq_iff, pixField_eq_iff]

/-- Settles O4: encoding puts the operand bits of the word back beside the fixed bits that the word's match gives. -/
theorem encodeInvertsDecode : Obligations.EncodeInvertsDecode := by
  intro w i h
  obtain ⟨hmatch, hbuild⟩ := (decode_command_iff w i).mp h
  calc encode i = encode ((rowOf i).build w) := by rw [hbuild]
    _ = (rowOf i).value ||| (w &&& ~~~(rowOf i).mask) := encode_build (rowOf_mem i) w
    _ = w := or_and_not_of_match hmatch

/-- Settles O1, by running the decoder on each word. -/
theorem specWordsDecode : Obligations.SpecWordsDecode := by
  unfold Obligations.SpecWordsDecode
  decide

end Sys2Proof
end

section
/-! PROOFS. The binary64 format (spec/40_numerics.md R100, R105) and the comparison of values (R120): the fields of a bit
pattern, the value of each class, and the order of the values with the infinities among them. -/

namespace Sys2Proof.Machine

/-! ### The fields of a bit pattern (R100) -/

theorem getLsbD_63_eq_msb (a : Word64) : a.getLsbD 63 = a.msb := (BitVec.msb_eq_getLsbD_last a).symm

theorem toNat_extractLsb'_expField (a : Word64) : (a.extractLsb' 52 11).toNat = expField a := by
  rw [BitVec.extractLsb'_toNat, Nat.shiftRight_eq_div_pow, expField]

theorem toNat_extractLsb'_fracField (a : Word64) : (a.extractLsb' 0 52).toNat = fracField a := by
  rw [BitVec.extractLsb'_toNat, Nat.shiftRight_zero, fracField]

theorem magBits_eq_fields (a : Word64) : magBits a = expField a * 2 ^ 52 + fracField a := by
  rw [expField_eq, fracField_eq, Nat.mul_comm]
  exact (Nat.div_add_mod _ _).symm

/-- A pattern is its sign bit above its magnitude bits. -/
theorem eq_ite_of_magBits {a p n : Word64} (h : magBits a = magBits p) (hn : n = fneg p) (hp : p.msb = false) :
    a = if a.msb then n else p := by
  cases hs : a.msb
  · exact ext_mag (hs.trans hp.symm) h
  · subst hn
    exact ext_mag (by rw [if_pos rfl, hs, msb_fneg, hp]; rfl) (by rw [if_pos rfl, h, magBits_fneg])

/-! ### The value of each class (R100) -/

theorem isFinite_of_expField {a : Word64} (h : expField a ≠ 2047) : isFinite a = true := by
  simp [isFinite, h]

theorem f64_normal {a : Word64} (h0 : expField a ≠ 0) (h1 : expField a ≠ 2047) :
    f64 a = (if a.msb then -1 else 1) * 2 ^ ((expField a : ℤ) - 1023) * (1 + fracField a / 2 ^ 52) := by
  have hz : (2 : ℚ) ^ ((expField a : ℤ) - 1023) = 2 ^ ((expField a : ℤ) - 1075) * 2 ^ 52 := by
    rw [show (expField a : ℤ) - 1023 = (expField a : ℤ) - 1075 + (52 : ℕ) by push_cast; ring,
      zpow_add₀ (by norm_num), zpow_natCast]
  simp only [f64, unpack, if_neg h0, if_neg h1, hz]
  push_cast
  ring

theorem f64_subnormal {a : Word64} (h : expField a = 0) :
    f64 a = (if a.msb then -1 else 1) * 2 ^ (-1022 : ℤ) * (fracField a / 2 ^ 52) := by
  have hz : (2 : ℚ) ^ (-1022 : ℤ) = 2 ^ (-1074 : ℤ) * 2 ^ 52 := by
    rw [show (-1022 : ℤ) = -1074 + (52 : ℕ) by norm_num, zpow_add₀ (by norm_num), zpow_natCast]
  have hne : expField a ≠ 2047 := by omega
  simp only [f64, unpack, if_neg hne, if_pos h, hz]
  ring

/-- Settles O35: the statement's slices are the model's fields, and each class is a branch of `unpack`. -/
theorem formatOfBinary64 : Obligations.FormatOfBinary64 := by
  intro a
  simp only [getLsbD_63_eq_msb, toNat_extractLsb'_expField, toNat_extractLsb'_fracField]
  refine ⟨fun h1 h2 => ?_, fun h => ?_, fun h => ?_, ?_, fun he hf => ?_, fun he hf => ?_⟩
  · exact ⟨isFinite_of_expField (by omega), f64_normal (by omega) (by omega)⟩
  · exact ⟨isFinite_of_expField (by omega), f64_subnormal h⟩
  · simp [isFinite, h]
  · simp [isNaN]
  · exact eq_ite_of_magBits (by rw [magBits_eq_fields, he, hf]; decide) (by decide) (by decide)
  · exact eq_ite_of_magBits (by rw [magBits_eq_fields, he, hf]; decide) (by decide) (by decide)

/-! ### The order of the values (R120) -/

/-- What is no NaN is an infinity or finite. -/
theorem inf_or_isFinite {a : Word64} (h : isNaN a = false) :
    a = 0xFFF0000000000000 ∨ a = 0x7FF0000000000000 ∨ isFinite a = true := by
  rcases unpack_cases a with ⟨hn, -⟩ | ⟨hi, -⟩ | ⟨hf, -⟩
  · rw [h] at hn
    cases hn
  · rcases (isInf_iff a).mpr hi with hp | hm
    · exact .inr (.inl hp)
    · exact .inl hm
  · exact .inr (.inr hf)

theorem extendedValue_pinf : extendedValue 0x7FF0000000000000 = ((⊤ : WithTop ℚ) : WithBot (WithTop ℚ)) := by
  rw [extendedValue, unpack_pinf]
  rfl

theorem extendedValue_ninf : extendedValue 0xFFF0000000000000 = ⊥ := by
  rw [extendedValue, show unpack 0xFFF0000000000000 = .inf true by decide]
  rfl

theorem extendedValue_finite {a : Word64} (h : isFinite a = true) :
    extendedValue a = ((f64 a : WithTop ℚ) : WithBot (WithTop ℚ)) := by
  obtain ⟨m, e, hu, -⟩ := unpack_fin h
  rw [extendedValue, hu]

theorem ordKey_pinf : ordKey 0x7FF0000000000000 = infMag := by decide

theorem ordKey_ninf : ordKey 0xFFF0000000000000 = -(infMag : ℤ) := by decide

/-- The keys of the finite values lie strictly between those of the infinities. -/
theorem ordKey_finite {a : Word64} (h : isFinite a = true) : -(infMag : ℤ) < ordKey a ∧ ordKey a < infMag := by
  have hlt := (isFinite_iff a).mp h
  unfold ordKey signed
  split <;> omega

/-- The order key orders all values that are no NaN, the infinities among them. -/
theorem extendedValue_le_iff {a b : Word64} (ha : isNaN a = false) (hb : isNaN b = false) :
    extendedValue a ≤ extendedValue b ↔ ordKey a ≤ ordKey b := by
  have hpos : 0 < infMag := by decide
  rcases inf_or_isFinite ha with rfl | rfl | fa
  · simp only [extendedValue_ninf, bot_le, ordKey_ninf, (ordKey_bounds hb).1]
  · rcases inf_or_isFinite hb with rfl | rfl | fb
    · simp only [extendedValue_pinf, extendedValue_ninf, ordKey_pinf, ordKey_ninf, le_bot_iff, WithBot.coe_ne_bot,
        false_iff]
      omega
    · simp only [le_refl]
    · have hkey := ordKey_finite fb
      simp only [extendedValue_pinf, extendedValue_finite fb, WithBot.coe_le_coe, top_le_iff, WithTop.coe_ne_top,
        ordKey_pinf, false_iff]
      omega
  · have hkey := ordKey_finite fa
    rcases inf_or_isFinite hb with rfl | rfl | fb
    · simp only [extendedValue_ninf, extendedValue_finite fa, le_bot_iff, WithBot.coe_ne_bot, ordKey_ninf, false_iff]
      omega
    · simp only [extendedValue_pinf, extendedValue_finite fa, WithBot.coe_le_coe, le_top, ordKey_pinf, true_iff]
      omega
    · rw [extendedValue_finite fa, extendedValue_finite fb, WithBot.coe_le_coe, WithTop.coe_le_coe, ordKey_le_iff fa fb,
        Rat.cast_le]

theorem extendedValue_lt_iff {a b : Word64} (ha : isNaN a = false) (hb : isNaN b = false) :
    extendedValue a < extendedValue b ↔ ordKey a < ordKey b := by
  rw [← not_le, extendedValue_le_iff hb ha, not_le]

/-- Settles O42: each comparison is one of order keys, which order the values; the infinities have the outermost keys. -/
theorem comparisonOfValues : Obligations.ComparisonOfValues := by
  refine ⟨fun a b ha hb => ⟨?_, ?_, ?_⟩, fun a b h => ?_, by decide, by decide, by decide, by decide, fun a fa => ?_⟩
  · rw [fgt_iff, extendedValue_lt_iff hb ha]
    simp only [ha, hb, true_and]
  · rw [fge_iff, extendedValue_le_iff hb ha]
    simp only [ha, hb, true_and]
  · rw [fle_iff, extendedValue_le_iff ha hb]
    simp only [ha, hb, true_and]
  · rcases h with h | h <;> simp [fgt, fge, fle, h]
  · have ha := isFinite_not_isNaN fa
    obtain ⟨hlo, hhi⟩ := ordKey_finite fa
    rw [← Bool.not_eq_true, ← Bool.not_eq_true, fgt_iff, fgt_iff, fgt_iff, fgt_iff, ordKey_pinf, ordKey_ninf]
    exact ⟨⟨by decide, ha, hhi⟩, ⟨ha, by decide, hlo⟩, fun h => absurd h.2.2 (by omega),
      fun h => absurd h.2.2 (by omega)⟩

end Sys2Proof.Machine
end

section
/-! PROOFS. The basic operations by the classes of their operands (spec/40_numerics.md R101 to R108): correct rounding,
the cases that give a NaN and the free choice of its bits, the signs of results, and the neutral operand `-0.0`. -/

namespace Sys2Proof.Machine

/-! ### The classes of an operand (R100) -/

/-- What each class of operand says to an operation that branches on `unpack` and to a claim about zeros and infinities. -/
theorem unpack_class (a : Word64) :
    (unpack a = .nan ∧ isNaN a = true) ∨
      (unpack a = .inf a.msb ∧ isNaN a = false ∧ magBits a = infMag ∧ magBits a ≠ 0) ∨
      ∃ m e, unpack a = .fin a.msb m e ∧ isNaN a = false ∧ magBits a ≠ infMag ∧ (m = 0 ↔ magBits a = 0) := by
  rcases unpack_cases a with ⟨hn, hu⟩ | ⟨hi, hu⟩ | ⟨hf, m, e, hu, -, -, -, hm⟩
  · exact .inl ⟨hu, hn⟩
  · exact .inr (.inl ⟨hu, isNaN_of_infMag hi, hi, by rw [hi]; decide⟩)
  · exact .inr (.inr ⟨m, e, hu, isFinite_not_isNaN hf, ((isFinite_iff a).mp hf).ne, hm⟩)

theorem unpack_zero {a : Word64} (h : magBits a = 0) : ∃ e, unpack a = .fin a.msb 0 e := by
  obtain ⟨m, e, hu, -, -, -, hm⟩ := unpack_fin ((isFinite_iff a).mpr (by rw [h]; decide))
  exact ⟨e, by rw [hu, hm.mpr h]⟩

theorem unpack_fneg {a : Word64} {s : Bool} {m : Nat} {e : ℤ} (h : unpack a = .fin s m e) :
    unpack (fneg a) = .fin (!s) m e := by
  revert h
  simp only [unpack, expField_eq, fracField_eq, magBits_fneg, msb_fneg]
  split
  · split <;> simp
  · split <;> · rintro ⟨⟩; rfl

theorem f64_eq_zero_iff {a : Word64} (h : isFinite a = true) : f64 a = 0 ↔ magBits a = 0 := by
  have hmag : |(f64 a : ℝ)| = 0 ↔ magBits a = 0 := by
    rw [f64_abs h, ← magVal_zero, magVal_strictMono.injective.eq_iff]
  rw [← hmag, abs_eq_zero, Rat.cast_eq_zero]

/-! ### Correct rounding of the basic operations (R101, R102) -/

theorem fmul_correctlyRounded (fp : Fpu) {a b : Word64} (ha : isFinite a = true) (hb : isFinite b = true) :
    CorrectlyRounded ((f64 a : ℝ) * f64 b) (fmul fp a b) := by
  obtain ⟨m, e, hu, hv, -⟩ := unpack_fin ha
  obtain ⟨n, f, hu', hv', -⟩ := unpack_fin hb
  rw [fmul, hu, hu', f64_eq ha, f64_eq hb, ← hv, ← hv']
  exact mulFinite_correctlyRounded _ _ _ _ _ _

theorem fdiv_correctlyRounded (fp : Fpu) {a b : Word64} (ha : isFinite a = true) (hb : isFinite b = true)
    (h0 : f64 b ≠ 0) : CorrectlyRounded ((f64 a : ℝ) / f64 b) (fdiv fp a b) := by
  obtain ⟨m, e, hu, hv, -⟩ := unpack_fin ha
  obtain ⟨n, f, hu', hv', hn53, -, hn0⟩ := unpack_fin hb
  have hn : n ≠ 0 := fun h => h0 ((f64_eq_zero_iff hb).mpr (hn0.mp h))
  have hval : (f64 a : ℝ) / f64 b = signFactor (a.msb ^^ b.msb) * ((m * 2 ^ e) / (n * 2 ^ f)) := by
    rw [f64_eq ha, f64_eq hb, ← hv, ← hv', signFactor_xor]
    have hinv : (signFactor b.msb)⁻¹ = signFactor b.msb := inv_eq_of_mul_eq_one_left (signFactor_mul_self _)
    rw [mul_div_mul_comm, div_eq_mul_inv (signFactor a.msb), hinv]
  simp only [fdiv, hu, hu', if_neg hn, hval]
  split
  · rename_i hm
    rw [hm, Nat.cast_zero, zero_mul, zero_div, mul_zero]
    exact correctlyRounded_zero _
  · rename_i hm
    exact divFinite_correctlyRounded e f hm hn hn53

/-- Settles O36: a difference is the sum with the second operand negated; the others by their own lemmas. -/
theorem basicOperationsCorrectlyRounded : Obligations.BasicOperationsCorrectlyRounded := by
  intro fp a b ha hb
  push_cast
  refine ⟨sumWith_finite ha hb, ?_, fmul_correctlyRounded fp ha hb, fdiv_correctlyRounded fp ha hb⟩
  rw [sub_eq_add_neg, ← f64_fneg hb]
  exact sumWith_finite ha ((isFinite_fneg b).trans hb)

/-! ### When an operation returns a NaN, and which (R106) -/

/-- The operands alone decide, by the condition `C`, whether `f` returns a NaN, and that NaN is the one drawn for `op`. -/
def DrawsNaNIff (C : Prop) (f : Fpu → Word64) (op : FpOp) (a b : Word64) : Prop :=
  (C → ∀ fp, f fp = makeNaN fp op a b) ∧ (¬ C → ∀ fp, isNaN (f fp) = false)

theorem DrawsNaNIff.of_draws {C : Prop} {f : Fpu → Word64} {op : FpOp} {a b : Word64} (hC : C)
    (h : ∀ fp, f fp = makeNaN fp op a b) : DrawsNaNIff C f op a b := ⟨fun _ => h, fun hn => absurd hC hn⟩

theorem DrawsNaNIff.of_number {C : Prop} {f : Fpu → Word64} {op : FpOp} {a b : Word64} (hC : ¬ C)
    (h : ∀ fp, isNaN (f fp) = false) : DrawsNaNIff C f op a b := ⟨fun hc => absurd hc hC, fun _ => h⟩

theorem DrawsNaNIff.isNaN_iff {C : Prop} {f : Fpu → Word64} {op : FpOp} {a b : Word64} (h : DrawsNaNIff C f op a b)
    (fp : Fpu) : isNaN (f fp) = true ↔ C := by
  constructor
  · intro hnan
    by_contra hC
    rw [h.2 hC fp] at hnan
    cases hnan
  · intro hC
    rw [h.1 hC fp]
    exact isNaN_makeNaN _ _ _ _

/-- The numerics that draw `x` for every NaN. -/
def drawing (x : Word64) : Fpu := { Fpu.reference with nan := fun _ _ _ => x }

theorem makeNaN_drawing {x : Word64} (hx : isNaN x = true) (op : FpOp) (a b : Word64) :
    makeNaN (drawing x) op a b = x := asNaN_of_isNaN hx

/-- Where an operation returns a NaN, it returns any NaN by some choice of the drawn bits. -/
theorem DrawsNaNIff.exists_eq {C : Prop} {f : Fpu → Word64} {op : FpOp} {a b : Word64} (h : DrawsNaNIff C f op a b)
    {fp : Fpu} (hnan : isNaN (f fp) = true) {x : Word64} (hx : isNaN x = true) : ∃ fp', f fp' = x :=
  ⟨drawing x, by rw [h.1 ((h.isNaN_iff fp).mp hnan), makeNaN_drawing hx]⟩

theorem isNaN_withSign_infMag (s : Bool) : isNaN (withSign s infMag) = false := isNaN_withSign le_rfl

theorem isNaN_withSign_zero (s : Bool) : isNaN (withSign s 0) = false := isNaN_withSign (Nat.zero_le _)

/-- A sum, and a difference by the negated operand; the NaN is drawn for the operation and its own operands. -/
theorem sumWith_drawsNaN (op : FpOp) (a b c : Word64) : DrawsNaNIff
    (isNaN a = true ∨ isNaN b = true ∨ (magBits a = infMag ∧ magBits b = infMag ∧ a.msb ≠ b.msb))
    (fun fp => sumWith (makeNaN fp op a c) a b) op a c := by
  rcases unpack_class a with ⟨hu, ha⟩ | ⟨hu, ha, hi, -⟩ | ⟨m, e, hu, ha, hi, -⟩
  · exact .of_draws (.inl ha) fun fp => by simp only [sumWith, hu]
  · rcases unpack_class b with ⟨hu', hb⟩ | ⟨hu', hb, hi', -⟩ | ⟨n, f, hu', hb, hi', -⟩
    · exact .of_draws (.inr (.inl hb)) fun fp => by simp only [sumWith, hu, hu']
    · by_cases hs : a.msb = b.msb
      · exact .of_number (by simp [ha, hb, hs]) fun fp => by simp only [sumWith, hu, hu', if_pos hs, ha]
      · exact .of_draws (.inr (.inr ⟨hi, hi', hs⟩)) fun fp => by simp only [sumWith, hu, hu', if_neg hs]
    · exact .of_number (by simp [ha, hb, hi']) fun fp => by simp only [sumWith, hu, hu', ha]
  · rcases unpack_class b with ⟨hu', hb⟩ | ⟨hu', hb, -⟩ | ⟨n, f, hu', hb, -⟩
    · exact .of_draws (.inr (.inl hb)) fun fp => by simp only [sumWith, hu, hu']
    · exact .of_number (by simp [ha, hb, hi]) fun fp => by simp only [sumWith, hu, hu', hb]
    · exact .of_number (by simp [ha, hb, hi]) fun fp => by simp only [sumWith, hu, hu', isNaN_addFinite]

theorem fadd_drawsNaN (a b : Word64) : DrawsNaNIff
    (isNaN a = true ∨ isNaN b = true ∨ (magBits a = infMag ∧ magBits b = infMag ∧ a.msb ≠ b.msb))
    (fun fp => fadd fp a b) .add a b := sumWith_drawsNaN .add a b b

theorem fsub_drawsNaN (a b : Word64) : DrawsNaNIff
    (isNaN a = true ∨ isNaN b = true ∨ (magBits a = infMag ∧ magBits b = infMag ∧ a.msb = b.msb))
    (fun fp => fsub fp a b) .sub a b := by
  have h := sumWith_drawsNaN .sub a (fneg b) b
  simp only [isNaN_fneg, magBits_fneg, msb_fneg, Bool.ne_not] at h
  exact h

theorem fmul_drawsNaN (a b : Word64) : DrawsNaNIff
    (isNaN a = true ∨ isNaN b = true ∨ (magBits a = 0 ∧ magBits b = infMag) ∨ (magBits a = infMag ∧ magBits b = 0))
    (fun fp => fmul fp a b) .mul a b := by
  rcases unpack_class a with ⟨hu, ha⟩ | ⟨hu, ha, hi, h0⟩ | ⟨m, e, hu, ha, hi, hm⟩
  · exact .of_draws (.inl ha) fun fp => by simp only [fmul, hu]
  · rcases unpack_class b with ⟨hu', hb⟩ | ⟨hu', hb, -, h0'⟩ | ⟨n, f, hu', hb, hi', hn⟩
    · exact .of_draws (.inr (.inl hb)) fun fp => by simp only [fmul, hu, hu']
    · exact .of_number (by simp [ha, hb, h0, h0']) fun fp => by simp only [fmul, hu, hu', isNaN_withSign_infMag]
    · by_cases h : n = 0
      · exact .of_draws (.inr (.inr (.inr ⟨hi, hn.mp h⟩))) fun fp => by simp only [fmul, hu, hu', if_pos h]
      · exact .of_number (by simp [ha, hb, h0, ← hn, h]) fun fp => by
          simp only [fmul, hu, hu', if_neg h, isNaN_withSign_infMag]
  · rcases unpack_class b with ⟨hu', hb⟩ | ⟨hu', hb, hi', -⟩ | ⟨n, f, hu', hb, hi', -⟩
    · exact .of_draws (.inr (.inl hb)) fun fp => by simp only [fmul, hu, hu']
    · by_cases h : m = 0
      · exact .of_draws (.inr (.inr (.inl ⟨hm.mp h, hi'⟩))) fun fp => by simp only [fmul, hu, hu', if_pos h]
      · exact .of_number (by simp [ha, hb, hi, ← hm, h]) fun fp => by
          simp only [fmul, hu, hu', if_neg h, isNaN_withSign_infMag]
    · exact .of_number (by simp [ha, hb, hi, hi']) fun fp => by simp only [fmul, hu, hu', isNaN_pack]

theorem fdiv_drawsNaN (a b : Word64) : DrawsNaNIff
    (isNaN a = true ∨ isNaN b = true ∨ (magBits a = 0 ∧ magBits b = 0) ∨ (magBits a = infMag ∧ magBits b = infMag))
    (fun fp => fdiv fp a b) .div a b := by
  rcases unpack_class a with ⟨hu, ha⟩ | ⟨hu, ha, hi, h0⟩ | ⟨m, e, hu, ha, hi, hm⟩
  · exact .of_draws (.inl ha) fun fp => by simp only [fdiv, hu]
  · rcases unpack_class b with ⟨hu', hb⟩ | ⟨hu', hb, hi', -⟩ | ⟨n, f, hu', hb, hi', -⟩
    · exact .of_draws (.inr (.inl hb)) fun fp => by simp only [fdiv, hu, hu']
    · exact .of_draws (.inr (.inr (.inr ⟨hi, hi'⟩))) fun fp => by simp only [fdiv, hu, hu']
    · exact .of_number (by simp [ha, hb, h0, hi']) fun fp => by simp only [fdiv, hu, hu', isNaN_withSign_infMag]
  · rcases unpack_class b with ⟨hu', hb⟩ | ⟨hu', hb, -, h0'⟩ | ⟨n, f, hu', hb, hi', hn⟩
    · exact .of_draws (.inr (.inl hb)) fun fp => by simp only [fdiv, hu, hu']
    · exact .of_number (by simp [ha, hb, hi, h0']) fun fp => by simp only [fdiv, hu, hu', isNaN_withSign_zero]
    · by_cases h : n = 0 <;> by_cases h' : m = 0
      · exact .of_draws (.inr (.inr (.inl ⟨hm.mp h', hn.mp h⟩))) fun fp => by
          simp only [fdiv, hu, hu', if_pos h, if_pos h']
      · exact .of_number (by simp [ha, hb, hi, ← hm, h']) fun fp => by
          simp only [fdiv, hu, hu', if_pos h, if_neg h', isNaN_withSign_infMag]
      · exact .of_number (by simp [ha, hb, hi, ← hn, h]) fun fp => by
          simp only [fdiv, hu, hu', if_neg h, if_pos h', isNaN_withSign_zero]
      · exact .of_number (by simp [ha, hb, hi, ← hn, h]) fun fp => by
          simp only [fdiv, hu, hu', if_neg h, if_neg h', isNaN_divFinite]

theorem fsqrt_drawsNaN (a : Word64) : DrawsNaNIff (isNaN a = true ∨ fgt 0x0000000000000000 a = true)
    (fun fp => fsqrt fp a) .sqrt a 0 := by
  rw [fgt_zero]
  rcases unpack_class a with ⟨hu, ha⟩ | ⟨hu, ha, hi, h0⟩ | ⟨m, e, hu, ha, hi, hm⟩
  · exact .of_draws (.inl ha) fun fp => by simp only [fsqrt, hu]
  · by_cases hs : a.msb = true
    · exact .of_draws (.inr ⟨hs, h0, ha⟩) fun fp => by simp only [fsqrt, hu, if_pos hs]
    · exact .of_number (by simp [ha, hs]) fun fp => by simp only [fsqrt, hu, if_neg hs, ha]
  · by_cases h : m = 0
    · exact .of_number (by simp [ha, hm.mp h]) fun fp => by simp only [fsqrt, hu, if_pos h, ha]
    · by_cases hs : a.msb = true
      · exact .of_draws (.inr ⟨hs, by rwa [Ne, ← hm], ha⟩) fun fp => by simp only [fsqrt, hu, if_neg h, if_pos hs]
      · exact .of_number (by simp [ha, hs]) fun fp => by simp only [fsqrt, hu, if_neg h, if_neg hs, isNaN_sqrtFinite]

theorem isNaN_faithfulMag (s : Bool) (off : ℤ) (x : Enclosure) : isNaN (withSign s (faithfulMag off x)) = false :=
  isNaN_withSign (faithfulMag_le off x)

theorem isNaN_faithfulLog (off : Word64 → ℤ) (x : Enclosure) : isNaN (withSign false (faithfulLog off x)) = false :=
  isNaN_withSign (faithfulLog_le off x)

theorem fsin_drawsNaN (a : Word64) : DrawsNaNIff (isNaN a = true ∨ magBits a = infMag)
    (fun fp => fsin fp a) .sin a 0 := by
  rcases unpack_class a with ⟨hu, ha⟩ | ⟨hu, ha, hi, -⟩ | ⟨m, e, hu, ha, hi, -⟩
  · exact .of_draws (.inl ha) fun fp => by simp only [fsin, hu]
  · exact .of_draws (.inr hi) fun fp => by simp only [fsin, hu]
  · by_cases h : m = 0
    · exact .of_number (by simp [ha, hi]) fun fp => by simp only [fsin, hu, if_pos h, ha]
    · exact .of_number (by simp [ha, hi]) fun fp => by simp only [fsin, hu, if_neg h, isNaN_faithfulMag]

theorem fcos_drawsNaN (a : Word64) : DrawsNaNIff (isNaN a = true ∨ magBits a = infMag)
    (fun fp => fcos fp a) .cos a 0 := by
  rcases unpack_class a with ⟨hu, ha⟩ | ⟨hu, ha, hi, -⟩ | ⟨m, e, hu, ha, hi, -⟩
  · exact .of_draws (.inl ha) fun fp => by simp only [fcos, hu]
  · exact .of_draws (.inr hi) fun fp => by simp only [fcos, hu]
  · by_cases h : m = 0
    · exact .of_number (by simp [ha, hi]) fun fp => by simp only [fcos, hu, if_pos h]; decide
    · exact .of_number (by simp [ha, hi]) fun fp => by simp only [fcos, hu, if_neg h, isNaN_faithfulMag]

theorem flog10_drawsNaN (a : Word64) : DrawsNaNIff (isNaN a = true ∨ fgt 0x0000000000000000 a = true)
    (fun fp => flog10 fp a) .log10 a 0 := by
  rw [fgt_zero]
  rcases unpack_class a with ⟨hu, ha⟩ | ⟨hu, ha, hi, h0⟩ | ⟨m, e, hu, ha, hi, hm⟩
  · exact .of_draws (.inl ha) fun fp => by simp only [flog10, hu]
  · by_cases hs : a.msb = true
    · exact .of_draws (.inr ⟨hs, h0, ha⟩) fun fp => by simp only [flog10, hu, if_pos hs]
    · exact .of_number (by simp [ha, hs]) fun fp => by simp only [flog10, hu, if_neg hs, ha]
  · by_cases h : m = 0
    · exact .of_number (by simp [ha, hm.mp h]) fun fp => by simp only [flog10, hu, if_pos h, isNaN_withSign_infMag]
    · by_cases hs : a.msb = true
      · exact .of_draws (.inr ⟨hs, by rwa [Ne, ← hm], ha⟩) fun fp => by simp only [flog10, hu, if_neg h, if_pos hs]
      · refine .of_number (by simp [ha, hs]) fun fp => ?_
        simp only [flog10, hu, if_neg h, if_neg hs]
        split
        · exact isNaN_faithfulLog _ _
        · exact isNaN_faithfulMag _ _ _

theorem ffloor_drawsNaN (a : Word64) : DrawsNaNIff (isNaN a = true) (fun fp => ffloor fp a) .floor a 0 := by
  rcases unpack_class a with ⟨hu, ha⟩ | ⟨hu, ha, -⟩ | ⟨m, e, hu, ha, -⟩
  · exact .of_draws ha fun fp => by simp only [ffloor, hu]
  · exact .of_number (by simp [ha]) fun fp => by simp only [ffloor, hu, ha]
  · refine .of_number (by simp [ha]) fun fp => ?_
    simp only [ffloor, hu]
    split
    · exact ha
    · split
      · split
        · exact isNaN_withSign_zero _
        · exact isNaN_pack _ _ _
      · exact isNaN_pack _ _ _

/-! ### The statements on NaN results and on the square root -/

/-- Settles O40: each list is the operation's own condition, read on the two zeros and the two infinities. -/
theorem nanExactlyInTheListedCases : Obligations.NaNExactlyInTheListedCases := by
  refine ⟨fun fp a b => ⟨?_, ?_, ?_, ?_, ?_, ?_, ?_, ?_, ?_⟩, fun f hf fp a b hnan x hx => ?_,
    fun f hf fp a hnan x hx => ?_⟩
  · rw [(fadd_drawsNaN a b).isNaN_iff fp, pinf_iff, pinf_iff, ninf_iff, ninf_iff]
    cases a.msb <;> cases b.msb <;> simp
  · rw [(fsub_drawsNaN a b).isNaN_iff fp, pinf_iff, pinf_iff, ninf_iff, ninf_iff]
    cases a.msb <;> cases b.msb <;> simp
  · rw [(fmul_drawsNaN a b).isNaN_iff fp]; simp only [isZero_iff, isInf_iff]
  · rw [(fdiv_drawsNaN a b).isNaN_iff fp]; simp only [isZero_iff, isInf_iff]
  · exact (fsqrt_drawsNaN a).isNaN_iff fp
  · rw [(fsin_drawsNaN a).isNaN_iff fp]; simp only [isInf_iff]
  · rw [(fcos_drawsNaN a).isNaN_iff fp]; simp only [isInf_iff]
  · exact (flog10_drawsNaN a).isNaN_iff fp
  · exact (ffloor_drawsNaN a).isNaN_iff fp
  · simp only [List.mem_cons, List.not_mem_nil, or_false] at hf
    rcases hf with rfl | rfl | rfl | rfl
    · exact (fadd_drawsNaN a b).exists_eq hnan hx
    · exact (fsub_drawsNaN a b).exists_eq hnan hx
    · exact (fmul_drawsNaN a b).exists_eq hnan hx
    · exact (fdiv_drawsNaN a b).exists_eq hnan hx
  · simp only [List.mem_cons, List.not_mem_nil, or_false] at hf
    rcases hf with rfl | rfl | rfl | rfl | rfl
    · exact (fsqrt_drawsNaN a).exists_eq hnan hx
    · exact (fsin_drawsNaN a).exists_eq hnan hx
    · exact (fcos_drawsNaN a).exists_eq hnan hx
    · exact (flog10_drawsNaN a).exists_eq hnan hx
    · exact (ffloor_drawsNaN a).exists_eq hnan hx

theorem msb_of_nonneg {a : Word64} (ha : isFinite a = true) (h0 : 0 ≤ f64 a) (hne : magBits a ≠ 0) : a.msb = false := by
  have hle := (nonneg_iff ha).mpr (by exact_mod_cast h0)
  exact ((fle_zero_iff a).mp hle).2.resolve_right hne

theorem fsqrt_correctlyRounded (fp : Fpu) {a : Word64} (ha : isFinite a = true) (h0 : 0 ≤ f64 a) :
    CorrectlyRounded (Real.sqrt (f64 a : ℝ)) (fsqrt fp a) := by
  obtain ⟨m, e, hu, hv, hm53, -, hm0⟩ := unpack_fin ha
  by_cases hm : m = 0
  · have hself := correctlyRounded_self ha
    rw [(f64_eq_zero_iff ha).mpr (hm0.mp hm), Rat.cast_zero] at hself ⊢
    rw [Real.sqrt_zero]
    simpa only [fsqrt, hu, if_pos hm] using hself
  · have hs : a.msb = false := msb_of_nonneg ha h0 fun h => hm (hm0.mpr h)
    have hval : (f64 a : ℝ) = m * 2 ^ e := by
      rw [f64_eq ha, hs, ← hv, signFactor, if_neg Bool.false_ne_true, one_mul]
    rw [hval]
    simp only [fsqrt, hu, if_neg hm, hs, Bool.false_eq_true, if_false]
    exact sqrtFinite_correctlyRounded e hm hm53

/-- Settles O37: the special cases are branches of `fsqrt`, the NaN results those of its NaN condition. -/
theorem squareRootCorrectlyRounded : Obligations.SquareRootCorrectlyRounded := fun fp =>
  ⟨rfl, rfl, rfl, fun a h => ((fsqrt_drawsNaN a).isNaN_iff fp).mpr (.inr h),
    fun a h => ((fsqrt_drawsNaN a).isNaN_iff fp).mpr (.inl h), fun _ => fsqrt_correctlyRounded fp⟩

end Sys2Proof.Machine
end

section
/-! PROOFS. The order of operands, the signs of results and the two zeros (spec/40_numerics.md R102, R104, R107), with
the complex functions that rest on them (R133, R226). -/

namespace Sys2Proof.Machine

/-! ### The order of the operands (R102) -/

theorem sumWith_comm {nan nan' a b : Word64} (hN : isNaN nan = true) (h : isNaN (sumWith nan a b) = false) :
    sumWith nan' b a = sumWith nan a b := by
  revert h
  rcases hu : unpack a with _ | s | ⟨s, m, e⟩
  · simp [sumWith, hu, hN]
  · rcases hu' : unpack b with _ | t | ⟨t, n, f⟩
    · simp [sumWith, hu, hu', hN]
    · obtain ⟨hi, hs⟩ := unpack_inf.mp hu
      obtain ⟨hi', hs'⟩ := unpack_inf.mp hu'
      by_cases hst : s = t
      · have hab : b = a := ext_mag (by rw [hs, hs', hst]) (by rw [hi, hi'])
        simp [sumWith, hu, hst, hab]
      · simp [sumWith, hu, hu', hst, hN]
    · simp [sumWith, hu, hu']
  · rcases hu' : unpack b with _ | t | ⟨t, n, f⟩
    · simp [sumWith, hu, hu', hN]
    · simp [sumWith, hu, hu']
    · simp only [sumWith, hu, hu', addFinite_comm t n f s m e, implies_true]

theorem fadd_comm (fp : Fpu) {a b : Word64} (h : isNaN (fadd fp a b) = false) : fadd fp b a = fadd fp a b :=
  sumWith_comm (isNaN_makeNaN _ _ _ _) h

theorem fmul_comm (fp : Fpu) {a b : Word64} (h : isNaN (fmul fp a b) = false) : fmul fp b a = fmul fp a b := by
  revert h
  rcases hu : unpack a with _ | s | ⟨s, m, e⟩
  · simp [fmul, hu, isNaN_makeNaN]
  · rcases hu' : unpack b with _ | t | ⟨t, n, f⟩
    · simp [fmul, hu, hu', isNaN_makeNaN]
    · simp [fmul, hu, hu', Bool.xor_comm t s]
    · by_cases hn : n = 0 <;> simp [fmul, hu, hu', hn, isNaN_makeNaN, Bool.xor_comm t s]
  · rcases hu' : unpack b with _ | t | ⟨t, n, f⟩
    · simp [fmul, hu, hu', isNaN_makeNaN]
    · by_cases hm : m = 0 <;> simp [fmul, hu, hu', hm, isNaN_makeNaN, Bool.xor_comm t s]
    · simp only [fmul, hu, hu', Bool.xor_comm t s, Nat.mul_comm n m, add_comm f e, implies_true]

/-- Settles O38: each commutes where the result is no NaN. -/
theorem sumAndProductCommute : Obligations.SumAndProductCommute := fun fp _ _ => ⟨fadd_comm fp, fmul_comm fp⟩

/-! ### Negation and conjugation (R104, R133) -/

theorem getLsbD_fneg_of_lt (a : Word64) {i : Nat} (hi : i < 63) : (fneg a).getLsbD i = a.getLsbD i := by
  have hbit : (0x8000000000000000 : Word64).getLsbD i = false := Nat.testBit_two_pow_of_ne (n := 63) (by omega)
  rw [fneg, BitVec.getLsbD_xor, hbit, Bool.xor_false]

theorem fneg_fneg (a : Word64) : fneg (fneg a) = a := by
  rw [fneg, fneg, BitVec.xor_assoc, BitVec.xor_self, BitVec.xor_zero]

/-- Settles O39: the exclusive-or with `0x8000000000000000` inverts the sign bit and no other. -/
theorem negationAndConjugation : Obligations.NegationAndConjugation := by
  refine ⟨fun a => ⟨?_, fun i => getLsbD_fneg_of_lt a⟩, by decide, fun fp => ?_, fun z => ⟨rfl, rfl, ?_⟩⟩
  · rw [getLsbD_63_eq_msb, getLsbD_63_eq_msb, msb_fneg]
  · rw [fmul_congr fp Fpu.reference (by decide +kernel)]
    decide +kernel
  · rw [Cconj, Cconj, fneg_fneg]

/-! ### The signs of results (R107) -/

/-- A finite value minus itself is the exact zero, which is positive. -/
theorem sumWith_fneg_self {x : Word64} (hx : isFinite x = true) (nan : Word64) : sumWith nan x (fneg x) = F0 := by
  obtain ⟨m, e, hu, -⟩ := unpack_fin hx
  have hsum : ∀ k : Nat, signed x.msb k + signed (!x.msb) k = 0 := by
    intro k
    cases x.msb <;> simp [signed]
  simp only [sumWith, hu, unpack_fneg hu, addFinite, hsum, if_true, Bool.and_not_self]
  decide

theorem msb_withSign_infMag (s : Bool) : (withSign s infMag).msb = s := msb_withSign infMag_lt

theorem msb_withSign_zero (s : Bool) : (withSign s 0).msb = s := msb_withSign (by decide)

theorem msb_fmul (fp : Fpu) {a b : Word64} (h : isNaN (fmul fp a b) = false) :
    (fmul fp a b).msb = (a.msb ^^ b.msb) := by
  revert h
  rcases unpack_class a with ⟨hu, -⟩ | ⟨hu, -⟩ | ⟨m, e, hu, -⟩
  · simp [fmul, hu, isNaN_makeNaN]
  · rcases unpack_class b with ⟨hu', -⟩ | ⟨hu', -⟩ | ⟨n, f, hu', -⟩
    · simp [fmul, hu, hu', isNaN_makeNaN]
    · simp [fmul, hu, hu', msb_withSign_infMag]
    · by_cases hn : n = 0 <;> simp [fmul, hu, hu', hn, isNaN_makeNaN, msb_withSign_infMag]
  · rcases unpack_class b with ⟨hu', -⟩ | ⟨hu', -⟩ | ⟨n, f, hu', -⟩
    · simp [fmul, hu, hu', isNaN_makeNaN]
    · by_cases hm : m = 0 <;> simp [fmul, hu, hu', hm, isNaN_makeNaN, msb_withSign_infMag]
    · simp [fmul, hu, hu', msb_pack]

theorem msb_fdiv (fp : Fpu) {a b : Word64} (h : isNaN (fdiv fp a b) = false) :
    (fdiv fp a b).msb = (a.msb ^^ b.msb) := by
  revert h
  rcases unpack_class a with ⟨hu, -⟩ | ⟨hu, -⟩ | ⟨m, e, hu, -⟩
  · simp [fdiv, hu, isNaN_makeNaN]
  · rcases unpack_class b with ⟨hu', -⟩ | ⟨hu', -⟩ | ⟨n, f, hu', -⟩
    · simp [fdiv, hu, hu', isNaN_makeNaN]
    · simp [fdiv, hu, hu', isNaN_makeNaN]
    · simp [fdiv, hu, hu', msb_withSign_infMag]
  · rcases unpack_class b with ⟨hu', -⟩ | ⟨hu', -⟩ | ⟨n, f, hu', -⟩
    · simp [fdiv, hu, hu', isNaN_makeNaN]
    · simp [fdiv, hu, hu', msb_withSign_zero]
    · by_cases hn : n = 0
      · by_cases hm : m = 0 <;> simp [fdiv, hu, hu', hn, hm, isNaN_makeNaN, msb_withSign_infMag]
      · by_cases hm : m = 0 <;> simp [fdiv, hu, hu', hn, hm, msb_withSign_zero, divFinite, msb_pack]

/-- The mask of bits 62:0 clears the sign alone. -/
theorem and_magMask (a : Word64) : a &&& 0x7FFFFFFFFFFFFFFF = withSign false (magBits a) := by
  apply BitVec.eq_of_toNat_eq
  rw [withSign_toNat (magBits_lt a), BitVec.toNat_and, show (0x7FFFFFFFFFFFFFFF : Word64).toNat = 2 ^ 63 - 1 from rfl,
    Nat.and_two_pow_sub_one_eq_mod, if_neg Bool.false_ne_true, Nat.zero_add, magBits]

/-- A finite value over an infinity is a zero. -/
theorem magBits_fdiv_inf (fp : Fpu) {x y : Word64} (hx : isFinite x = true) (hy : magBits y = infMag) :
    magBits (fdiv fp x y) = 0 := by
  obtain ⟨m, e, hu, -⟩ := unpack_fin hx
  simp only [fdiv, hu, unpack_inf.mpr ⟨hy, rfl⟩]
  exact magBits_withSign (by decide)

/-- A finite nonzero value over a zero is an infinity. -/
theorem magBits_fdiv_zero (fp : Fpu) {x y : Word64} (hx : isFinite x = true) (hne : f64 x ≠ 0)
    (hy : magBits y = 0) : magBits (fdiv fp x y) = infMag := by
  obtain ⟨m, e, hu, -, -, -, hm0⟩ := unpack_fin hx
  obtain ⟨f, hu'⟩ := unpack_zero hy
  have hm : m ≠ 0 := fun h => hne ((f64_eq_zero_iff hx).mpr (hm0.mp h))
  simp only [fdiv, hu, hu', if_true, if_neg hm]
  exact magBits_withSign infMag_lt

/-- A comparison sees its operands by their order keys and by whether they are NaNs, so it cannot tell the zeros apart. -/
theorem comparisons_congr {y z : Word64} (hn : isNaN y = isNaN z) (hk : ordKey y = ordKey z) (x : Word64) :
    fgt y x = fgt z x ∧ fgt x y = fgt x z ∧ fge y x = fge z x ∧ fge x y = fge x z ∧ fle y x = fle z x ∧
      fle x y = fle x z := by
  simp only [fgt, fge, fle, hn, hk, and_self]

/-- Settles O41: the sums of zeros by evaluation, the signs and the quotients by their lemmas, and the comparisons by the
common order key of the zeros. -/
theorem signedZeros : Obligations.SignedZeros := by
  intro fp
  simp only [getLsbD_63_eq_msb, and_magMask]
  refine ⟨fun x hx => ⟨sumWith_fneg_self hx _, sumWith_fneg_self hx _⟩, rfl, rfl, rfl, rfl, rfl, rfl, rfl,
    fun a b => msb_fmul fp, fun a b => msb_fdiv fp, fun x hx => ⟨?_, ?_⟩, fun x hx hne => ⟨?_, ?_⟩, by decide, by decide,
    comparisons_congr (by decide) (by decide)⟩
  · rw [magBits_fdiv_inf fp hx (by decide)]; rfl
  · rw [magBits_fdiv_inf fp hx (by decide)]; rfl
  · rw [magBits_fdiv_zero fp hx hne (by decide)]; rfl
  · rw [magBits_fdiv_zero fp hx hne (by decide)]; rfl

/-! ### The neutral operand of the sum (R107, R226) -/

/-- Adding `-0.0` returns every operand that is no NaN, zeros of either sign included. -/
theorem fadd_negZero (fp : Fpu) {a : Word64} (h : isNaN a = false) : fadd fp a 0x8000000000000000 = a := by
  rcases inf_or_isFinite h with rfl | rfl | ha
  · rfl
  · rfl
  · by_cases h0 : f64 a = 0
    · rcases (isZero_iff a).mpr ((f64_eq_zero_iff ha).mp h0) with rfl | rfl <;> rfl
    · have hz : f64 0x8000000000000000 = 0 := (f64_eq_zero_iff (by decide)).mpr (by decide)
      have hsum : CorrectlyRounded ((f64 a : ℝ) + f64 0x8000000000000000) (fadd fp a 0x8000000000000000) :=
        sumWith_finite ha (by decide)
      rw [hz, Rat.cast_zero, add_zero] at hsum
      obtain ⟨hf, hval⟩ := hsum.exact ha rfl
      exact f64_inj hf ha hval (by rwa [hval])

/-- The next state of CADD (R139). -/
theorem exec_cadd (cd ca cb : CReg) (s : State) :
    exec (.cadd cd ca cb) s = .next (accept (writeC cd (Cadd (fpuOf s) (readC s ca) (readC s cb)) s)) := rfl

/-- Settles O60: the sum by parts returns the sample, and the destination reads as what was written. -/
theorem addingNegativeZeroCopies : Obligations.AddingNegativeZeroCopies := by
  intro cd ca cz s hz hre him
  refine ⟨_, exec_cadd cd ca cz s, ?_⟩
  rw [readC_accept, readC_writeC, if_pos rfl, hz, Cadd, fadd_negZero _ hre, fadd_negZero _ him]

end Sys2Proof.Machine
end

section
/-! PROOFS. The floor, the conversions and the integer laws (spec/40_numerics.md R112 to R114, R116, R117). -/

namespace Sys2Proof.Machine

/-! ### The value of a finite pattern by its significand -/

theorem f64_of_unpack {a : Word64} {s : Bool} {m : Nat} {e : ℤ} (h : unpack a = .fin s m e) :
    (f64 a : ℝ) = signFactor s * (m * 2 ^ e) := by
  cases s <;> simp [f64, h, signFactor]

theorem significand_nonneg (m : Nat) (e : ℤ) : (0 : ℝ) ≤ m * 2 ^ e := mul_nonneg (Nat.cast_nonneg m) (two_zpow_pos e).le

theorem sign_eq_false_of_pos {a : Word64} {s : Bool} {m : Nat} {e : ℤ} (h : unpack a = .fin s m e) (h0 : 0 < f64 a) :
    s = false := by
  have hval := f64_of_unpack h
  have hpos : (0 : ℝ) < f64 a := by exact_mod_cast h0
  cases s with
  | false => rfl
  | true =>
    rw [hval, signFactor, if_pos rfl] at hpos
    linarith [significand_nonneg m e]

/-! ### The floor (R112) -/

/-- A value with a fraction has fewer than 53 bits before the binary point. -/
theorem intPart_lt_of_not_integral {m : Nat} {e : ℤ} (hm : m < 2 ^ 53) (h : ¬ isIntegral m e = true) :
    intPart m e < 2 ^ 53 := by
  have he : ¬ 0 ≤ e := fun he => h (by simp [isIntegral, he])
  rw [intPart, if_neg he]
  exact (Nat.div_le_self _ _).trans_lt hm

theorem intPart_lt_value {m : Nat} {e : ℤ} (h : ¬ isIntegral m e = true) : (intPart m e : ℝ) < m * 2 ^ e :=
  lt_of_le_of_ne (intPart_bounds m e).1 fun heq => h ((integral_iff m e).mpr heq)

/-- The floor of a negative value with a fraction. -/
theorem floor_neg_value {m : Nat} {e : ℤ} (h : ¬ isIntegral m e = true) :
    ⌊-((m : ℝ) * 2 ^ e)⌋ = -((intPart m e : ℤ) + 1) := by
  have hlt := intPart_lt_value h
  have hle := (intPart_bounds m e).2.1
  rw [Int.floor_eq_iff]
  push_cast
  constructor <;> linarith

theorem ffloor_of_integral (fp : Fpu) {a : Word64} {s : Bool} {m : Nat} {e : ℤ} (hu : unpack a = .fin s m e)
    (h : isIntegral m e = true) : ffloor fp a = a := by
  simp only [ffloor, hu, if_pos h]

/-- An integral value is its own floor. -/
theorem f64_eq_floor_of_integral {a : Word64} {s : Bool} {m : Nat} {e : ℤ} (hu : unpack a = .fin s m e)
    (h : isIntegral m e = true) : (f64 a : ℝ) = ⌊(f64 a : ℝ)⌋ := by
  have hval : (f64 a : ℝ) = ((signed s (intPart m e) : ℤ) : ℝ) := by
    rw [f64_of_unpack hu, signed_cast, (integral_iff m e).mp h]
  rw [hval, Int.floor_intCast]

theorem ffloor_positive (fp : Fpu) {a : Word64} {m : Nat} {e : ℤ} (hu : unpack a = .fin false m e) (hm : m < 2 ^ 53)
    (h : ¬ isIntegral m e = true) : isFinite (ffloor fp a) = true ∧ (f64 (ffloor fp a) : ℝ) = ⌊(f64 a : ℝ)⌋ := by
  obtain ⟨hfin, hpack⟩ := pack_fits false (intPart_lt_of_not_integral hm h).le (e := 0) (by norm_num) (by norm_num)
  have hres : ffloor fp a = pack false (intPart m e) 0 := by
    simp only [ffloor, hu, if_neg h, Bool.false_eq_true, if_false]
  rw [hres, f64_of_unpack hu, hpack, signFactor, if_neg Bool.false_ne_true, one_mul, one_mul, zpow_zero, mul_one,
    floor_value, Int.cast_natCast]
  exact ⟨hfin, rfl⟩

theorem ffloor_negative (fp : Fpu) {a : Word64} {m : Nat} {e : ℤ} (hu : unpack a = .fin true m e) (hm : m < 2 ^ 53)
    (h : ¬ isIntegral m e = true) (h0 : intPart m e ≠ 0) :
    isFinite (ffloor fp a) = true ∧ (f64 (ffloor fp a) : ℝ) = ⌊(f64 a : ℝ)⌋ := by
  obtain ⟨hfin, hpack⟩ := pack_fits true (m := intPart m e + 1) (e := 0) (intPart_lt_of_not_integral hm h) (by norm_num)
    (by norm_num)
  have hres : ffloor fp a = pack true (intPart m e + 1) 0 := by
    simp only [ffloor, hu, if_neg h, if_true, if_neg h0]
  rw [hres, f64_of_unpack hu, hpack, signFactor, if_pos rfl, neg_one_mul, neg_one_mul, zpow_zero, mul_one,
    floor_neg_value h]
  push_cast
  exact ⟨hfin, rfl⟩

theorem ffloor_value (fp : Fpu) {a : Word64} (ha : isFinite a = true) (hout : ¬ (-1 < f64 a ∧ f64 a < 0)) :
    isFinite (ffloor fp a) = true ∧ (f64 (ffloor fp a) : ℝ) = ⌊(f64 a : ℝ)⌋ := by
  obtain ⟨m, e, hu, -, hm53, -⟩ := unpack_fin ha
  by_cases hint : isIntegral m e = true
  · rw [ffloor_of_integral fp hu hint]
    exact ⟨ha, f64_eq_floor_of_integral hu hint⟩
  · cases hs : a.msb with
    | false => exact ffloor_positive fp (hs ▸ hu) hm53 hint
    | true =>
      rw [hs] at hu
      refine ffloor_negative fp hu hm53 hint fun h0 => hout ?_
      have hval : (f64 a : ℝ) = -(m * 2 ^ e) := by rw [f64_of_unpack hu, signFactor, if_pos rfl, neg_one_mul]
      have hlo := intPart_lt_value hint
      have hhi := (intPart_bounds m e).2.1
      rw [h0, Nat.cast_zero] at hlo hhi
      have hbetween : (-1 : ℝ) < f64 a ∧ (f64 a : ℝ) < 0 := by
        rw [hval]
        constructor <;> linarith
      exact_mod_cast hbetween

theorem ffloor_between (fp : Fpu) {a : Word64} (ha : isFinite a = true) (hlo : -1 < f64 a) (hhi : f64 a < 0) :
    ffloor fp a = 0x8000000000000000 := by
  obtain ⟨m, e, hu, -⟩ := unpack_fin ha
  have hval := f64_of_unpack hu
  have hlo' : (-1 : ℝ) < f64 a := by exact_mod_cast hlo
  have hhi' : (f64 a : ℝ) < 0 := by exact_mod_cast hhi
  have hs : a.msb = true := by
    by_contra hc
    rw [hval, signFactor, if_neg hc] at hhi'
    linarith [significand_nonneg m e]
  rw [hval, signFactor, if_pos hs, neg_one_mul] at hlo' hhi'
  have h0 : intPart m e = 0 := by
    have hlt : (intPart m e : ℝ) < 1 := by linarith [(intPart_bounds m e).1]
    have : intPart m e < 1 := by exact_mod_cast hlt
    omega
  have hint : ¬ isIntegral m e = true := by
    rw [integral_iff, h0, Nat.cast_zero]
    intro hc
    linarith
  simp only [ffloor, hu, if_neg hint, if_pos hs, if_pos h0]
  decide

theorem ffloor_inf (fp : Fpu) {a : Word64} (h : magBits a = infMag) : ffloor fp a = a := by
  rw [ffloor, unpack_inf.mpr ⟨h, rfl⟩]

theorem ffloor_zero (fp : Fpu) {a : Word64} (h : magBits a = 0) : ffloor fp a = a := by
  obtain ⟨e, hu⟩ := unpack_zero h
  exact ffloor_of_integral fp hu (by simp [isIntegral])

/-- Settles O46: the branches of `ffloor`, by whether the value is integral, its sign and its integer part. -/
theorem floorOfValues : Obligations.FloorOfValues := by
  refine fun fp => ⟨fun a ha hout => ?_, fun a => ffloor_between fp, fun a ha => ?_, fun a =>
    ((ffloor_drawsNaN a).isNaN_iff fp).mpr⟩
  · obtain ⟨hfin, hval⟩ := ffloor_value fp ha hout
    refine ⟨hfin, ?_⟩
    rw [Rat.floor_cast] at hval
    exact_mod_cast hval
  · simp only [List.mem_cons, List.not_mem_nil, or_false] at ha
    rcases ha with rfl | rfl | rfl | rfl
    · exact ffloor_zero fp (by decide)
    · exact ffloor_zero fp (by decide)
    · exact ffloor_inf fp (by decide)
    · exact ffloor_inf fp (by decide)

/-! ### Conversions (R113, R114) -/

/-- Settles O47: a byte is an integer of magnitude below `2^53`. -/
theorem integerConversionsExact : Obligations.IntegerConversionsExact := by
  have hint : ∀ i : ℤ, i.natAbs ≤ 2 ^ 53 → isFinite (intToF64 i) = true ∧ f64 (intToF64 i) = i := by
    intro i hi
    obtain ⟨hfin, hval⟩ := intToF64_exact hi
    exact ⟨hfin, by exact_mod_cast hval⟩
  refine ⟨hint, fun b => ?_, by decide, by decide⟩
  have hb : b.toNat < 2 ^ 8 := b.isLt
  exact hint b.toNat (by omega)

theorem f64_F256 : (f64 F256 : ℝ) = 256 := by
  rw [f64_of_unpack (show unpack F256 = .fin false (2 ^ 52) (-44) by decide)]
  norm_num [signFactor]

theorem toU8_nan {v : Word64} (h : isNaN v = true) : toU8 v = 0 := by
  rw [toU8, if_pos h]

theorem toU8_of_ge {v : Word64} (h : fge v F256 = true) : toU8 v = 255 := by
  have hn := ((fge_iff v F256).mp h).1
  rw [toU8, if_neg (Bool.eq_false_iff.mp hn), if_pos h]

theorem toU8_of_le {v : Word64} (h : fle v F0 = true) : toU8 v = 0 := by
  obtain ⟨hn, -, hkey⟩ := (fle_iff v F0).mp h
  have hlt : ¬ fge v F256 = true := by
    intro hge
    have hkey' := ((fge_iff v F256).mp hge).2.2
    have : ordKey F0 < ordKey F256 := by decide
    omega
  rw [toU8, if_neg (Bool.eq_false_iff.mp hn), if_neg hlt, if_pos h]

/-- Between 0 and 256 the byte is the integer part. -/
theorem toU8_of_between {v : Word64} (hf : isFinite v = true) (h0 : 0 < f64 v) (h256 : f64 v < 256) :
    ((toU8 v).toNat : ℤ) = ⌊f64 v⌋ := by
  obtain ⟨m, e, hu, -⟩ := unpack_fin hf
  have hn := isFinite_not_isNaN hf
  have h0' : (0 : ℝ) < f64 v := by exact_mod_cast h0
  have h256' : (f64 v : ℝ) < 256 := by exact_mod_cast h256
  have hge : ¬ fge v F256 = true := by
    rw [fge_iff, ordKey_le_iff (by decide) hf, f64_F256]
    exact fun h => absurd h.2.2 (not_le.mpr h256')
  have hle : ¬ fle v F0 = true := by
    rw [fle_finite hf (by decide), F0, f64_zero]
    exact not_le.mpr h0'
  have hval : (f64 v : ℝ) = m * 2 ^ e := by
    rw [f64_of_unpack hu, sign_eq_false_of_pos hu h0, signFactor, if_neg Bool.false_ne_true, one_mul]
  have hlt : intPart m e < 256 := by
    have : (intPart m e : ℝ) < 256 := by linarith [(intPart_bounds m e).1]
    exact_mod_cast this
  have hbyte : toU8 v = BitVec.ofNat 8 (intPart m e) := by
    rw [toU8, if_neg (Bool.eq_false_iff.mp hn), if_neg hge, if_neg hle]
    simp only [hu]
  rw [hbyte, BitVec.toNat_ofNat, Nat.mod_eq_of_lt hlt, ← Rat.floor_cast (α := ℝ), hval, floor_value]

/-- Settles O48: one lemma for each branch of `toU8`, and the rule's examples by evaluation. -/
theorem byteConversion : Obligations.ByteConversion :=
  ⟨fun _ => toU8_nan, fun _ => toU8_of_ge, fun _ => toU8_of_le, fun _ => toU8_of_between, by decide, by decide,
    by decide, by decide, by decide, by decide⟩

/-! ### Powers of two (R116, R117) -/

/-- The loop of R116 ends at a power of two that has reached `m`, if its turns suffice. -/
theorem le_two_pow_nextPow2Loop {m : Nat} : ∀ fuel n, m ≤ 2 ^ (n + fuel) → m ≤ 2 ^ nextPow2Loop m fuel n
  | 0, _, h => h
  | fuel + 1, n, h => by
    rw [nextPow2Loop]
    split
    · exact le_two_pow_nextPow2Loop fuel (n + 1) (by rwa [Nat.add_right_comm])
    · rename_i hge
      exact not_lt.mp hge

theorem isPow2_iff (m : Nat) : isPow2 m = true ↔ ∃ n, m = 2 ^ n := by
  rw [isPow2, beq_iff_eq]
  constructor
  · exact fun h => ⟨m.log2, h.symm⟩
  · rintro ⟨n, rfl⟩
    rw [Nat.log2_two_pow]

/-- Settles O49: the loop reaches `m` and never passes an exponent that does. -/
theorem powersOfTwo : Obligations.PowersOfTwo := by
  refine ⟨fun m => ⟨_, rfl, ?_, fun k hk => ?_⟩, fun m hm => ?_, by decide, by decide, by decide, by decide, by decide,
    by decide, by decide, by decide, isPow2_iff, fun n => Nat.log2_two_pow⟩
  · exact le_two_pow_nextPow2Loop m 0 (by rw [Nat.zero_add]; exact Nat.lt_two_pow_self.le)
  · exact Nat.pow_le_pow_right (by decide) (nextPow2Loop_le hk m 0 (Nat.zero_le k))
  · exact two_pow_le_nmax.mpr (nextPow2Loop_le hm m 0 (Nat.zero_le _))

end Sys2Proof.Machine
end

section
/-! PROOFS. The configuration functions (spec/40_numerics.md R110, R111; log entries 5, 6 and 21): their special values,
the bound of the sine and cosine, and where the results lie between the enclosures of the real values. -/

namespace Sys2Proof.Machine

/-! ### The bounds of a finite operand -/

theorem isFinite_of_unpack {a : Word64} {s : Bool} {m : Nat} {e : ℤ} (hu : unpack a = .fin s m e) :
    isFinite a = true := by
  rcases unpack_cases a with ⟨-, h⟩ | ⟨-, h⟩ | ⟨hf, -⟩
  · simp [hu] at h
  · simp [hu] at h
  · exact hf

/-- The bounds of a finite pattern's significand, exponent and leading bit. -/
theorem unpack_bounds {a : Word64} {s : Bool} {m : Nat} {e : ℤ} (hu : unpack a = .fin s m e) (hm : m ≠ 0) :
    m < 2 ^ 53 ∧ -1074 ≤ e ∧ (m.log2 : ℤ) + e < 1024 ∧ (m : ℝ) * 2 ^ e < 2 ^ 1024 := by
  have hf := isFinite_of_unpack hu
  obtain ⟨m', e', hu', hv, hm53, he, -⟩ := unpack_fin hf
  obtain ⟨-, rfl, rfl⟩ : s = a.msb ∧ m = m' ∧ e = e' := by simpa [hu] using hu'
  have hlt : (m : ℝ) * 2 ^ e < 2 ^ 1024 := by
    rw [hv, ← magVal_infMag]
    exact magVal_strictMono ((isFinite_iff a).mp hf)
  refine ⟨hm53, he, ?_, hlt⟩
  have hpow : (2 : ℝ) ^ ((m.log2 : ℤ) + e) < 2 ^ (1024 : ℤ) := by
    exact_mod_cast (le_value hm e).trans_lt hlt
  exact (zpow_lt_zpow_iff_right₀ (by norm_num)).mp hpow

/-! ### Results by the branches of the definitions -/

theorem fsin_fin (fp : Fpu) {a : Word64} {s : Bool} {m : Nat} {e : ℤ} (hu : unpack a = .fin s m e) (hm : m ≠ 0) :
    fsin fp a = withSign (s ^^ (encloseSin m e).1) (faithfulMag (fp.sinOffset a) (encloseSin m e).2) := by
  simp only [fsin, hu, if_neg hm]

theorem fcos_fin (fp : Fpu) {a : Word64} {s : Bool} {m : Nat} {e : ℤ} (hu : unpack a = .fin s m e) (hm : m ≠ 0) :
    fcos fp a = withSign (encloseCos m e).1 (faithfulMag (fp.cosOffset a) (encloseCos m e).2) := by
  simp only [fcos, hu, if_neg hm]

theorem flog10_fin_below_one (fp : Fpu) {a : Word64} {m : Nat} {e : ℤ} (hu : unpack a = .fin false m e) (hm : m ≠ 0)
    (hlog : (m.log2 : ℤ) + e < 0) :
    flog10 fp a = withSign true (faithfulMag (fp.log10Offset a) (encloseNegLog10 m e)) := by
  simp only [flog10, hu, if_neg hm, Bool.false_eq_true, if_false, if_neg (not_le.mpr hlog)]

/-- A zero returns itself from the sine and 1.0 from the cosine. -/
theorem fsin_zero (fp : Fpu) {a : Word64} (h : magBits a = 0) : fsin fp a = a := by
  obtain ⟨e, hu⟩ := unpack_zero h
  simp only [fsin, hu, if_true]

theorem fcos_zero (fp : Fpu) {a : Word64} (h : magBits a = 0) : fcos fp a = F1 := by
  obtain ⟨e, hu⟩ := unpack_zero h
  simp only [fcos, hu, if_true]

theorem flog10_zero (fp : Fpu) {a : Word64} (h : magBits a = 0) : flog10 fp a = withSign true infMag := by
  obtain ⟨e, hu⟩ := unpack_zero h
  simp only [flog10, hu, if_true]

/-! ### Sine and cosine: special values and the bound (R110) -/

/-- Faithful results of an enclosure that does not pass 1 do not pass 1.0. -/
theorem faithfulMag_le_one (off : ℤ) {b : Bool × Enclosure} {v : ℝ} (hv : Encloses b v)
    (hhi : (b.2.hi : ℝ) * 2 ^ b.2.exp ≤ (1 : ℕ) * 2 ^ (0 : ℤ)) : faithfulMag off b.2 ≤ 1023 * 2 ^ 52 := by
  obtain ⟨hlo, hup, -⟩ := hv
  calc faithfulMag off b.2 ≤ roundMag .up b.2.hi b.2.exp := (faithfulMag_bounds off hlo hup).2
    _ ≤ roundMag .up 1 0 := roundMag_up_mono hhi
    _ = 1023 * 2 ^ 52 := roundMag_up_one

theorem fsin_unit (fp : Fpu) {a : Word64} (ha : isFinite a = true) :
    isFinite (fsin fp a) = true ∧ |f64 (fsin fp a)| ≤ 1 := by
  obtain ⟨m, e, hu, -, -, -, hm0⟩ := unpack_fin ha
  by_cases hm : m = 0
  · rw [fsin_zero fp (hm0.mp hm)]
    refine ⟨ha, ?_⟩
    rw [(f64_eq_zero_iff ha).mpr (hm0.mp hm), abs_zero]
    exact zero_le_one
  · rw [fsin_fin fp hu hm]
    exact unit_withSign (faithfulMag_le_one _ (encloseSin_encloses e hm) (encloseSin_hi m e))

theorem fcos_unit (fp : Fpu) {a : Word64} (ha : isFinite a = true) :
    isFinite (fcos fp a) = true ∧ |f64 (fcos fp a)| ≤ 1 := by
  obtain ⟨m, e, hu, -, -, -, hm0⟩ := unpack_fin ha
  by_cases hm : m = 0
  · rw [fcos_zero fp (hm0.mp hm), show F1 = withSign false (1023 * 2 ^ 52) by decide]
    exact unit_withSign le_rfl
  · rw [fcos_fin fp hu hm]
    exact unit_withSign (faithfulMag_le_one _ (encloseCos_encloses e hm) (encloseCos_hi m e))

/-- What is not finite is a NaN or an infinity. -/
theorem nan_or_inf_of_not_finite {a : Word64} (h : isFinite a = false) : isNaN a = true ∨ magBits a = infMag := by
  rcases unpack_cases a with ⟨hn, -⟩ | ⟨hi, -⟩ | ⟨hf, -⟩
  · exact .inl hn
  · exact .inr hi
  · rw [h] at hf
    cases hf

/-- Settles O43: the zeros and the NaN results by the branches of the definitions, the bound by the enclosures', which do
not pass 1. -/
theorem sineAndCosineContract : Obligations.SineAndCosineContract := by
  refine fun fp => ⟨fsin_zero fp (by decide), fsin_zero fp (by decide), fcos_zero fp (by decide),
    fcos_zero fp (by decide), fun a ha => ?_, fun a ha => ?_⟩
  · have hcase := nan_or_inf_of_not_finite ha
    exact ⟨((fsin_drawsNaN a).isNaN_iff fp).mpr hcase, ((fcos_drawsNaN a).isNaN_iff fp).mpr hcase⟩
  · obtain ⟨hsf, hs1⟩ := fsin_unit fp ha
    obtain ⟨hcf, hc1⟩ := fcos_unit fp ha
    exact ⟨hsf, hcf, hs1, hc1⟩

/-! ### The logarithm: special values and its sign from 1.0 on (R111) -/

/-- The enclosure at 1.0, the power `10^0`, ends at zero. -/
theorem encloseLog10_one_hi : (encloseLog10 (2 ^ 52) (-52)).hi = 0 := by
  have hpow : isPow10 (2 ^ 52) (-52) (floorLog10 309 (intPart (2 ^ 52) (-52))) = true := by decide
  have hd : floorLog10 309 (intPart (2 ^ 52) (-52)) = 0 := by decide
  simp only [encloseLog10, if_pos hpow]
  rw [hd, Nat.zero_mul, Nat.min_zero]

theorem flog10_one (fp : Fpu) : flog10 fp F1 = F0 := by
  have hu : unpack F1 = .fin false (2 ^ 52) (-52) := by decide
  obtain ⟨-, -, -, hlt⟩ := unpack_bounds hu (by decide)
  obtain ⟨hlo, hhi⟩ := encloseLog10_encloses (by decide) (by decide) (by decide) (intPart_small hlt)
  have hle := (faithfulLog_bounds fp.log10Cut hlo hhi).2
  rw [encloseLog10_one_hi, roundMag, if_pos rfl] at hle
  rw [flog10_fin fp hu (by decide) (by decide), Nat.le_zero.mp hle]
  decide

theorem msb_flog10_of_ge_one (fp : Fpu) {a : Word64} (h : fle F1 a = true) : (flog10 fp a).msb = false := by
  rcases unpack_ge_one h with rfl | ⟨m, e, hu, hm, -, he, -⟩
  · rw [flog10_pinf]
    decide
  · have hm0 : m ≠ 0 := by omega
    have hlog : 52 ≤ m.log2 := (Nat.le_log2 hm0).mpr hm
    rw [flog10_fin fp hu hm0 (by omega)]
    exact msb_withSign (lt_of_le_of_lt (faithfulLog_le _ _) infMag_lt)

/-- Settles O44: at 1.0 the enclosure is the point zero; the cut points make the rest monotone (`flog10_mono`). -/
theorem logarithmContract : Obligations.LogarithmContract := by
  refine fun fp => ⟨flog10_one fp, flog10_pinf fp, flog10_zero fp (by decide), flog10_zero fp (by decide),
    fun a => ((flog10_drawsNaN a).isNaN_iff fp).mpr, flog10_mono fp, fun a h => ?_⟩
  rw [getLsbD_63_eq_msb]
  exact msb_flog10_of_ge_one fp h

/-! ### Results between the rounded bounds of an enclosure (log entries 5, 6) -/

/-- `v` lies in the enclosure, and `r` is a finite value between its bounds rounded outwards. -/
def RoundsWithin (b : Enclosure) (v : ℝ) (r : Word64) : Prop :=
  (b.lo : ℝ) * 2 ^ b.exp ≤ v ∧ v ≤ b.hi * 2 ^ b.exp ∧ isFinite r = true ∧
    roundMag .down b.lo b.exp ≤ magBits r ∧ magBits r ≤ roundMag .up b.hi b.exp

/-- A finite magnitude that is not above the lower bound is not above that bound rounded down. -/
theorem magBits_le_roundMag_down {b : Enclosure} {c : Word64} (hc : isFinite c = true)
    (h : |(f64 c : ℝ)| ≤ b.lo * 2 ^ b.exp) : magBits c ≤ roundMag .down b.lo b.exp := by
  obtain ⟨D, hD, -, hmax⟩ := roundMag_down_spec b.lo b.exp
  rw [f64_abs hc] at h
  rw [hD]
  exact le_min (hmax _ h) ((isFinite_iff c).mp hc).le

/-- A finite magnitude that is not below the upper bound is not below that bound rounded up. -/
theorem roundMag_up_le_magBits {b : Enclosure} {c : Word64} (hc : isFinite c = true)
    (h : b.hi * 2 ^ b.exp ≤ |(f64 c : ℝ)|) : roundMag .up b.hi b.exp ≤ magBits c := by
  obtain ⟨U, hU, -, hmin⟩ := roundMag_up_spec b.hi b.exp
  rw [f64_abs hc] at h
  rw [hU]
  exact (min_le_left _ _).trans (hmin _ h)

theorem f64_abs_lt_iff {a c : Word64} (ha : isFinite a = true) (hc : isFinite c = true) :
    |(f64 a : ℝ)| < |(f64 c : ℝ)| ↔ magBits a < magBits c := by
  rw [f64_abs ha, f64_abs hc, magVal_strictMono.lt_iff_lt]

/-- Where no representable magnitude lies inside the enclosure, none lies between the result and the real value. -/
theorem RoundsWithin.nothing_between {b : Enclosure} {v : ℝ} {r c : Word64} (h : RoundsWithin b v r)
    (hinside : ¬ ((b.lo : ℝ) * 2 ^ b.exp < |(f64 c : ℝ)| ∧ |(f64 c : ℝ)| < b.hi * 2 ^ b.exp)) (hc : isFinite c = true) :
    ¬ (|(f64 r : ℝ)| < |(f64 c : ℝ)| ∧ |(f64 c : ℝ)| < v) ∧ ¬ (v < |(f64 c : ℝ)| ∧ |(f64 c : ℝ)| < |(f64 r : ℝ)|) := by
  obtain ⟨hlo, hhi, hr, hdown, hup⟩ := h
  rw [f64_abs_lt_iff hr hc, f64_abs_lt_iff hc hr]
  refine ⟨fun ⟨hrc, hcv⟩ => ?_, fun ⟨hvc, hcr⟩ => ?_⟩
  · have hcl : |(f64 c : ℝ)| ≤ b.lo * 2 ^ b.exp := not_lt.mp fun hl => hinside ⟨hl, hcv.trans_le hhi⟩
    exact absurd (magBits_le_roundMag_down hc hcl) (by omega)
  · have hcu : b.hi * 2 ^ b.exp ≤ |(f64 c : ℝ)| := not_lt.mp fun hu => hinside ⟨hlo.trans_lt hvc, hu⟩
    exact absurd (roundMag_up_le_magBits hc hcu) (by omega)

/-- A result with a sign and magnitude bits between the rounded bounds. -/
theorem roundsWithin_withSign {b : Enclosure} {v : ℝ} {s : Bool} {mag : Nat} (hlo : (b.lo : ℝ) * 2 ^ b.exp ≤ v)
    (hhi : v ≤ b.hi * 2 ^ b.exp)
    (hmag : roundMag .down b.lo b.exp ≤ mag ∧ mag ≤ roundMag .up b.hi b.exp) (hfin : mag < infMag) :
    RoundsWithin b v (withSign s mag) := by
  refine ⟨hlo, hhi, finite_withSign hfin, ?_⟩
  rwa [magBits_withSign (hfin.trans infMag_lt)]

theorem fsin_roundsWithin (fp : Fpu) {a : Word64} {s : Bool} {m : Nat} {e : ℤ} (hu : unpack a = .fin s m e)
    (hm : m ≠ 0) : RoundsWithin (encloseSin m e).2 |Real.sin (m * 2 ^ e)| (fsin fp a) := by
  have henc := encloseSin_encloses e hm
  rw [fsin_fin fp hu hm]
  refine roundsWithin_withSign henc.1 henc.2.1 (faithfulMag_bounds _ henc.1 henc.2.1) ?_
  exact lt_of_le_of_lt (faithfulMag_le_one _ henc (encloseSin_hi m e)) (by decide)

theorem fcos_roundsWithin (fp : Fpu) {a : Word64} {s : Bool} {m : Nat} {e : ℤ} (hu : unpack a = .fin s m e)
    (hm : m ≠ 0) : RoundsWithin (encloseCos m e).2 |Real.cos (m * 2 ^ e)| (fcos fp a) := by
  have henc := encloseCos_encloses e hm
  rw [fcos_fin fp hu hm]
  refine roundsWithin_withSign henc.1 henc.2.1 (faithfulMag_bounds _ henc.1 henc.2.1) ?_
  exact lt_of_le_of_lt (faithfulMag_le_one _ henc (encloseCos_hi m e)) (by decide)

/-! ### The signs of the sine and cosine -/

theorem sin_signFactor_mul (s : Bool) (x : ℝ) : Real.sin (signFactor s * x) = signFactor s * Real.sin x := by
  cases s <;> simp [signFactor]

theorem cos_signFactor_mul (s : Bool) (x : ℝ) : Real.cos (signFactor s * x) = Real.cos x := by
  cases s <;> simp [signFactor]

/-- A lower bound above zero keeps the enclosed value from zero. -/
theorem Encloses.ne_zero {b : Bool × Enclosure} {v : ℝ} (h : Encloses b v) (hlo : 0 < b.2.lo) : v ≠ 0 := by
  have hpos : (0 : ℝ) < b.2.lo * 2 ^ b.2.exp := mul_pos (by exact_mod_cast hlo) (two_zpow_pos _)
  exact abs_pos.mp (hpos.trans_le h.1)

/-- The sign of an odd function of a signed argument. -/
theorem Encloses.xor_iff {b : Bool × Enclosure} {v : ℝ} (h : Encloses b v) (hlo : 0 < b.2.lo) (s : Bool) :
    (s ^^ b.1) = true ↔ signFactor s * v < 0 := by
  have hsign := h.2.2 hlo
  cases s with
  | false => simpa [signFactor] using hsign
  | true =>
    have hne := h.ne_zero hlo
    rw [Bool.true_xor, Bool.not_eq_true', ← Bool.not_eq_true, hsign, not_lt, signFactor, if_pos rfl, neg_one_mul,
      neg_lt_zero, lt_iff_le_and_ne]
    exact ⟨fun h => ⟨h, hne.symm⟩, And.left⟩

theorem msb_withSign_faithfulMag (s : Bool) (off : ℤ) (x : Enclosure) : (withSign s (faithfulMag off x)).msb = s :=
  msb_withSign (lt_of_le_of_lt (faithfulMag_le off x) infMag_lt)

theorem msb_fsin (fp : Fpu) {a : Word64} {s : Bool} {m : Nat} {e : ℤ} (hu : unpack a = .fin s m e) (hm : m ≠ 0)
    (hlo : 0 < (encloseSin m e).2.lo) : (fsin fp a).msb = true ↔ Real.sin (f64 a) < 0 := by
  rw [fsin_fin fp hu hm, msb_withSign_faithfulMag, f64_of_unpack hu, sin_signFactor_mul]
  exact (encloseSin_encloses e hm).xor_iff hlo s

theorem msb_fcos (fp : Fpu) {a : Word64} {s : Bool} {m : Nat} {e : ℤ} (hu : unpack a = .fin s m e) (hm : m ≠ 0)
    (hlo : 0 < (encloseCos m e).2.lo) : (fcos fp a).msb = true ↔ Real.cos (f64 a) < 0 := by
  rw [fcos_fin fp hu hm, msb_withSign_faithfulMag, f64_of_unpack hu, cos_signFactor_mul]
  exact (encloseCos_encloses e hm).2.2 hlo

/-! ### The logarithm -/

theorem logb_ten_le_of_le_two_pow {x : ℝ} (hx : 0 < x) {k : Nat} (h : x ≤ 2 ^ k) : Real.logb 10 x ≤ k := by
  rw [Real.logb_le_iff_le_rpow (by norm_num) hx, Real.rpow_natCast]
  exact h.trans (pow_le_pow_left₀ (by norm_num) (by norm_num) k)

theorem roundMag_up_2048 : roundMag .up 1 11 < infMag := by decide

/-- A narrow enclosure of a value of at most 1100 has an upper bound that is no infinity. -/
theorem roundMag_up_lt_of_narrow {b : Enclosure} {v : ℝ} (hlo : (b.lo : ℝ) * 2 ^ b.exp ≤ v) (hv : v ≤ 1100)
    (hw : ((b.hi : ℝ) - b.lo) * 2 ^ b.exp ≤ 2 ^ (-240 : ℤ)) : roundMag .up b.hi b.exp < infMag := by
  have hhi : (b.hi : ℝ) * 2 ^ b.exp ≤ (1 : ℕ) * 2 ^ (11 : ℤ) := by
    have hsmall : (2 : ℝ) ^ (-240 : ℤ) ≤ 1 := zpow_le_one_of_nonpos₀ (by norm_num) (by norm_num)
    rw [sub_mul] at hw
    norm_num
    linarith
  exact (roundMag_up_mono hhi).trans_lt roundMag_up_2048

theorem flog10_from_one (fp : Fpu) {a : Word64} {m : Nat} {e : ℤ} (hu : unpack a = .fin false m e) (hm : m ≠ 0)
    (h1 : (1 : ℝ) ≤ m * 2 ^ e) : RoundsWithin (encloseLog10 m e) (Real.logb 10 (m * 2 ^ e)) (flog10 fp a) ∧
      (((encloseLog10 m e).hi : ℝ) - (encloseLog10 m e).lo) * 2 ^ (encloseLog10 m e).exp ≤ 2 ^ (-240 : ℤ) ∧
      (flog10 fp a).msb = false := by
  obtain ⟨hm53, he, hlog, hlt⟩ := unpack_bounds hu hm
  have hlog0 : 0 ≤ (m.log2 : ℤ) + e := (one_le_iff hm e).mp h1
  have hwidth := encloseLog10_width hm hlog0 (logs_small hm53 hm) hlog
  obtain ⟨hlo, hhi⟩ := encloseLog10_encloses hm hlog0 (logs_small hm53 hm) (intPart_small hlt)
  have hv : Real.logb 10 (m * 2 ^ e) ≤ 1100 :=
    (logb_ten_le_of_le_two_pow (zero_lt_one.trans_le h1) hlt.le).trans (by norm_num)
  have hbounds := faithfulLog_bounds fp.log10Cut hlo hhi
  rw [flog10_fin fp hu hm hlog0]
  exact ⟨roundsWithin_withSign hlo hhi hbounds (hbounds.2.trans_lt (roundMag_up_lt_of_narrow hlo hv hwidth)), hwidth,
    msb_withSign (lt_of_le_of_lt (faithfulLog_le _ _) infMag_lt)⟩

theorem flog10_below_one (fp : Fpu) {a : Word64} {m : Nat} {e : ℤ} (hu : unpack a = .fin false m e) (hm : m ≠ 0)
    (h1 : (m : ℝ) * 2 ^ e < 1) : RoundsWithin (encloseNegLog10 m e) (-Real.logb 10 (m * 2 ^ e)) (flog10 fp a) ∧
      (((encloseNegLog10 m e).hi : ℝ) - (encloseNegLog10 m e).lo) * 2 ^ (encloseNegLog10 m e).exp ≤ 2 ^ (-240 : ℤ) ∧
      (flog10 fp a).msb = true := by
  obtain ⟨hm53, he, -, -⟩ := unpack_bounds hu hm
  have hlog : (m.log2 : ℤ) + e < 0 := not_le.mp fun h => absurd ((one_le_iff hm e).mpr h) (not_le.mpr h1)
  have hwidth := encloseNegLog10_width hm hlog (logs_small hm53 hm) he
  obtain ⟨hlo, hhi⟩ := encloseNegLog10_encloses hm hlog (logs_small hm53 hm)
  have hx0 : (0 : ℝ) < m * 2 ^ e := mul_pos (by exact_mod_cast Nat.pos_of_ne_zero hm) (two_zpow_pos e)
  have hinv : ((m : ℝ) * 2 ^ e)⁻¹ ≤ 2 ^ 1074 := by
    have hge : (2 : ℝ) ^ (-1074 : ℤ) ≤ m * 2 ^ e :=
      (zpow_le_zpow_right₀ (by norm_num) (by omega)).trans (le_value hm e)
    rw [inv_le_comm₀ hx0 (by positivity), ← zpow_natCast, ← zpow_neg]
    exact hge
  have hv : -Real.logb 10 (m * 2 ^ e) ≤ 1100 := by
    rw [← Real.logb_inv]
    exact (logb_ten_le_of_le_two_pow (inv_pos.mpr hx0) hinv).trans (by norm_num)
  have hbounds := faithfulMag_bounds (fp.log10Offset a) hlo hhi
  rw [flog10_fin_below_one fp hu hm hlog]
  exact ⟨roundsWithin_withSign hlo hhi hbounds (hbounds.2.trans_lt (roundMag_up_lt_of_narrow hlo hv hwidth)), hwidth,
    msb_withSign_faithfulMag _ _ _⟩

/-! ### The statement -/

theorem RoundsWithin.with_nothing_between {b : Enclosure} {v : ℝ} {r : Word64} (h : RoundsWithin b v r) :
    (b.lo : ℝ) * 2 ^ b.exp ≤ v ∧ v ≤ b.hi * 2 ^ b.exp ∧ isFinite r = true ∧
      roundMag .down b.lo b.exp ≤ magBits r ∧ magBits r ≤ roundMag .up b.hi b.exp ∧
      ((∀ c, isFinite c = true → ¬ ((b.lo : ℝ) * 2 ^ b.exp < |(f64 c : ℝ)| ∧ |(f64 c : ℝ)| < b.hi * 2 ^ b.exp)) →
        ∀ c, isFinite c = true → ¬ (|(f64 r : ℝ)| < |(f64 c : ℝ)| ∧ |(f64 c : ℝ)| < v) ∧
          ¬ (v < |(f64 c : ℝ)| ∧ |(f64 c : ℝ)| < |(f64 r : ℝ)|)) := by
  obtain ⟨hlo, hhi, hr, hdown, hup⟩ := id h
  exact ⟨hlo, hhi, hr, hdown, hup, fun hinside c hc => h.nothing_between (hinside c hc) hc⟩

/-- Settles O45: the enclosures contain the real values and are narrow, and each result is picked between the bounds
rounded outwards. -/
theorem configurationFunctionsEnclosed : Obligations.ConfigurationFunctionsEnclosed := by
  intro fp a s m e hu hm
  obtain ⟨-, -, hlog, -⟩ := unpack_bounds hu hm
  have hangle : angleBits m e ≤ 1024 := by
    unfold angleBits
    omega
  refine ⟨(fsin_roundsWithin fp hu hm).with_nothing_between, encloseSin_width hm hangle, fun hlo => ?_,
    (fcos_roundsWithin fp hu hm).with_nothing_between, encloseCos_width hm hangle, fun hlo => ?_, fun hs h1 => ?_,
    fun hs h1 => ?_⟩
  · rw [getLsbD_63_eq_msb]
    exact msb_fsin fp hu hm hlo
  · rw [getLsbD_63_eq_msb]
    exact msb_fcos fp hu hm hlo
  · subst hs
    obtain ⟨hwithin, hwidth, hsign⟩ := flog10_from_one fp hu hm h1
    exact ⟨hwithin.with_nothing_between, hwidth, (getLsbD_63_eq_msb _).trans hsign⟩
  · subst hs
    obtain ⟨hwithin, hwidth, hsign⟩ := flog10_below_one fp hu hm h1
    exact ⟨hwithin.with_nothing_between, hwidth, (getLsbD_63_eq_msb _).trans hsign⟩

end Sys2Proof.Machine
end

section
/-! PROOFS. The complex unit (spec/41_complex_unit.md R130 to R144): the completion, the result and the frame of its six
commands, the sign and the NaN cases of the magnitude, and the polar construction at magnitude 1.0. -/

namespace Sys2Proof.Machine

/-! ### The commands (R138 to R144) -/

/-- The next state of CSUB (R140). -/
theorem exec_csub (cd ca cb : CReg) (s : State) :
    exec (.csub cd ca cb) s = .next (accept (writeC cd (Csub (fpuOf s) (readC s ca) (readC s cb)) s)) := rfl

/-- The next state of CMUL (R141). -/
theorem exec_cmul (cd ca cb : CReg) (s : State) :
    exec (.cmul cd ca cb) s = .next (accept (writeC cd (Cmul (fpuOf s) (readC s ca) (readC s cb)) s)) := rfl

/-- The next state of CCONJ (R142). -/
theorem exec_cconj (cd ca : CReg) (s : State) :
    exec (.cconj cd ca) s = .next (accept (writeC cd (Cconj (readC s ca)) s)) := rfl

/-- The next state of CMAG (R143). -/
theorem exec_cmag (cd ca : CReg) (s : State) :
    exec (.cmag cd ca) s = .next (accept (writeC cd ⟨Cmag (fpuOf s) (readC s ca), F0⟩ s)) := rfl

/-- The next state of CPOLAR (R144). -/
theorem exec_cpolar (cd ca cb : CReg) (s : State) :
    exec (.cpolar cd ca cb) s =
      .next (accept (writeC cd (Cpolar (fpuOf s) (readC s ca).re (readC s cb).re) s)) := rfl

/-- Completing with one register written changes what the host reads of that register and of `STATUS`, and nothing else
(R64). -/
theorem unchangedOutside_accept_writeC (cd : CReg) (v : Sample) (s : State) :
    UnchangedOutside (cregTouch cd) s (accept (writeC cd v s)) := by
  refine ⟨fun sp idx hidx htouch => ?_, rfl, rfl, rfl⟩
  rw [cregTouch, not_or] at htouch
  obtain ⟨hstatus, hcreg⟩ := htouch
  rw [portRead_accept hstatus, portRead_writeC hidx hcreg]

/-- What R138 says of every command that completes by writing `v` to `c[cd]`. -/
theorem completes_of_exec_eq {i : Instr} {cd : CReg} {v : Sample} {s : State}
    (h : exec i s = .next (accept (writeC cd v s))) :
    ∃ t, exec i s = .next t ∧ readC t cd = v ∧ Accepted s t ∧ UnchangedOutside (cregTouch cd) s t := by
  refine ⟨_, h, ?_, ⟨rfl, rfl⟩, unchangedOutside_accept_writeC cd v s⟩
  rw [readC_accept, readC_writeC, if_pos rfl]

/-- Settles O15: each of the three completes by writing its function of the old sources. -/
theorem complexSumDifferenceProduct : Obligations.ComplexSumDifferenceProduct := fun cd ca cb s =>
  ⟨completes_of_exec_eq (exec_cadd cd ca cb s), completes_of_exec_eq (exec_csub cd ca cb s),
    completes_of_exec_eq (exec_cmul cd ca cb s)⟩

/-- Settles O16: both complete by writing their function of the old source. -/
theorem conjugateAndMagnitude : Obligations.ConjugateAndMagnitude := fun cd ca s =>
  ⟨completes_of_exec_eq (exec_cconj cd ca s), completes_of_exec_eq (exec_cmag cd ca s)⟩

/-- Settles O17: CPOLAR completes by writing a function of the two old real parts. -/
theorem polarConstruction : Obligations.PolarConstruction := fun cd ca cb s =>
  completes_of_exec_eq (exec_cpolar cd ca cb s)

/-! ### NaN operands of the steps of the magnitude (R106) -/

theorem isNaN_fmul_of_isNaN (fp : Fpu) {a b : Word64} (h : isNaN a = true) : isNaN (fmul fp a b) = true :=
  ((fmul_drawsNaN a b).isNaN_iff fp).mpr (.inl h)

theorem isNaN_fadd_of_isNaN (fp : Fpu) {a b : Word64} (h : isNaN a = true ∨ isNaN b = true) :
    isNaN (fadd fp a b) = true :=
  ((fadd_drawsNaN a b).isNaN_iff fp).mpr (h.imp_right .inl)

theorem isNaN_fsqrt_of_isNaN (fp : Fpu) {a : Word64} (h : isNaN a = true) : isNaN (fsqrt fp a) = true :=
  ((fsqrt_drawsNaN a).isNaN_iff fp).mpr (.inl h)

/-! ### The sign of the magnitude (R134) -/

/-- A NaN, or a value with its sign bit clear: what the steps of the magnitude return, whatever the numerics. -/
def NaNOrUnsigned (a : Word64) : Prop := isNaN a = true ∨ a.msb = false

/-- A square has the exclusive-or of a sign with itself. -/
theorem nanOrUnsigned_fmul_self (fp : Fpu) (a : Word64) : NaNOrUnsigned (fmul fp a a) := by
  cases hn : isNaN (fmul fp a a) with
  | true => exact .inl hn
  | false => exact .inr ((msb_fmul fp hn).trans (Bool.xor_self _))

theorem nanOrUnsigned_fadd (fp : Fpu) {a b : Word64} (ha : NaNOrUnsigned a) (hb : NaNOrUnsigned b) :
    NaNOrUnsigned (fadd fp a b) := by
  rcases ha with hn | ha
  · exact .inl (isNaN_fadd_of_isNaN fp (.inl hn))
  rcases hb with hn | hb
  · exact .inl (isNaN_fadd_of_isNaN fp (.inr hn))
  rcases unpack_class a with ⟨-, hn⟩ | ⟨hu, -⟩ | ⟨m, e, hu, -⟩
  · exact .inl (isNaN_fadd_of_isNaN fp (.inl hn))
  · rcases unpack_class b with ⟨-, hn⟩ | ⟨hu', -⟩ | ⟨n, f, hu', -⟩
    · exact .inl (isNaN_fadd_of_isNaN fp (.inr hn))
    · exact .inr (by simp only [fadd, sumWith, hu, hu', ha, hb, if_true])
    · exact .inr (by simp only [fadd, sumWith, hu, hu', ha])
  · rcases unpack_class b with ⟨-, hn⟩ | ⟨hu', -⟩ | ⟨n, f, hu', -⟩
    · exact .inl (isNaN_fadd_of_isNaN fp (.inr hn))
    · exact .inr (by simp only [fadd, sumWith, hu, hu', hb])
    · exact .inr (by simp only [fadd, sumWith, hu, hu', ha, hb, msb_addFinite_nonneg])

theorem nanOrUnsigned_fsqrt (fp : Fpu) {a : Word64} (ha : NaNOrUnsigned a) : NaNOrUnsigned (fsqrt fp a) := by
  rcases ha with hn | ha
  · exact .inl (isNaN_fsqrt_of_isNaN fp hn)
  rcases unpack_class a with ⟨-, hn⟩ | ⟨hu, -⟩ | ⟨m, e, hu, -⟩
  · exact .inl (isNaN_fsqrt_of_isNaN fp hn)
  · exact .inr (by simp [fsqrt, hu, ha])
  · by_cases hm : m = 0
    · exact .inr (by simp [fsqrt, hu, hm, ha])
    · exact .inr (by simp [fsqrt, hu, hm, ha, msb_sqrtFinite])

theorem nanOrUnsigned_Cmag (fp : Fpu) (z : Sample) : NaNOrUnsigned (Cmag fp z) :=
  nanOrUnsigned_fsqrt fp (nanOrUnsigned_fadd fp (nanOrUnsigned_fmul_self fp z.re) (nanOrUnsigned_fmul_self fp z.im))

/-! ### The NaN cases of the magnitude (R134) -/

/-- A NaN in a square passes through the sum and the root, also beside an infinity. -/
theorem isNaN_Cmag_of_isNaN_square (fp : Fpu) {z : Sample}
    (h : isNaN (fmul fp z.re z.re) = true ∨ isNaN (fmul fp z.im z.im) = true) : isNaN (Cmag fp z) = true :=
  isNaN_fsqrt_of_isNaN fp (isNaN_fadd_of_isNaN fp h)

/-- A magnitude that is no NaN is the same by every numerics record. -/
theorem Cmag_congr (fp fp' : Fpu) {z : Sample} (h : isNaN (Cmag fp' z) = false) : Cmag fp z = Cmag fp' z := by
  have hne : ¬ isNaN (Cmag fp' z) = true := Bool.eq_false_iff.mp h
  have hsum := Bool.eq_false_iff.mpr (mt (isNaN_fsqrt_of_isNaN fp') hne)
  have hre := Bool.eq_false_iff.mpr fun hn => hne (isNaN_Cmag_of_isNaN_square fp' (.inl hn))
  have him := Bool.eq_false_iff.mpr fun hn => hne (isNaN_Cmag_of_isNaN_square fp' (.inr hn))
  rw [Cmag, fmul_congr fp fp' hre, fmul_congr fp fp' him, fadd_congr fp fp' hsum]
  exact fsqrt_congr fp fp' h

/-- A magnitude by every numerics record, from an evaluation by the reference numerics. -/
theorem Cmag_eq_of_reference (fp : Fpu) {z : Sample} {v : Word64} (hv : Cmag Fpu.reference z = v)
    (hn : isNaN v = false) : Cmag fp z = v :=
  (Cmag_congr fp Fpu.reference (by rw [hv, hn])).trans hv

/-- Settles O50: the squares are unsigned or NaNs, and the sum and the root keep both; the examples by evaluation. -/
theorem magnitudeIsNeverNegative : Obligations.MagnitudeIsNeverNegative := by
  refine fun fp => ⟨fun z => ?_, fun z hz => ?_, ?_, ?_, ?_, ?_⟩
  · rw [getLsbD_63_eq_msb]
    exact nanOrUnsigned_Cmag fp z
  · exact isNaN_Cmag_of_isNaN_square fp (hz.imp (isNaN_fmul_of_isNaN fp) (isNaN_fmul_of_isNaN fp))
  · exact Cmag_eq_of_reference fp (by decide +kernel) (by decide)
  · exact Cmag_eq_of_reference fp (by decide +kernel) (by decide)
  · exact Cmag_eq_of_reference fp (by decide +kernel) (by decide)
  · exact Cmag_eq_of_reference fp (by decide +kernel) (by decide)

/-! ### The polar construction (R135) -/

theorem f64_F1 : (f64 F1 : ℝ) = 1 := by
  rw [f64, show unpack F1 = .fin false (2 ^ 52) (-52) by decide]
  norm_num

/-- Multiplying by 1.0 returns every operand that is no NaN, zeros of either sign included. -/
theorem F1_fmul (fp : Fpu) {a : Word64} (h : isNaN a = false) : fmul fp F1 a = a := by
  rcases inf_or_isFinite h with rfl | rfl | ha
  · rfl
  · rfl
  · by_cases h0 : f64 a = 0
    · rcases (isZero_iff a).mpr ((f64_eq_zero_iff ha).mp h0) with rfl | rfl <;> rfl
    · have hprod : CorrectlyRounded ((f64 F1 : ℝ) * f64 a) (fmul fp F1 a) := fmul_correctlyRounded fp (by decide) ha
      rw [f64_F1, one_mul] at hprod
      obtain ⟨hf, hval⟩ := hprod.exact ha rfl
      exact f64_inj hf ha hval (by rwa [hval])

/-- At an angle of either zero the parts are the products by 1.0 and by the angle itself. -/
theorem Cpolar_zero (fp : Fpu) (m : Word64) {t : Word64} (ht : magBits t = 0) :
    Cpolar fp m t = ⟨fmul fp m F1, fmul fp m t⟩ := by
  rw [Cpolar, fcos_zero fp ht, fsin_zero fp ht]

/-- Settles O51: a product by 1.0 is exact, and at the zeros the cosine and the sine are known. -/
theorem unitPolarIsExact : Obligations.UnitPolarIsExact := by
  refine fun fp => ⟨fun t hc hs => ?_, ?_, ?_⟩
  · exact congrArg₂ Sample.mk (F1_fmul fp hc) (F1_fmul fp hs)
  · rw [Cpolar_zero fp _ (by decide)]
    rfl
  · rw [Cpolar_zero fp _ (by decide)]
    rfl

end Sys2Proof.Machine
end

section
/-! PROOFS. The one-dimensional transform (spec/42_fft1d.md R150 to R160): one level of the recursion, the guard on the
inputs, the iterative form, and the completion, the result and the frame of the two commands. -/

namespace Sys2Proof.Machine

/-! ### One level of the recursion (R150 to R154) -/

/-- The base case on one sample (R151). -/
theorem Fft1_zero_singleton (fp : Fpu) (ps : Bool) (z : Sample) : Fft1 fp ps 0 [z] = [guardNaN z] := rfl

/-- Settles O53: the base case is the guard, and a level is combined element by element from the two halves. -/
theorem forwardTransform : Obligations.ForwardTransform := by
  refine fun fp ps => ⟨fun z => ?_, fun L x hx => ⟨length_Fft1 fp ps (L + 1) x hx, fun k hk => ?_⟩⟩
  · rw [Fft1_zero_singleton, guardNaN, CisNaN]
    exact apply_ite (fun y => [y]) _ _ _
  · have hhalves : x.length = 2 * 2 ^ L := by rw [hx, Nat.pow_succ']
    rw [← evens_eq hhalves, ← odds_eq hhalves]
    exact sampleAt_Fft1 fp ps hx hk

/-! ### The guard (R151, R155) -/

theorem guardNaN_of_not_CisNaN {z : Sample} (h : CisNaN z = false) : guardNaN z = z := by
  rw [guardNaN, h, if_neg Bool.false_ne_true]

theorem CisNaN_guardNaN (z : Sample) : CisNaN (guardNaN z) = false := by
  cases h : CisNaN z with
  | true => rw [guardNaN, if_pos h]; decide
  | false => rw [guardNaN_of_not_CisNaN h, h]

theorem guardNaN_guardNaN (z : Sample) : guardNaN (guardNaN z) = guardNaN z :=
  guardNaN_of_not_CisNaN (CisNaN_guardNaN z)

theorem evens_map (f : Sample → Sample) : ∀ x : Samples, evens (x.map f) = (evens x).map f
  | [] => rfl
  | [_] => rfl
  | a :: _ :: rest => congrArg (f a :: ·) (evens_map f rest)

theorem odds_map (f : Sample → Sample) : ∀ x : Samples, odds (x.map f) = (odds x).map f
  | [] => rfl
  | [_] => rfl
  | _ :: b :: rest => congrArg (f b :: ·) (odds_map f rest)

/-- Every input sample reaches the base case unchanged, where the guard acts on it; so guarding it before changes
nothing. -/
theorem Fft1_map_guardNaN (fp : Fpu) (ps : Bool) (L : Nat) (x : Samples) :
    Fft1 fp ps L (x.map guardNaN) = Fft1 fp ps L x := by
  induction L generalizing x with
  | zero =>
    rw [Fft1, Fft1, List.map_map]
    exact List.map_congr_left fun z _ => guardNaN_guardNaN z
  | succ L ih => rw [Fft1, Fft1, evens_map, odds_map, ih, ih]

/-- The transform of two samples: one butterfly. -/
theorem Fft1_pair (fp : Fpu) (ps : Bool) (a b : Sample) :
    let t := Cmul fp (guardNaN b) (twiddle fp ps 1 0)
    Fft1 fp ps 1 [a, b] = [Cadd fp (guardNaN a) t, Csub fp (guardNaN a) t] := rfl

/-- At `k = 0` of the first level without phase shift the angle is `-0.0` (R153). -/
theorem angle_false_one_zero (fp : Fpu) :
    fmul fp (fdiv fp NEG_TWO_PI (intToF64 (2 * 1 : Nat))) (intToF64 (phaseOf false 1 0)) = 0x8000000000000000 := by
  rw [fdiv_congr fp Fpu.reference (by decide +kernel), fmul_congr fp Fpu.reference (by decide +kernel)]
  decide +kernel

theorem twiddle_false_one_zero (fp : Fpu) : twiddle fp false 1 0 = ⟨F1, 0x8000000000000000⟩ := by
  rw [twiddle, angle_false_one_zero, Cpolar_zero fp F1 (by decide), F1_fmul fp (by decide), F1_fmul fp (by decide)]

theorem isNaN_fsub_of_isNaN (fp : Fpu) {a b : Word64} (h : isNaN a = true ∨ isNaN b = true) :
    isNaN (fsub fp a b) = true :=
  ((fsub_drawsNaN a b).isNaN_iff fp).mpr (h.imp_right .inl)

/-- The product of R155 (b)'s example: the infinite real part survives, and in the imaginary part it meets the zero of
the twiddle factor. -/
theorem Cmul_inf_twiddle (fp : Fpu) :
    let t := Cmul fp ⟨0x7FF0000000000000, F1⟩ (twiddle fp false 1 0)
    t.re = 0x7FF0000000000000 ∧ isNaN t.im = true := by
  rw [twiddle_false_one_zero]
  have hprod : isNaN (fmul fp 0x7FF0000000000000 0x8000000000000000) = true :=
    ((fmul_drawsNaN _ _).isNaN_iff fp).mpr (by decide)
  refine ⟨?_, isNaN_fadd_of_isNaN fp (.inl hprod)⟩
  change fsub fp (fmul fp 0x7FF0000000000000 F1) (fmul fp F1 0x8000000000000000) = _
  rw [F1_fmul fp (by decide), fmul_congr fp Fpu.reference (by decide +kernel),
    fsub_congr fp Fpu.reference (by decide +kernel)]
  decide +kernel

/-- Settles O54: the guard is idempotent and acts at the leaves alone, and R155 (b)'s example has the NaN of
`inf * -0.0` in both outputs. -/
theorem guardActsOnInputsOnly : Obligations.GuardActsOnInputsOnly := by
  refine fun fp => ⟨fun ps L x _ => Fft1_map_guardNaN fp ps L x, fun ps z hre him => ?_, ?_⟩
  · rw [Fft1_zero_singleton, guardNaN_of_not_CisNaN (by rw [CisNaN, hre, him, Bool.or_false])]
  · obtain ⟨hre, him⟩ := Cmul_inf_twiddle fp
    dsimp only
    rw [Fft1_pair, guardNaN_of_not_CisNaN (by decide), guardNaN_of_not_CisNaN (by decide)]
    exact ⟨rfl, (congrArg (fadd fp F1) hre).trans rfl, isNaN_fadd_of_isNaN fp (.inr him),
      (congrArg (fsub fp F1) hre).trans rfl, isNaN_fsub_of_isNaN fp (.inr him)⟩

/-! ### The iterative form (R156) -/

theorem sampleAt_append_left {a : Samples} (b : Samples) {k : Nat} (hk : k < a.length) :
    sampleAt (a ++ b) k = sampleAt a k :=
  List.getD_append a b zeroSample k hk

theorem sampleAt_append_right (a b : Samples) (k : Nat) : sampleAt (a ++ b) (a.length + k) = sampleAt b k := by
  rw [sampleAt, List.getD_append_right _ _ _ _ (Nat.le_add_right _ _), Nat.add_sub_cancel_left, sampleAt]

/-- A half of a level, element by element: the even half combined with the twiddled odd half (R154). -/
theorem zipWith_twiddled (f : Sample → Sample → Sample) (fp : Fpu) (ps : Bool) {h : Nat} {E O : Samples}
    (hE : E.length = h) (hO : O.length = h) : List.zipWith f E (twiddled fp ps h 0 O) =
      (List.range h).map fun k => f (sampleAt E k) (Cmul fp (sampleAt O k) (twiddle fp ps h k)) := by
  have hT : (twiddled fp ps h 0 O).length = h := (length_twiddled fp ps h 0 O).trans hO
  refine samples_ext (by simp [hE, hT]) fun k hk => ?_
  have hk : k < h := by simpa [hE, hT] using hk
  rw [sampleAt_map_range _ hk, sampleAt_zipWith f (hE ▸ hk) (hk.trans_eq hT.symm),
    sampleAt_twiddled fp ps h O 0 k (hO ▸ hk), Nat.zero_add]

/-- The last level joins two halves into one block by the butterflies of R154. -/
theorem fftStage_two_halves (fp : Fpu) (ps : Bool) {h : Nat} {E O : Samples} (hE : E.length = h) (hO : O.length = h) :
    fftStage fp ps h (2 * h) (E ++ O) =
      List.zipWith (Cadd fp) E (twiddled fp ps h 0 O) ++ List.zipWith (Csub fp) E (twiddled fp ps h 0 O) := by
  have heven : ∀ k, k < h → sampleAt (E ++ O) k = sampleAt E k := fun k hk => sampleAt_append_left O (hE ▸ hk)
  have hodd : ∀ k, sampleAt (E ++ O) (k + h) = sampleAt O k := fun k => by
    rw [Nat.add_comm, ← hE, sampleAt_append_right]
  rw [zipWith_twiddled _ fp ps hE hO, zipWith_twiddled _ fp ps hE hO, fftStage, Nat.two_mul, List.range_add,
    List.map_append, List.map_map]
  congr 1
  · refine List.map_congr_left fun k hmem => ?_
    have hk : k < h := List.mem_range.mp hmem
    have hblock : k % (h + h) = k := Nat.mod_eq_of_lt (by omega)
    simp only [hblock, Nat.mod_eq_of_lt hk, Nat.sub_self, Nat.zero_add, if_pos hk, heven k hk, hodd]
  · refine List.map_congr_left fun k hmem => ?_
    have hk : k < h := List.mem_range.mp hmem
    have hblock : (h + k) % (h + h) = h + k := Nat.mod_eq_of_lt (by omega)
    simp only [Function.comp, hblock, Nat.add_mod_left, Nat.mod_eq_of_lt hk, Nat.sub_self, Nat.zero_add,
      if_neg (show ¬ h + k < h by omega), heven k hk, hodd]

theorem length_fftLeaves (L : Nat) (x : Samples) : (fftLeaves L x).length = 2 ^ L := by
  rw [fftLeaves, List.length_map, List.length_range]

theorem length_FftIter (fp : Fpu) (ps : Bool) (L : Nat) (x : Samples) : (FftIter fp ps L x).length = 2 ^ L :=
  length_fftStages fp ps (2 ^ L) L _ (length_fftLeaves L x)

/-- One binary digit more: the iterative forms of the two halves, joined by the last level. -/
theorem FftIter_succ (fp : Fpu) (ps : Bool) (L : Nat) (x : Samples) : FftIter fp ps (L + 1) x =
    fftStage fp ps (2 ^ L) (2 * 2 ^ L) (FftIter fp ps L (evens x) ++ FftIter fp ps L (odds x)) := by
  rw [FftIter, fftStages, fftLeaves_succ,
    fftStages_append fp ps L _ _ (length_fftLeaves ..) (length_fftLeaves ..) L le_rfl, Nat.pow_succ']
  rfl

theorem FftIter_eq_Fft1 (fp : Fpu) (ps : Bool) (L : Nat) (x : Samples) (hx : x.length = 2 ^ L) :
    FftIter fp ps L x = Fft1 fp ps L x := by
  induction L generalizing x with
  | zero =>
    obtain ⟨z, rfl⟩ := List.length_eq_one_iff.mp hx
    rfl
  | succ L ih =>
    have hhalves : x.length = 2 * 2 ^ L := by rw [hx, Nat.pow_succ']
    rw [FftIter_succ, fftStage_two_halves fp ps (length_FftIter ..) (length_FftIter ..),
      ih _ (length_evens _ _ hhalves), ih _ (length_odds _ _ hhalves)]
    rfl

/-- Settles O55, by induction on the base-2 logarithm of the length. -/
theorem iterativeFormIsTheRecursion : Obligations.IterativeFormIsTheRecursion := FftIter_eq_Fft1

/-! ### The commands (R158, R160) -/

/-- The next state of FFT1D and FFT1D.NS within capacity (R158). -/
theorem exec_fft1d (ns : Bool) {s : State} (hcap : vecLog s ≤ Config.log2Nmax) : exec (.fft1d ns) s =
    .next (accept (writeVec (2 ^ vecLog s)
      (Fft1 (fpuOf s) (phaseShift ns) (vecLog s) (activeVec s (2 ^ vecLog s))) s)) :=
  runBody_ok (if_neg (Nat.not_lt.mpr hcap))

/-- The next state of IFFT1D within capacity (R160). -/
theorem exec_ifft1d {s : State} (hcap : vecLog s ≤ Config.log2Nmax) : exec .ifft1d s =
    .next (accept (writeVec (2 ^ vecLog s) (Ifft1 (fpuOf s) (vecLog s) (activeVec s (2 ^ vecLog s))) s)) :=
  runBody_ok (if_neg (Nat.not_lt.mpr hcap))

/-- Completing with the active region of `VEC` written changes what the host reads of that region and of `STATUS`, and
nothing else (R64). -/
theorem unchangedOutside_accept_writeVec (n : Nat) (y : Samples) (s : State) :
    UnchangedOutside (vecTouch n) s (accept (writeVec n y s)) := by
  refine ⟨fun sp idx _ htouch => ?_, rfl, rfl, rfl⟩
  rw [vecTouch, not_or] at htouch
  obtain ⟨hstatus, hvec⟩ := htouch
  rw [portRead_accept hstatus, portRead_writeVec hvec]

/-- What R158 and R160 say of a command that completes by writing `y` to the active region of `VEC`. -/
theorem completes_of_exec_eq_writeVec {i : Instr} {n : Nat} {y : Samples} {s : State} (hs : s.canonical = true)
    (h : exec i s = .next (accept (writeVec n y s))) :
    ∃ t, exec i s = .next t ∧ (∀ k, k < n → readVec t k = sampleAt y k) ∧ Accepted s t ∧
      UnchangedOutside (vecTouch n) s t :=
  ⟨_, h, fun _ hk => readVec_writeVec hs y hk, ⟨rfl, rfl⟩, unchangedOutside_accept_writeVec n y s⟩

/-- Settles O18: the command completes by writing the transform of the old active region. -/
theorem forwardTransformCommand : Obligations.ForwardTransformCommand := fun ns _ hs hcap =>
  completes_of_exec_eq_writeVec hs (exec_fft1d ns hcap)

theorem sampleAt_map_Cconj {y : Samples} {k : Nat} (hk : k < y.length) :
    sampleAt (y.map Cconj) k = Cconj (sampleAt y k) := by
  simp [sampleAt, hk]

/-- Element `k` of the inverse (R159). -/
theorem sampleAt_Ifft1 (fp : Fpu) {L : Nat} {x : Samples} (hx : x.length = 2 ^ L) {k : Nat} (hk : k < 2 ^ L) :
    sampleAt (Ifft1 fp L x) k = Cconj (sampleAt (Fft1 fp false L (x.map Cconj)) k) :=
  sampleAt_map_Cconj (by rwa [length_Fft1 fp false L _ ((List.length_map _).trans hx)])

theorem length_activeVec (s : State) (n : Nat) : (activeVec s n).length = n := by
  rw [activeVec, List.length_map, List.length_range]

/-- Settles O19: the command completes by writing the inverse of the old active region, read element by element. -/
theorem inverseTransformCommand : Obligations.InverseTransformCommand := by
  intro s hs hcap
  obtain ⟨t, hexec, hread, hframe⟩ := completes_of_exec_eq_writeVec hs (exec_ifft1d hcap)
  refine ⟨t, hexec, fun k hk => ?_, hframe⟩
  rw [hread k hk, sampleAt_Ifft1 _ (length_activeVec s _) hk, activeVec, List.map_map]
  rfl

end Sys2Proof.Machine
end

section
/-! PROOFS. The luma (spec/43_grayscale_padding.md R170): each of its six rounded operations is monotone, so every step
lies between the steps of the black and of the white pixel. -/

namespace Sys2Proof.Machine

/-- `a` and `c` are finite, `a` has its sign bit clear, and `a ≤ c`. -/
def UnsignedLe (a c : Word64) : Prop :=
  isFinite a = true ∧ a.msb = false ∧ isFinite c = true ∧ (f64 a : ℝ) ≤ f64 c

theorem UnsignedLe.isNaN_eq {a c : Word64} (h : UnsignedLe a c) : isNaN a = false := isFinite_not_isNaN h.1

theorem f64_nonneg_of_msb {a : Word64} (ha : isFinite a = true) (hs : a.msb = false) : (0 : ℝ) ≤ f64 a :=
  (nonneg_iff ha).mp ((fle_zero_iff a).mpr ⟨isFinite_not_isNaN ha, .inl hs⟩)

/-- Rounding keeps the order, and what lies between zero and a finite value is finite. -/
theorem unsignedLe_of_correctlyRounded {x y : ℝ} {a c : Word64} (ha : CorrectlyRounded x a)
    (hc : CorrectlyRounded y c) (hs : a.msb = false) (hxy : x ≤ y) (hfin : isFinite c = true) : UnsignedLe a c := by
  have hle : fle a c = true := ha.mono hc hxy
  have hzero : fle 0x0000000000000000 a = true := (fle_zero_iff a).mpr ⟨ha.isNaN_eq, .inl hs⟩
  have hafin : isFinite a = true := finite_of_between (by decide) hfin hzero hle
  exact ⟨hafin, hs, hfin, (fle_finite hafin hfin).mp hle⟩

theorem unsignedLe_fmul (fp : Fpu) {w a c : Word64} (hw : isFinite w = true) (hws : w.msb = false)
    (h : UnsignedLe a c) (hfin : isFinite (fmul fp w c) = true) : UnsignedLe (fmul fp w a) (fmul fp w c) := by
  obtain ⟨ha, hs, hc, hle⟩ := h
  have hround := fmul_correctlyRounded fp hw ha
  refine unsignedLe_of_correctlyRounded hround (fmul_correctlyRounded fp hw hc) ?_ ?_ hfin
  · rw [msb_fmul fp hround.isNaN_eq, hws, hs, Bool.xor_false]
  · exact mul_le_mul_of_nonneg_left hle (f64_nonneg_of_msb hw hws)

theorem unsignedLe_fadd (fp : Fpu) {a b c d : Word64} (h : UnsignedLe a c) (h' : UnsignedLe b d)
    (hfin : isFinite (fadd fp c d) = true) : UnsignedLe (fadd fp a b) (fadd fp c d) := by
  obtain ⟨ha, hs, hc, hle⟩ := h
  obtain ⟨hb, hs', hd, hle'⟩ := h'
  have hround : CorrectlyRounded ((f64 a : ℝ) + f64 b) (fadd fp a b) := sumWith_finite ha hb
  refine unsignedLe_of_correctlyRounded hround (sumWith_finite hc hd) ?_ (add_le_add hle hle') hfin
  exact (nanOrUnsigned_fadd fp (.inr hs) (.inr hs')).resolve_left (Bool.eq_false_iff.mp hround.isNaN_eq)

theorem unsignedLe_fdiv (fp : Fpu) {w a c : Word64} (hw : isFinite w = true) (hws : w.msb = false) (hw0 : f64 w ≠ 0)
    (h : UnsignedLe a c) (hfin : isFinite (fdiv fp c w) = true) : UnsignedLe (fdiv fp a w) (fdiv fp c w) := by
  obtain ⟨ha, hs, hc, hle⟩ := h
  have hround := fdiv_correctlyRounded fp ha hw hw0
  refine unsignedLe_of_correctlyRounded hround (fdiv_correctlyRounded fp hc hw hw0) ?_ ?_ hfin
  · rw [msb_fdiv fp hround.isNaN_eq, hws, hs, Bool.xor_false]
  · exact div_le_div_of_nonneg_right hle (f64_nonneg_of_msb hw hws)

theorem unsignedLe_u8ToF64 (b : Byte) : UnsignedLe (u8ToF64 b) (u8ToF64 255) := by
  have hexact : ∀ x : Byte, isFinite (u8ToF64 x) = true ∧ (f64 (u8ToF64 x) : ℝ) = (x.toNat : ℤ) := fun x =>
    intToF64_exact (by have := x.isLt; omega)
  have hle : (b.toNat : ℤ) ≤ ((255 : Byte).toNat : ℤ) := by have := b.isLt; simp; omega
  refine ⟨(hexact b).1, ?_, (hexact 255).1, ?_⟩
  · rw [u8ToF64, intToF64, msb_pack, decide_eq_false_iff_not]
    omega
  · rw [(hexact b).2, (hexact 255).2]
    exact_mod_cast hle

/-- The six steps of R170, each below the same step of the white pixel, with the reference numerics. -/
theorem luma_steps_unsignedLe (r g b : Byte) :
    let mul := fmul Fpu.reference
    let add := fadd Fpu.reference
    UnsignedLe (mul W_R (u8ToF64 r)) (mul W_R (u8ToF64 255)) ∧
      UnsignedLe (mul W_G (u8ToF64 g)) (mul W_G (u8ToF64 255)) ∧
      UnsignedLe (mul W_B (u8ToF64 b)) (mul W_B (u8ToF64 255)) ∧
      UnsignedLe (add (mul W_R (u8ToF64 r)) (mul W_G (u8ToF64 g)))
        (add (mul W_R (u8ToF64 255)) (mul W_G (u8ToF64 255))) ∧
      UnsignedLe (add (add (mul W_R (u8ToF64 r)) (mul W_G (u8ToF64 g))) (mul W_B (u8ToF64 b)))
        (add (add (mul W_R (u8ToF64 255)) (mul W_G (u8ToF64 255))) (mul W_B (u8ToF64 255))) ∧
      UnsignedLe (Luma Fpu.reference r g b) (Luma Fpu.reference 255 255 255) := by
  have hweighted : ∀ {w} (x : Byte), isFinite w = true → w.msb = false →
      isFinite (fmul Fpu.reference w (u8ToF64 255)) = true →
      UnsignedLe (fmul Fpu.reference w (u8ToF64 x)) (fmul Fpu.reference w (u8ToF64 255)) :=
    fun x hw hws => unsignedLe_fmul Fpu.reference hw hws (unsignedLe_u8ToF64 x)
  have hred := hweighted (w := W_R) r (by decide) (by decide) (by decide +kernel)
  have hgreen := hweighted (w := W_G) g (by decide) (by decide) (by decide +kernel)
  have hblue := hweighted (w := W_B) b (by decide) (by decide) (by decide +kernel)
  have hpair := unsignedLe_fadd Fpu.reference hred hgreen (by decide +kernel)
  have hsum := unsignedLe_fadd Fpu.reference hpair hblue (by decide +kernel)
  have h100 : f64 F100 ≠ 0 := fun h => absurd ((f64_eq_zero_iff (by decide)).mp h) (by decide)
  have hluma := unsignedLe_fdiv Fpu.reference (w := F100) (by decide) (by decide) h100 hsum (by decide +kernel)
  exact ⟨hred, hgreen, hblue, hpair, hsum, hluma⟩

/-- No step of a luma is a NaN, so the luma is the same by every numerics record. -/
theorem Luma_eq_reference (fp : Fpu) (r g b : Byte) : Luma fp r g b = Luma Fpu.reference r g b := by
  obtain ⟨hred, hgreen, hblue, hpair, hsum, hluma⟩ := luma_steps_unsignedLe r g b
  exact Luma_congr fp Fpu.reference hred.isNaN_eq hgreen.isNaN_eq hblue.isNaN_eq hpair.isNaN_eq hsum.isNaN_eq
    hluma.isNaN_eq

theorem Luma_reference_white : Luma Fpu.reference 255 255 255 = 0x406FE00000000000 := by decide +kernel

/-- Settles O52: the luma is unsigned and at most that of the white pixel, by the monotonicity of its six steps; the
three values by evaluation. -/
theorem lumaWithinRange : Obligations.LumaWithinRange := by
  intro fp
  simp only [Luma_eq_reference fp]
  refine ⟨fun r g b => ?_, by decide +kernel, Luma_reference_white, by decide +kernel⟩
  obtain ⟨-, -, -, -, -, hfin, hs, hwhite, hle⟩ := luma_steps_unsignedLe r g b
  rw [getLsbD_63_eq_msb, ← Luma_reference_white]
  exact ⟨(nonneg_iff hfin).mpr (f64_nonneg_of_msb hfin hs), (fle_finite hfin hwhite).mpr hle, hs⟩

end Sys2Proof.Machine
end

section
/-! PROOFS. Grayscale and padding (spec/43_grayscale_padding.md R171 to R175): the completion, the result and the frame
of GRAY and PAD, what alpha cannot reach, and what a padded canvas is good for. -/

namespace Sys2Proof.Machine

/-! ### Acceptance (R221, R242) -/

/-- `LAST_ERR = 0` after a command means that its body completed. -/
theorem ok_of_lastErr_eq_zero {body : State → Except ErrCode State} {s t : State} (h : runBody body s = .next t)
    (h0 : t.lastErr = 0) : ∃ s', body s = .ok s' ∧ t = accept s' := by
  rcases runBody_eq_next.mp h with ⟨e, -, rfl⟩ | hok
  · obtain ⟨-, -, hne⟩ := code_bounds e
    exact absurd h0 hne
  · exact hok

/-! ### Reads of the buffers past the updates that leave them alone -/

theorem readGrid_accept_setGridLog (s : State) (n i j : Nat) :
    readGrid (accept (setGridLog n s)) i j = readGrid s i j := rfl

theorem readPixel_accept_setPixDims (s : State) (k j : PixBuf) (n x y : Nat) :
    readPixel (accept (setPixDims k n s)) j x y = readPixel s j x y := by
  cases k <;> cases j <;> rfl

theorem gridLog_accept_setGridLog (s : State) {n : Nat} (hn : n ≤ Config.log2Nmax) :
    gridLog (accept (setGridLog n s)) = n := by
  have hcap := log2Nmax_le
  rw [gridLog, accept_gridLog2n, setGridLog_gridLog2n, BitVec.toNat_ofNat]
  exact Nat.mod_eq_of_lt (by omega)

/-! ### The commands that write the grid from a picture (R172, R192) -/

/-- The luma samples of the active region of buffer `ps` (R171). -/
def grayGrid (ps : PixBuf) (s : State) : SampleGrid := Gray (fpuOf s) (readPixel s ps) (pixW s ps)

/-- The common body of GRAY and FWD2D: after the size check a function of the luma grid goes to `G`. -/
def bodyGridFrom (f : Fpu → Nat → SampleGrid → SampleGrid) (ps : PixBuf) (s : State) : Except ErrCode State :=
  (CheckSquarePow2 (pixW s ps) (pixH s ps)).map fun n =>
    setGridLog n (writeGrid (pixW s ps) (f (fpuOf s) n (grayGrid ps s)) s)

theorem exec_gray (ps : PixBuf) (s : State) :
    exec (.gray ps) s = runBody (bodyGridFrom (fun _ _ a => a) ps) s := by
  simp only [exec, execGray, runBody, bodyGray, bodyGridFrom]
  cases CheckSquarePow2 (pixW s ps) (pixH s ps) <;> rfl

theorem exec_fwd2d (ps : PixBuf) (s : State) : exec (.fwd2d ps) s = runBody (bodyGridFrom Fwd2DGrid ps) s := by
  simp only [exec, execFwd2d, runBody, bodyFwd2d, bodyGridFrom]
  cases CheckSquarePow2 (pixW s ps) (pixH s ps) <;> rfl

theorem exists_exec_eq_bodyGridFrom {ps : PixBuf} {i : Instr} (hi : i ∈ [Instr.gray ps, Instr.fwd2d ps]) :
    ∃ f, ∀ s, exec i s = runBody (bodyGridFrom f ps) s := by
  simp only [List.mem_cons, List.not_mem_nil, or_false] at hi
  rcases hi with rfl | rfl
  · exact ⟨_, exec_gray ps⟩
  · exact ⟨_, exec_fwd2d ps⟩

variable {f : Fpu → Nat → SampleGrid → SampleGrid} {ps pd : PixBuf} {s : State} {n : Nat}

theorem bodyGridFrom_of_check (hcheck : CheckSquarePow2 (pixW s ps) (pixH s ps) = .ok n) :
    bodyGridFrom f ps s = .ok (setGridLog n (writeGrid (2 ^ n) (f (fpuOf s) n (grayGrid ps s)) s)) := by
  obtain ⟨-, -, hW⟩ := checkSquarePow2_ok hcheck
  rw [bodyGridFrom, hcheck, ← hW]
  rfl

theorem runBody_bodyGridFrom_of_error {e : ErrCode} (hcheck : CheckSquarePow2 (pixW s ps) (pixH s ps) = .error e) :
    runBody (bodyGridFrom f ps) s = .next (reject e s) :=
  runBody_error (by rw [bodyGridFrom, hcheck]; rfl)

theorem check_of_pow2 (hn : n ≤ Config.log2Nmax) (hW : pixW s ps = 2 ^ n) (hH : pixH s ps = 2 ^ n) :
    CheckSquarePow2 (pixW s ps) (pixH s ps) = .ok n := by
  rw [hW, hH, checkSquarePow2_of hn]

/-- Completing with the grid written changes what the host reads of that region, of `GRID_LOG2N` and of `STATUS`, and
nothing else (R64). -/
theorem unchangedOutside_accept_writeGrid (n m : Nat) (a : SampleGrid) (s : State) :
    UnchangedOutside (gridTouch n) s (accept (setGridLog m (writeGrid n a s))) := by
  refine ⟨fun sp idx _ htouch => ?_, rfl, rfl, rfl⟩
  rw [gridTouch, not_or, not_or] at htouch
  obtain ⟨hstatus, hlog, hgrid⟩ := htouch
  rw [portRead_accept hstatus, portRead_setGridLog hlog, portRead_writeGrid hgrid]

/-- What R172 and R192 say of a source that is a square of a power of two within capacity. -/
theorem completes_bodyGridFrom (hs : s.canonical = true) (hn : n ≤ Config.log2Nmax) (hW : pixW s ps = 2 ^ n)
    (hH : pixH s ps = 2 ^ n) :
    ∃ t, runBody (bodyGridFrom f ps) s = .next t ∧
      (∀ i j, i < 2 ^ n → j < 2 ^ n → readGrid t i j = gridAt (f (fpuOf s) n (grayGrid ps s)) i j) ∧
      gridLog t = n ∧ Accepted s t ∧ UnchangedOutside (gridTouch (2 ^ n)) s t := by
  refine ⟨_, runBody_ok (bodyGridFrom_of_check (check_of_pow2 hn hW hH)), fun i j hi hj => ?_,
    gridLog_accept_setGridLog _ hn, ⟨rfl, rfl⟩, unchangedOutside_accept_writeGrid ..⟩
  rw [readGrid_accept_setGridLog, readGrid_writeGrid hs _ (two_pow_le_nmax.mpr hn) hi hj]

theorem gridAt_Gray (fp : Fpu) (P : Nat → Nat → Pixel) {side x y : Nat} (hx : x < side) (hy : y < side) :
    gridAt (Gray fp P side) x y = graySample fp (P x y) := by
  have hrow : (Gray fp P side).getD x [] = (List.range side).map fun y => graySample fp (P x y) := by
    simp [Gray, List.getD_eq_getElem?_getD, hx]
  rw [gridAt, hrow, sampleAt_map_range _ hy]

/-- Settles O20: the grid read back is the luma grid, whose steps the statement spells out. -/
theorem grayscaleCommand : Obligations.GrayscaleCommand := by
  intro ps n s hs hn hW hH
  obtain ⟨t, hexec, hread, hframe⟩ := completes_bodyGridFrom (f := fun _ _ a => a) hs hn hW hH
  refine ⟨t, (exec_gray ps s).trans hexec, fun x y hx hy => ?_, hframe⟩
  rw [hread x y hx hy, grayGrid, hW, gridAt_Gray _ _ hx hy]
  rfl

/-! ### Alpha (R171) -/

/-- The luma grid reads the red, green and blue bytes alone. -/
theorem Gray_congr (fp : Fpu) {P Q : Nat → Nat → Pixel} {side : Nat}
    (h : ∀ x y, x < side → y < side → (P x y).r = (Q x y).r ∧ (P x y).g = (Q x y).g ∧ (P x y).b = (Q x y).b) :
    Gray fp P side = Gray fp Q side := by
  refine List.map_congr_left fun x hx => List.map_congr_left fun y hy => ?_
  obtain ⟨hr, hg, hb⟩ := h x y (List.mem_range.mp hx) (List.mem_range.mp hy)
  rw [graySample, graySample, hr, hg, hb]

/-- Settles O32: the size check sees the dimensions alone; where it fails both states are rejected alike, and where it
passes both luma grids are equal. -/
theorem alphaNeverReachesTheGrid : Obligations.AlphaNeverReachesTheGrid := by
  intro ps s s' t t' hs hs' hdraws hW hH hrgb i hi ht ht'
  obtain ⟨f, hexec⟩ := exists_exec_eq_bodyGridFrom hi
  rw [hexec] at ht ht'
  cases hcheck : CheckSquarePow2 (pixW s ps) (pixH s ps) with
  | error e =>
    cases (runBody_bodyGridFrom_of_error hcheck).symm.trans ht
    cases (runBody_bodyGridFrom_of_error (hW ▸ hH ▸ hcheck)).symm.trans ht'
    obtain ⟨-, -, hne⟩ := code_bounds e
    exact ⟨rfl, fun h0 => absurd h0 hne⟩
  | ok n =>
    obtain ⟨hcap, hsquare, hside⟩ := checkSquarePow2_ok hcheck
    have hn : n ≤ Config.log2Nmax := two_pow_le_nmax.mp (hside ▸ hcap)
    obtain ⟨u, hu, hread, hlog, ⟨herr, -⟩, -⟩ := completes_bodyGridFrom (f := f) hs hn hside (hsquare ▸ hside)
    obtain ⟨u', hu', hread', hlog', ⟨herr', -⟩, -⟩ :=
      completes_bodyGridFrom (f := f) hs' hn (hW ▸ hside) (hH ▸ hsquare ▸ hside)
    cases hu.symm.trans ht
    cases hu'.symm.trans ht'
    have hfp : fpuOf s = fpuOf s' := congrArg Config.fpu hdraws
    have hgray : grayGrid ps s = grayGrid ps s' := by
      rw [grayGrid, grayGrid, ← hfp, ← hW]
      exact Gray_congr _ fun x y hx hy => hrgb x y hx (hsquare ▸ hy)
    refine ⟨herr.trans herr'.symm, fun _ => ⟨hlog.trans hlog'.symm, fun x y hx hy => ?_⟩⟩
    rw [hread x y (hside ▸ hx) (hside ▸ hy), hread' x y (hside ▸ hx) (hside ▸ hy), hfp, hgray]

/-! ### PAD (R174, R175) -/

/-- The side of the canvas is the least power of two that reaches both dimensions (R116). -/
theorem padSide_spec (W H : Nat) :
    ∃ n, padSide W H = 2 ^ n ∧ max W H ≤ 2 ^ n ∧ ∀ m, max W H ≤ 2 ^ m → n ≤ m := by
  obtain ⟨hpow, -⟩ := powersOfTwo
  obtain ⟨n, hside, hle, hleast⟩ := hpow (max W H)
  exact ⟨n, hside, hle, fun m hm => (Nat.pow_le_pow_iff_right (by decide)).mp (hleast m hm)⟩

/-- The state PAD completes in (R175). -/
def padded (pd ps : PixBuf) (s : State) : State :=
  let side := padSide (pixW s ps) (pixH s ps)
  accept (setPixDims pd side (writePixels pd side (padPixel (readPixel s ps) (pixW s ps) (pixH s ps)) s))

theorem exec_pad (hne : pd ≠ ps) (hW : pixW s ps ≤ Config.nmax) (hH : pixH s ps ≤ Config.nmax) :
    exec (.pad pd ps) s = .next (padded pd ps s) := by
  have hcap : ¬ (Config.nmax < pixW s ps ∨ Config.nmax < pixH s ps) := by omega
  exact runBody_ok (by rw [bodyPad, if_neg hne, if_neg hcap])

/-- PAD is accepted for different buffers and a source within capacity alone. -/
theorem pad_accepted {t : State} (h : exec (.pad pd ps) s = .next t) (h0 : t.lastErr = 0) :
    pd ≠ ps ∧ pixW s ps ≤ Config.nmax ∧ pixH s ps ≤ Config.nmax ∧ t = padded pd ps s := by
  obtain ⟨s', hok, rfl⟩ := ok_of_lastErr_eq_zero (body := bodyPad pd ps) h h0
  rw [bodyPad] at hok
  split at hok
  · cases hok
  · rename_i hne
    obtain ⟨hcap, rfl⟩ := ite_error_ok hok
    exact ⟨hne, by omega, by omega, rfl⟩

/-- Completing with a picture and its dimensions written changes what the host reads of those and of `STATUS`, and
nothing else (R64). -/
theorem unchangedOutside_accept_writePixels (k : PixBuf) (n : Nat) (q : Nat → Nat → Pixel) (s : State) :
    UnchangedOutside (pixTouch k n) s (accept (setPixDims k n (writePixels k n q s))) := by
  refine ⟨fun sp idx _ htouch => ?_, by simp, by simp, by simp⟩
  rw [pixTouch, not_or, not_or] at htouch
  obtain ⟨hstatus, hdims, hpix⟩ := htouch
  rw [portRead_accept hstatus, portRead_setPixDims hdims, portRead_writePixels hpix]

/-- Both dimension registers of the canvas hold its side, which their 16 bits can (R5, R29). -/
theorem pixW_pixH_padded (hW : pixW s ps ≤ Config.nmax) (hH : pixH s ps ≤ Config.nmax) :
    pixW (padded pd ps s) pd = padSide (pixW s ps) (pixH s ps) ∧
      pixH (padded pd ps s) pd = padSide (pixW s ps) (pixH s ps) := by
  have hfits : padSide (pixW s ps) (pixH s ps) % 2 ^ 16 = padSide (pixW s ps) (pixH s ps) :=
    Nat.mod_eq_of_lt (by have := padSide_le hW hH; have := nmax_le; omega)
  constructor
  · exact (setPixDims_pixW _ pd pd _).trans ((if_pos rfl).trans hfits)
  · exact (setPixDims_pixH _ pd pd _).trans ((if_pos rfl).trans hfits)

theorem readPixel_padded (hs : s.canonical = true) (hW : pixW s ps ≤ Config.nmax) (hH : pixH s ps ≤ Config.nmax)
    {x y : Nat} (hx : x < padSide (pixW s ps) (pixH s ps)) (hy : y < padSide (pixW s ps) (pixH s ps)) :
    readPixel (padded pd ps s) pd x y = padPixel (readPixel s ps) (pixW s ps) (pixH s ps) x y := by
  rw [padded, readPixel_accept_setPixDims, readPixel_writePixels hs _ _ (padSide_le hW hH) hx hy]

theorem canonical_padded (hs : s.canonical = true) : (padded pd ps s).canonical = true := by
  rw [padded, canonical_accept, canonical_setPixDims]
  exact canonical_writePixels _ _ _ hs

/-- Settles O21: the canvas is that of R174, on the least power of two that reaches both dimensions. -/
theorem padCommand : Obligations.PadCommand := by
  intro pd ps s hs hne hW hH
  obtain ⟨n, hside, hle, hleast⟩ := padSide_spec (pixW s ps) (pixH s ps)
  obtain ⟨hpw, hph⟩ := pixW_pixH_padded (pd := pd) hW hH
  have hframe := unchangedOutside_accept_writePixels pd (padSide (pixW s ps) (pixH s ps))
    (padPixel (readPixel s ps) (pixW s ps) (pixH s ps)) s
  have hsticky : (padded pd ps s).sticky = s.sticky := by simp [padded]
  rw [hside] at hframe
  refine ⟨n, padded pd ps s, hle, hleast, exec_pad hne hW hH, fun x y hx hy => ?_, hpw.trans hside, hph.trans hside,
    ⟨rfl, hsticky⟩, ?_⟩
  · rw [readPixel_padded hs hW hH (hside ▸ hx) (hside ▸ hy), padPixel, hside]
    rfl
  · rw [padded, hside]
    exact hframe

/-- Settles O58: the canvas of a canvas has the same side, so no margin. -/
theorem paddingTwiceChangesNothing : Obligations.PaddingTwiceChangesNothing := by
  intro pd ps s t hs ht h0
  obtain ⟨hne, hW, hH, rfl⟩ := pad_accepted ht h0
  obtain ⟨hpw, hph⟩ := pixW_pixH_padded (pd := pd) hW hH
  have hcap := padSide_le hW hH
  obtain ⟨n, hside, -⟩ := padSide_spec (pixW s ps) (pixH s ps)
  obtain ⟨m, u, hge, hleast, hu, hread, hw, hh, ⟨herr, -⟩, -⟩ := padCommand ps pd (padded pd ps s)
    (canonical_padded hs) hne.symm (hpw ▸ hcap) (hph ▸ hcap)
  rw [hpw, hph, hside, max_self] at hge hleast
  obtain rfl : m = n := le_antisymm (hleast n le_rfl) ((Nat.pow_le_pow_iff_right (by decide)).mp hge)
  rw [hpw, hph, hside] at hread ⊢
  refine ⟨u, hu, herr, hw, hh, rfl, fun x y hx hy => ?_⟩
  simp [hread x y hx hy, hx, hy]

/-- Settles O59: the canvas is a square of a power of two within capacity. -/
theorem paddedImageIsAlwaysTransformable : Obligations.PaddedImageIsAlwaysTransformable := by
  intro pd ps s t ht h0 i hi
  obtain ⟨-, hW, hH, rfl⟩ := pad_accepted ht h0
  obtain ⟨hpw, hph⟩ := pixW_pixH_padded (pd := pd) hW hH
  obtain ⟨n, hside, -⟩ := padSide_spec (pixW s ps) (pixH s ps)
  have hn : n ≤ Config.log2Nmax := two_pow_le_nmax.mp (hside ▸ padSide_le hW hH)
  obtain ⟨f, hexec⟩ := exists_exec_eq_bodyGridFrom (ps := pd) (List.mem_pair.mpr (List.mem_pair.mp hi).symm)
  have hcheck := check_of_pow2 hn (hpw.trans hside) (hph.trans hside)
  refine ⟨_, (hexec _).trans (runBody_ok (bodyGridFrom_of_check hcheck)), rfl, rfl, ?_⟩
  rw [gridLog_accept_setGridLog _ hn, hpw, hside]

end Sys2Proof.Machine
end

section
/-! PROOFS. The two-dimensional transforms (spec/44_fft2d.md R190 to R196): a grid given row by row goes through each
pass row by row, so both commands reduce to what their grid function says of the rows. -/

namespace Sys2Proof.Machine

/-! ### Grids given row by row (R190, R191, R194) -/

theorem gridAt_map_range (row : Nat → Samples) {n i : Nat} (j : Nat) (hi : i < n) :
    gridAt ((List.range n).map row) i j = sampleAt (row i) j := by
  simp [gridAt, List.getD_eq_getElem?_getD, hi]

theorem Transpose_map_range (n : Nat) (row : Nat → Samples) :
    Transpose n ((List.range n).map row) =
      (List.range n).map fun j => (List.range n).map fun i => sampleAt (row i) j :=
  List.map_congr_left fun j _ => List.map_congr_left fun _ hi => gridAt_map_range row j (List.mem_range.mp hi)

/-- Row `j` of the forward transform is the transform of column `j` of the transformed rows (R190). -/
theorem Fwd2DGrid_map_range (fp : Fpu) (L : Nat) (row : Nat → Samples) :
    Fwd2DGrid fp L ((List.range (2 ^ L)).map row) = (List.range (2 ^ L)).map fun j =>
      Fft1 fp true L ((List.range (2 ^ L)).map fun i => sampleAt (Fft1 fp true L (row i)) j) := by
  rw [Fwd2DGrid, List.map_map, Transpose_map_range, List.map_map]
  rfl

/-- Row `b` of the inverse is the inverse of column `b` of the inverted rows, divided by `N * N` before it (R194). -/
theorem Inv2DGrid_map_range (fp : Fpu) (L : Nat) (row : Nat → Samples) :
    Inv2DGrid fp L ((List.range (2 ^ L)).map row) = (List.range (2 ^ L)).map fun b =>
      Ifft1 fp L ((List.range (2 ^ L)).map fun a =>
        CdivR fp (sampleAt (Ifft1 fp L (row a)) b) (intToF64 (2 ^ L * 2 ^ L : Nat))) := by
  simp only [Inv2DGrid, List.map_map, Transpose_map_range, Function.comp_def]

/-! ### The commands (R192, R196) -/

/-- Settles O22: the grid read back is the forward transform of the luma grid, whose rows are the columns of the
picture. -/
theorem forwardImageTransformCommand : Obligations.ForwardImageTransformCommand := by
  intro ps n s hs hn hW hH
  obtain ⟨t, hexec, hread, hframe⟩ := completes_bodyGridFrom (f := Fwd2DGrid) hs hn hW hH
  refine ⟨t, (exec_fwd2d ps s).trans hexec, fun i j hi hj => ?_, hframe⟩
  rw [hread i j hi hj, grayGrid, hW, Gray, Fwd2DGrid_map_range, gridAt_map_range _ j hi]
  rfl

/-- The next state of INV2D within capacity (R196). -/
theorem exec_inv2d (pd : PixBuf) {s : State} (hcap : gridLog s ≤ Config.log2Nmax) : exec (.inv2d pd) s =
    .next (accept (setPixDims pd (2 ^ gridLog s) (writePixels pd (2 ^ gridLog s) (fun x y => magPixel (fpuOf s)
      (gridAt (Inv2DGrid (fpuOf s) (gridLog s) (activeGrid s (2 ^ gridLog s))) x y)) s))) :=
  runBody_ok (if_neg (Nat.not_lt.mpr hcap))

/-- What R196 and R212 say of a command that completes by writing the picture `q` of side `n` and its dimensions. -/
theorem completes_of_exec_eq_writePixels {i : Instr} {k : PixBuf} {n : Nat} {q : Nat → Nat → Pixel} {s : State}
    (hs : s.canonical = true) (hn : n ≤ Config.nmax)
    (h : exec i s = .next (accept (setPixDims k n (writePixels k n q s)))) :
    ∃ t, exec i s = .next t ∧ (∀ x y, x < n → y < n → readPixel t k x y = q x y) ∧
      pixW t k = n ∧ pixH t k = n ∧ Accepted s t ∧ UnchangedOutside (pixTouch k n) s t := by
  have hfits : n % 2 ^ 16 = n := Nat.mod_eq_of_lt (by have := nmax_le; omega)
  refine ⟨_, h, fun x y hx hy => ?_, ?_, ?_, ⟨rfl, by simp⟩, unchangedOutside_accept_writePixels k n q s⟩
  · rw [readPixel_accept_setPixDims, readPixel_writePixels hs k q hn hx hy]
  · exact (setPixDims_pixW _ k k n).trans ((if_pos rfl).trans hfits)
  · exact (setPixDims_pixH _ k k n).trans ((if_pos rfl).trans hfits)

/-- Settles O23: the picture read back is that of the inverse of the active grid, taken row by row. -/
theorem inverseImageTransformCommand : Obligations.InverseImageTransformCommand := by
  intro pd s hs hcap
  obtain ⟨t, hexec, hread, hframe⟩ :=
    completes_of_exec_eq_writePixels hs (two_pow_le_nmax.mpr hcap) (exec_inv2d pd hcap)
  refine ⟨t, hexec, fun x y hx hy => ?_, hframe⟩
  rw [hread x y hx hy, activeGrid, Inv2DGrid_map_range, gridAt_map_range _ y hx]
  rfl

end Sys2Proof.Machine
end

section
/-! PROOFS. Spectrum visualization (spec/45_visualization.md R210 to R213): the completion, the result and the frame of
VIS; the scan of R210 returns the greatest of the magnitudes; and every step from a magnitude to its byte keeps the
order of the values. -/

namespace Sys2Proof.Machine

/-! ### The command (R211, R212) -/

/-- The next state of VIS within capacity (R212). -/
theorem exec_vis (pd : PixBuf) {s : State} (hcap : gridLog s ≤ Config.log2Nmax) : exec (.vis pd) s =
    .next (accept (setPixDims pd (2 ^ gridLog s) (writePixels pd (2 ^ gridLog s) (fun x y => visPixel
      (VisValue (fpuOf s) (Cmag (fpuOf s) (readGrid s x y)) (MaxMag (fpuOf s) (activeGrid s (2 ^ gridLog s))))) s))) :=
  runBody_ok (if_neg (Nat.not_lt.mpr hcap))

/-- Settles O24: VIS completes by writing the picture of the active grid, whose pixels are R211's operations. -/
theorem visualizationCommand : Obligations.VisualizationCommand := fun pd _ hs hcap =>
  completes_of_exec_eq_writePixels hs (two_pow_le_nmax.mpr hcap) (exec_vis pd hcap)

/-! ### The greatest magnitude (R210) -/

/-- `mx` is a member of `l`, no NaN, and no member is greater. -/
structure IsGreatestValue (l : List Word64) (mx : Word64) : Prop where
  not_nan : isNaN mx = false
  mem : mx ∈ l
  upper : ∀ m ∈ l, isNaN m = true ∨ fle m mx = true

/-- One turn of the scan returns the greater of the maximum so far and the next magnitude. -/
theorem isGreatestValue_maxStep {mx : Word64} (m : Word64) (h : isNaN mx = false) :
    IsGreatestValue [mx, m] (maxStep mx m) := by
  cases hgt : fgt m mx with
  | true =>
    obtain ⟨hm, -, hkey⟩ := (fgt_iff m mx).mp hgt
    rw [maxStep, if_pos hgt]
    refine ⟨hm, by simp, fun x hx => .inr ?_⟩
    obtain rfl | rfl := List.mem_pair.mp hx
    · exact (fle_iff x m).mpr ⟨h, hm, hkey.le⟩
    · exact fle_refl hm
  | false =>
    rw [maxStep, if_neg (Bool.eq_false_iff.mp hgt)]
    refine ⟨h, by simp, fun x hx => ?_⟩
    obtain rfl | rfl := List.mem_pair.mp hx
    · exact .inr (fle_refl h)
    · cases hn : isNaN x with
      | true => exact .inl rfl
      | false =>
        have hkey : ordKey x ≤ ordKey mx :=
          not_lt.mp fun hlt => Bool.eq_false_iff.mp hgt ((fgt_iff x mx).mpr ⟨hn, h, hlt⟩)
        exact .inr ((fle_iff x mx).mpr ⟨hn, h, hkey⟩)

theorem isGreatestValue_foldl_maxStep (l : List Word64) : ∀ {init : Word64}, isNaN init = false →
    IsGreatestValue (init :: l) (l.foldl maxStep init) := by
  induction l with
  | nil =>
    intro init h
    refine ⟨h, List.mem_singleton_self init, fun m hm => .inr ?_⟩
    rw [List.mem_singleton.mp hm]
    exact fle_refl h
  | cons x l ih =>
    intro init h
    have hstep := isGreatestValue_maxStep x h
    have hrest := ih hstep.not_nan
    refine ⟨hrest.not_nan, ?_, fun m hm => ?_⟩
    · have hsub : maxStep init x :: l ⊆ init :: x :: l :=
        List.cons_subset.mpr ⟨List.mem_append_left l hstep.mem, fun _ hm => by simp [hm]⟩
      exact hsub hrest.mem
    · rcases List.mem_append.mp (show m ∈ [init, x] ++ l from hm) with hm | hm
      · have htop := (hrest.upper _ List.mem_cons_self).resolve_left (Bool.eq_false_iff.mp hstep.not_nan)
        exact (hstep.upper m hm).imp_right fun hle => fle_trans hle htop
      · exact hrest.upper m (List.mem_cons_of_mem _ hm)

/-- Lists of the same members have the same greatest value, bit for bit, where the sign bit of every member that is no
NaN is clear: two values with one key can differ only as the two zeros do. -/
theorem IsGreatestValue.unique {l l' : List Word64} {mx mx' : Word64} (h : IsGreatestValue l mx)
    (h' : IsGreatestValue l' mx') (hmem : ∀ m, m ∈ l ↔ m ∈ l') (hs : ∀ m ∈ l, NaNOrUnsigned m) : mx = mx' := by
  have hmx' : mx' ∈ l := (hmem mx').mpr h'.mem
  have hle := (h'.upper mx ((hmem mx).mp h.mem)).resolve_left (Bool.eq_false_iff.mp h.not_nan)
  have hge := (h.upper mx' hmx').resolve_left (Bool.eq_false_iff.mp h'.not_nan)
  refine ordKey_inj_nonneg ((hs mx h.mem).resolve_left (Bool.eq_false_iff.mp h.not_nan))
    ((hs mx' hmx').resolve_left (Bool.eq_false_iff.mp h'.not_nan)) (le_antisymm ?_ ?_)
  · exact ((fle_iff mx mx').mp hle).2.2
  · exact ((fle_iff mx' mx).mp hge).2.2

/-- The values the scan compares: `+0.0`, then the magnitudes row by row. -/
def scannedMagnitudes (fp : Fpu) (g : SampleGrid) : List Word64 := F0 :: g.flatten.map (Cmag fp)

theorem mem_scannedMagnitudes {fp : Fpu} {g : SampleGrid} {m : Word64} :
    m ∈ scannedMagnitudes fp g ↔ m = F0 ∨ ∃ row ∈ g, ∃ z ∈ row, m = Cmag fp z := by
  simp only [scannedMagnitudes, List.mem_cons, List.mem_map, List.mem_flatten]
  exact or_congr_right ⟨fun ⟨z, ⟨row, hrow, hz⟩, h⟩ => ⟨row, hrow, z, hz, h.symm⟩,
    fun ⟨row, hrow, z, hz, h⟩ => ⟨z, ⟨row, hrow, hz⟩, h.symm⟩⟩

theorem isGreatestValue_MaxMag (fp : Fpu) (g : SampleGrid) : IsGreatestValue (scannedMagnitudes fp g) (MaxMag fp g) := by
  have hfold : MaxMag fp g = (g.flatten.map (Cmag fp)).foldl maxStep F0 := by
    rw [List.foldl_map, List.foldl_flatten, MaxMag]
  rw [hfold]
  exact isGreatestValue_foldl_maxStep _ (by decide)

theorem nanOrUnsigned_of_mem_scannedMagnitudes {fp : Fpu} {g : SampleGrid} {m : Word64}
    (hm : m ∈ scannedMagnitudes fp g) : NaNOrUnsigned m := by
  obtain rfl | ⟨_, _, z, _, rfl⟩ := mem_scannedMagnitudes.mp hm
  · exact .inr (by decide)
  · exact nanOrUnsigned_Cmag fp z

/-- Settles O56: `MaxMag` is the greatest of the scanned values, and those of a rearranged grid are the same. -/
theorem maxMagIsTheGreatest : Obligations.MaxMagIsTheGreatest := by
  intro fp g
  have hmax := isGreatestValue_MaxMag fp g
  refine ⟨hmax.not_nan, mem_scannedMagnitudes.mp hmax.mem, fun row hrow z hz => ?_, fun g' hperm => ?_⟩
  · exact hmax.upper _ (mem_scannedMagnitudes.mpr (.inr ⟨row, hrow, z, hz, rfl⟩))
  · have hscan : (scannedMagnitudes fp g').Perm (scannedMagnitudes fp g) := (hperm.map _).cons F0
    exact (isGreatestValue_MaxMag fp g').unique hmax (fun _ => hscan.mem_iff)
      fun _ => nanOrUnsigned_of_mem_scannedMagnitudes

/-! ### The order of the picture (R213) -/

/-- From `c` on `f` keeps the order of the values, and its results lie from `d` on. -/
def MonotoneFrom (c d : Word64) (f : Word64 → Word64) : Prop :=
  ∀ a b, fle c a = true → fle a b = true → fle d (f a) = true ∧ fle (f a) (f b) = true

theorem MonotoneFrom.comp {c d e : Word64} {f g : Word64 → Word64} (hg : MonotoneFrom d e g) (hf : MonotoneFrom c d f) :
    MonotoneFrom c e fun a => g (f a) := by
  intro a b ha hab
  obtain ⟨hd, hle⟩ := hf a b ha hab
  exact hg _ _ hd hle

/-- From zero on there are the finite values and `+inf`, which is above them all: so an operation that is monotone on
the finite values, from its least result on, and keeps `+inf`, is monotone. -/
theorem monotoneFrom_of_finite {d : Word64} {f : Word64 → Word64} (hinf : f 0x7FF0000000000000 = 0x7FF0000000000000)
    (hmin : ∀ a, isFinite a = true → (0 : ℝ) ≤ f64 a → fle d (f a) = true)
    (hmono : ∀ a b, isFinite a = true → isFinite b = true → (0 : ℝ) ≤ f64 a → (f64 a : ℝ) ≤ f64 b →
      fle (f a) (f b) = true) : MonotoneFrom F0 d f := by
  have hmin' : ∀ a, fle F0 a = true → fle d (f a) = true := by
    intro a ha
    obtain rfl | fa := inf_or_finite ((fle_iff F0 a).mp ha).2.1 ha
    · have hd := ((fle_iff d (f 0)).mp (hmin 0 (by decide) f64_zero.ge)).1
      rw [hinf]
      exact pinf_top hd
    · exact hmin a fa ((nonneg_iff fa).mp ha)
  intro a b ha hab
  refine ⟨hmin' a ha, ?_⟩
  obtain rfl | fb := inf_or_finite ((fle_iff a b).mp hab).2.1 (fle_trans ha hab)
  · rw [hinf]
    exact pinf_top ((fle_iff d (f a)).mp (hmin' a ha)).2.1
  · have fa : isFinite a = true := finite_of_between (by decide) fb ha hab
    exact hmono a b fa fb ((nonneg_iff fa).mp ha) ((fle_finite fa fb).mp hab)

/-- The same of a correctly rounded operation, by the monotonicity of its exact result `F` (R101). -/
theorem monotoneFrom_of_correctlyRounded {d : Word64} {f : Word64 → Word64} {F : ℝ → ℝ}
    (hinf : f 0x7FF0000000000000 = 0x7FF0000000000000)
    (hround : ∀ a, isFinite a = true → CorrectlyRounded (F (f64 a)) (f a)) (hF : Monotone F)
    (hd : isFinite d = true) (h0 : (f64 d : ℝ) ≤ F 0) : MonotoneFrom F0 d f :=
  monotoneFrom_of_finite hinf (fun a fa ha => (hround a fa).ge hd (h0.trans (hF ha)))
    fun a b fa fb _ hab => (hround a fa).mono (hround b fb) (hF hab)

theorem monotoneFrom_fadd_F1 (fp : Fpu) : MonotoneFrom F0 F1 (fadd fp F1) := by
  refine monotoneFrom_of_correctlyRounded (F := fun x => f64 F1 + x) ?_ (fun _ fa => sumWith_finite (by decide) fa)
    (fun _ _ h => by simpa using h) (by decide) (by simp)
  simp only [fadd, sumWith, unpack_pinf, show unpack F1 = .fin false (2 ^ 52) (-52) by decide]

theorem monotoneFrom_flog10 (fp : Fpu) : MonotoneFrom F1 F0 (flog10 fp) := fun a b ha hab =>
  ⟨flog10_one fp ▸ flog10_mono fp F1 a (fle_refl (by decide)) ha, flog10_mono fp a b ha hab⟩

theorem monotoneFrom_fmul_F255 (fp : Fpu) : MonotoneFrom F0 F0 (fmul fp F255) := by
  have h255 : (0 : ℝ) ≤ f64 F255 := f64_nonneg_of_msb (by decide) (by decide)
  refine monotoneFrom_of_correctlyRounded (F := fun x => f64 F255 * x) ?_
    (fun _ fa => fmul_correctlyRounded fp (by decide) fa) (fun _ _ h => mul_le_mul_of_nonneg_left h h255) (by decide)
    (by rw [F0, f64_zero, mul_zero])
  simp only [fmul, unpack_pinf, show unpack F255 = .fin false 0x1FE00000000000 (-45) by decide]
  exact (if_neg (by decide)).trans (by decide)

theorem monotoneFrom_fdiv (fp : Fpu) {w : Word64} (hw : isFinite w = true) (h0 : (0 : ℝ) < f64 w) :
    MonotoneFrom F0 F0 fun a => fdiv fp a w := by
  have hne : f64 w ≠ 0 := fun h => by simp [h] at h0
  refine monotoneFrom_of_correctlyRounded (F := fun x => x / f64 w) ?_
    (fun _ fa => fdiv_correctlyRounded fp fa hw hne) (fun _ _ h => div_le_div_of_nonneg_right h h0.le) (by decide)
    (by rw [F0, f64_zero, zero_div])
  obtain ⟨m, e, hu, -⟩ := unpack_fin hw
  have hs : w.msb = false := sign_eq_false_of_pos hu (by exact_mod_cast h0)
  simp only [fdiv, unpack_pinf, hu, hs]
  decide

theorem monotoneFrom_ffloor (fp : Fpu) : MonotoneFrom F0 F0 (ffloor fp) := by
  have hval : ∀ a, isFinite a = true → (0 : ℝ) ≤ f64 a →
      isFinite (ffloor fp a) = true ∧ (f64 (ffloor fp a) : ℝ) = ⌊(f64 a : ℝ)⌋ := fun a fa ha =>
    ffloor_value fp fa fun hlt => absurd hlt.2 (not_lt.mpr (by exact_mod_cast ha))
  refine monotoneFrom_of_finite (ffloor_inf fp (by decide)) (fun a fa ha => ?_) fun a b fa fb ha hab => ?_
  · obtain ⟨hfin, hfloor⟩ := hval a fa ha
    refine (nonneg_iff hfin).mpr ?_
    rw [hfloor]
    exact_mod_cast Int.floor_nonneg.mpr ha
  · obtain ⟨hfin, hfloor⟩ := hval a fa ha
    obtain ⟨hfin', hfloor'⟩ := hval b fb (ha.trans hab)
    rw [fle_finite hfin hfin', hfloor, hfloor']
    exact_mod_cast Int.floor_le_floor hab

/-- R211 as the chain of its five operations. -/
theorem monotoneFrom_VisValue (fp : Fpu) {mx : Word64} (hfin : isFinite (flog10 fp (fadd fp F1 mx)) = true)
    (hpos : (0 : ℝ) < f64 (flog10 fp (fadd fp F1 mx))) : MonotoneFrom F0 F0 fun m => VisValue fp m mx :=
  (monotoneFrom_ffloor fp).comp ((monotoneFrom_fdiv fp hfin hpos).comp ((monotoneFrom_fmul_F255 fp).comp
    ((monotoneFrom_flog10 fp).comp (monotoneFrom_fadd_F1 fp))))

/-- Saturation at either end keeps the order, and between them the byte is the floor (R114). -/
theorem toU8_mono {a b : Word64} (h0 : fle F0 a = true) (hab : fle a b = true) : (toU8 a).toNat ≤ (toU8 b).toNat := by
  by_cases hb : fge b F256 = true
  · rw [toU8_of_ge hb]
    exact Nat.le_of_lt_succ (toU8 a).isLt
  by_cases ha : fle a F0 = true
  · rw [toU8_of_le ha]
    exact Nat.zero_le _
  obtain rfl | fb := inf_or_finite ((fle_iff a b).mp hab).2.1 (fle_trans h0 hab)
  · exact absurd (by decide) hb
  have fa : isFinite a = true := finite_of_between (by decide) fb h0 hab
  have hle : (f64 a : ℝ) ≤ f64 b := (fle_finite fa fb).mp hab
  have ha0 : (0 : ℝ) < f64 a := by
    rw [fle_finite fa (by decide), F0, f64_zero] at ha
    exact not_le.mp ha
  have hb256 : (f64 b : ℝ) < 256 := by
    rw [← f64_F256, ← ordKey_lt_iff fb (by decide)]
    exact not_le.mp fun h => hb ((fge_iff b F256).mpr ⟨isFinite_not_isNaN fb, by decide, h⟩)
  norm_cast at hle ha0 hb256
  zify
  rw [toU8_of_between fa ha0 (hle.trans_lt hb256), toU8_of_between fb (ha0.trans_le hle) hb256]
  exact Int.floor_le_floor hle

/-- What lies strictly between `+0.0` and `+inf` is a positive finite value. -/
theorem finite_pos_of_between {a : Word64} (h0 : fgt a F0 = true) (hinf : fgt 0x7FF0000000000000 a = true) :
    isFinite a = true ∧ (0 : ℝ) < f64 a := by
  obtain ⟨hnan, hnan0, hkey⟩ := (fgt_iff a F0).mp h0
  obtain ⟨-, -, hkey'⟩ := (fgt_iff _ a).mp hinf
  obtain rfl | fa := inf_or_finite hnan ((fle_iff F0 a).mpr ⟨hnan0, hnan, hkey.le⟩)
  · exact absurd hkey' (lt_irrefl _)
  · refine ⟨fa, ?_⟩
    rw [← f64_zero]
    exact (ordKey_lt_iff (by decide) fa).mp hkey

/-- Settles O57: the five operations of R211 and the conversion to a byte each keep the order. -/
theorem visualizationIsMonotone : Obligations.VisualizationIsMonotone := by
  intro fp m1 m2 mx h0 hle hpos hinf
  obtain ⟨hfin, hpos⟩ := finite_pos_of_between hpos hinf
  obtain ⟨h0', hle'⟩ := monotoneFrom_VisValue fp hfin hpos m1 m2 h0 hle
  exact toU8_mono h0' hle'

end Sys2Proof.Machine
end

section
/-! PROOFS. The system (spec/46_system.md R220 to R222): the invariant under a step, what an event but a command does to
`STATUS`, the accesses of the data spaces, and NOP. -/

namespace Sys2Proof.Machine

/-! ### The invariant under a step (R27, R50, R58, R222, R231) -/

theorem inv_iff (s : State) : s.inv = true ↔ s.canonical = true ∧ s.inRange = true ∧ s.statusOk = true := by
  simp only [State.inv, Bool.and_eq_true, and_assoc]

/-- A word that is executed is rejected, which writes no storage, or writes inside the spaces. -/
theorem execute_keeps_storage {w : Word32} {s t : State} (h : execute w s = .next t) (hcan : s.canonical = true)
    (hrange : s.inRange = true) : t.canonical = true ∧ t.inRange = true := by
  rcases execute_cases h with ⟨e, rfl⟩ | ⟨s', hs', rfl⟩
  · exact ⟨hcan, hrange⟩
  · obtain ⟨hkeepCan, hkeepRange⟩ := hs'.keeps
    exact ⟨hkeepCan hcan, hkeepRange hrange⟩

theorem event_keeps_storage {e : HostEvent} {s t : State} (h : event e s = .next t) (hcan : s.canonical = true)
    (hrange : s.inRange = true) : t.canonical = true ∧ t.inRange = true := by
  obtain ⟨-, ⟨sp, idx, n, -, rfl⟩ | ⟨v, -, -, hexec⟩ | ⟨sp, idx, n, v, -, -, hidx, rfl⟩ | ⟨-, rfl⟩⟩ := event_cases h
  · exact ⟨hcan, hrange⟩
  · exact execute_keeps_storage hexec hcan hrange
  · exact ⟨canonical_portWrite sp idx v hcan, inRange_portWrite v hidx hrange⟩
  · exact ⟨rfl, rfl⟩

/-- Which events are still to come is no part of the storage. -/
theorem step_keeps_storage {s t : State} (h : step s = .next t) (hcan : s.canonical = true)
    (hrange : s.inRange = true) : t.canonical = true ∧ t.inRange = true := by
  cases hinbox : s.inbox with
  | nil =>
    cases (step_of_inbox_nil hinbox).symm.trans h
    exact ⟨hcan, hrange⟩
  | cons e rest => exact event_keeps_storage ((step_of_inbox_cons hinbox).symm.trans h) hcan hrange

theorem step_keeps_statusOk {s t : State} (h : step s = .next t) (hs : s.statusOk = true) : t.statusOk = true := by
  rw [statusOk_iff] at hs ⊢
  rcases step_status h with ⟨herr, hsticky⟩ | ⟨hle, hsticky⟩ | ⟨-, hzero⟩
  · rwa [herr, hsticky]
  · exact ⟨hle, or_iff_not_imp_left.mpr fun hne => hsticky.trans (if_neg hne)⟩
  · exact ⟨by simp [hzero], .inl hzero⟩

/-- Settles O33: a step keeps each part of the invariant. -/
theorem stepKeepsInvariant : Obligations.StepKeepsInvariant := by
  intro s t hs h
  obtain ⟨hcan, hrange, hstatus⟩ := (inv_iff s).mp hs
  obtain ⟨hcan', hrange'⟩ := step_keeps_storage h hcan hrange
  exact (inv_iff t).mpr ⟨hcan', hrange', step_keeps_statusOk h hstatus⟩

/-! ### Events and `STATUS` (R222, R230) -/

/-- A write of `REG:1` that fits its access is the typed write of `CMD` (R51). -/
theorem memWrite_cmd_eq_RegWrite {v : Nat} (hv : v < 2 ^ 32) :
    HostEvent.memWrite .reg 1 4 v = RegWrite 1 (BitVec.ofNat 32 v) := by
  rw [RegWrite, BitVec.toNat_ofNat, Nat.mod_eq_of_lt hv]
  rfl

/-- Settles O29: of the four kinds of event, a read and another write leave `STATUS`; the other two are excluded. -/
theorem onlyCommandsChangeStatus : Obligations.OnlyCommandsChangeStatus := by
  intro e s t h hreset hcmd
  obtain ⟨-, ⟨sp, idx, n, -, rfl⟩ | ⟨v, rfl, hv, -⟩ | ⟨sp, idx, n, v, -, -, -, rfl⟩ | ⟨rfl, -⟩⟩ := event_cases h
  · exact ⟨rfl, rfl⟩
  · exact absurd (memWrite_cmd_eq_RegWrite hv) (hcmd _)
  · exact status_portWrite sp idx v s
  · exact absurd rfl hreset

/-! ### Reads of the data spaces (R51, R52, R56) -/

theorem event_memRead {sp : Space} {idx n : Nat} (hsize : n = sp.elemBytes) (hidx : idx < sp.elems) (s : State) :
    event (.memRead sp idx n) s = .next { s with replies := s.replies ++ [portRead s sp idx] } :=
  event_of_wellFormed s (wellFormed_memRead hsize hidx)

theorem cregOf_cregIndex (r : CReg) (part : Part) : cregOf (cregIndex r part) = r := by
  have hpart := partIndex_lt part
  have hr := r.isLt
  refine Fin.ext ?_
  simp only [cregOf, cregIndex, Fin.val_ofNat]
  omega

theorem cregRead_re (s : State) (r : CReg) : cregRead s (cregIndex r .re) = (readC s r).re := by
  rw [cregRead, cregOf_cregIndex, if_pos (by simp [cregIndex, partIndex])]

theorem cregRead_im (s : State) (r : CReg) : cregRead s (cregIndex r .im) = (readC s r).im := by
  rw [cregRead, cregOf_cregIndex, if_neg (by simp [cregIndex, partIndex])]

theorem portRead_pixSpace (s : State) (k : PixBuf) (x y : Nat) (ch : Channel) :
    portRead s (pixSpace k) (pixIndex x y ch) = .byte (readChannel s k x y ch) := by
  cases k <;> rfl

theorem event_CRead (r : CReg) (part : Part) (s : State) : event (CRead r part) s =
    .next { s with replies := s.replies ++ [.part (cregRead s (cregIndex r part))] } :=
  event_memRead rfl (cregIndex_lt r part) s

theorem event_VecRead (i : Coord) (part : Part) (s : State) : event (VecRead i part) s =
    .next { s with replies := s.replies ++ [portRead s .vec (vecIndex i.val part)] } :=
  event_memRead rfl (vecIndex_lt part i.isLt) s

theorem event_GridRead (i j : Coord) (part : Part) (s : State) : event (GridRead i j part) s =
    .next { s with replies := s.replies ++ [portRead s .grid (gridIndex i.val j.val part)] } :=
  event_memRead rfl (gridIndex_lt part i.isLt j.isLt) s

theorem event_PixRead (k : PixBuf) (x y : Coord) (ch : Channel) (s : State) : event (PixRead k x y ch) s =
    .next { s with replies := s.replies ++ [.byte (readChannel s k x.val y.val ch)] } := by
  rw [← portRead_pixSpace]
  exact event_memRead (pixSpace_elemBytes k).symm (pixIndex_lt ch k x.isLt y.isLt) s

/-! ### Writes of the data spaces (R56, R59) -/

theorem event_memWrite {sp : Space} {idx v : Nat} (hsp : sp ≠ .reg) (hidx : idx < sp.elems)
    (hv : v < 2 ^ (8 * sp.elemBytes)) (s : State) :
    event (.memWrite sp idx sp.elemBytes v) s = .next (portWrite sp idx v s) := by
  have hwf := wellFormed_memWrite rfl hidx rfl (BitVec.ofNat (8 * sp.elemBytes) v)
  rw [BitVec.toNat_ofNat, Nat.mod_eq_of_lt hv] at hwf
  rw [event_of_wellFormed s hwf]
  exact if_neg fun hcmd => hsp hcmd.1

/-- Two elements of `CREG` belong to one register when their halves are equal (R52). -/
theorem cregOf_eq_iff {i j : Nat} (hi : i < Space.creg.elems) (hj : j < Space.creg.elems) :
    cregOf i = cregOf j ↔ i / 2 = j / 2 := by
  simp only [Space.elems] at hi hj
  simp only [cregOf, Fin.ext_iff, Fin.val_ofNat]
  omega

theorem cregRead_cregWrite_same (i : Nat) (v : Word64) (s : State) : cregRead (cregWrite i v s) i = v := by
  rw [cregRead, cregWrite, readC_writeC, if_pos rfl]
  split <;> rfl

/-- A write of one part keeps the other part and every other register. -/
theorem cregRead_cregWrite_other {i j : Nat} (hi : i < Space.creg.elems) (hj : j < Space.creg.elems) (hne : j ≠ i)
    (v : Word64) (s : State) : cregRead (cregWrite i v s) j = cregRead s j := by
  rw [cregRead, cregRead, cregWrite, readC_writeC]
  by_cases hreg : cregOf i = cregOf j
  · have hhalf := (cregOf_eq_iff hi hj).mp hreg
    rw [if_pos hreg, hreg]
    by_cases heven : j % 2 = 0
    · rw [if_pos heven, if_pos heven, if_neg (by omega)]
    · rw [if_neg heven, if_neg heven, if_pos (by omega)]
  · rw [if_neg hreg]

/-- The reply to a read of an element of a data space that holds `v` (R50, R51). -/
def dataReply (sp : Space) (v : Nat) : Reply :=
  if sp = .pix0 ∨ sp = .pix1 then .byte (BitVec.ofNat 8 v) else .part (BitVec.ofNat 64 v)

theorem portRead_portWrite_same {s : State} (hs : s.canonical = true) {sp : Space} (hsp : sp ≠ .reg) (idx v : Nat) :
    portRead (portWrite sp idx v s) sp idx = dataReply sp v := by
  cases sp with
  | reg => exact absurd rfl hsp
  | creg => exact congrArg Reply.part (cregRead_cregWrite_same idx _ s)
  | vec => exact congrArg Reply.part (Mem.read_write_same _ idx _ (canonical_vec hs))
  | grid => exact congrArg Reply.part (Mem.read_write_same _ idx _ (canonical_grid hs))
  | pix0 => exact congrArg Reply.byte (Mem.read_write_same _ idx _ (canonical_pix hs .p0))
  | pix1 => exact congrArg Reply.byte (Mem.read_write_same _ idx _ (canonical_pix hs .p1))

theorem portRead_portWrite_same_space {s : State} {sp : Space} (hsp : sp ≠ .reg) {i j : Nat} (hi : i < sp.elems)
    (hj : j < sp.elems) (hne : j ≠ i) (v : Nat) : portRead (portWrite sp i v s) sp j = portRead s sp j := by
  cases sp with
  | reg => exact absurd rfl hsp
  | creg => exact congrArg Reply.part (cregRead_cregWrite_other hi hj hne _ s)
  | vec => exact congrArg Reply.part (Mem.read_write_other _ _ s.vec hne)
  | grid => exact congrArg Reply.part (Mem.read_write_other _ _ s.grid hne)
  | pix0 => exact congrArg Reply.byte (Mem.read_write_other _ _ s.pix0 hne)
  | pix1 => exact congrArg Reply.byte (Mem.read_write_other _ _ s.pix1 hne)

/-- The write of an element of a data space is no part of what a read of another space sees. -/
theorem portRead_portWrite_other_space {s : State} {sp sp' : Space} (hsp : sp ≠ .reg) (hne : sp' ≠ sp) (i j v : Nat) :
    portRead (portWrite sp i v s) sp' j = portRead s sp' j := by
  cases sp with
  | reg => exact absurd rfl hsp
  | creg => cases sp' with
    | creg => exact absurd rfl hne
    | reg | vec | grid | pix0 | pix1 => rfl
  | vec => cases sp' with
    | vec => exact absurd rfl hne
    | reg | creg | grid | pix0 | pix1 => rfl
  | grid => cases sp' with
    | grid => exact absurd rfl hne
    | reg | creg | vec | pix0 | pix1 => rfl
  | pix0 => cases sp' with
    | pix0 => exact absurd rfl hne
    | reg | creg | vec | grid | pix1 => rfl
  | pix1 => cases sp' with
    | pix1 => exact absurd rfl hne
    | reg | creg | vec | grid | pix0 => rfl

theorem unchangedOutside_portWrite {sp : Space} {idx : Nat} (hsp : sp ≠ .reg) (hidx : idx < sp.elems) (v : Nat)
    (s : State) : UnchangedOutside (fun sp' idx' => sp' = sp ∧ idx' = idx) s (portWrite sp idx v s) := by
  refine ⟨fun sp' idx' hidx' htouch => ?_, ?_⟩
  · by_cases hspace : sp' = sp
    · subst hspace
      exact portRead_portWrite_same_space hsp hidx hidx' (fun h => htouch ⟨rfl, h⟩) v
    · exact portRead_portWrite_other_space hsp hspace idx idx' v
  · cases sp with
    | reg => exact absurd rfl hsp
    | creg | vec | grid | pix0 | pix1 => exact ⟨rfl, rfl, rfl⟩

/-- Settles O27: the typed reads by their index maps, the writes by what a read sees of a written element. -/
theorem dataAccesses : Obligations.DataAccesses := by
  refine ⟨fun s r i j x y k => ?_, fun sp idx s hs hsp hidx => ⟨event_memRead rfl hidx s, fun v hv => ?_⟩⟩
  · exact ⟨cregRead_re s r ▸ event_CRead r .re s, cregRead_im s r ▸ event_CRead r .im s, event_VecRead i .re s,
      event_VecRead i .im s, event_GridRead i j .re s, event_GridRead i j .im s, event_PixRead k x y .r s,
      event_PixRead k x y .g s, event_PixRead k x y .b s, event_PixRead k x y .a s⟩
  · exact ⟨_, event_memWrite hsp hidx hv s, portRead_portWrite_same hs hsp idx v,
      unchangedOutside_portWrite hsp hidx v s⟩

/-! ### NOP (R220) -/

theorem statusWord_accept (s : State) : statusWord (accept s) = if s.sticky then 0x00000100 else 0x00000000 := by
  rw [statusWord, accept_sticky, accept_lastErr]
  cases s.sticky <;> decide

theorem opField_eq_zero {w : Word32} (h : w &&& 0xFF000000 = 0) : opField w = 0 := by
  have hbyte := congrArg (BitVec.extractLsb' 24 8) h
  rw [BitVec.extractLsb'_and, show (0xFF000000 : Word32).extractLsb' 24 8 = BitVec.allOnes 8 by decide,
    BitVec.and_allOnes] at hbyte
  exact hbyte

/-- The one row of `OP` 0x00 fixes every bit (R89). -/
theorem row_of_op_zero : ∀ row ∈ opcodeTable, row.op = 0 → row.mask = BitVec.allOnes 32 ∧ row.value = 0 := by
  simp [opcodeTable]

theorem decode_illegal_of_op_zero {w : Word32} (hne : w ≠ 0) (hop : w &&& 0xFF000000 = 0) :
    ∃ why, decode w = .illegal why := by
  refine decode_of_no_match fun row hrow hmatch => hne ?_
  obtain ⟨hmask, hvalue⟩ := row_of_op_zero row hrow ((opField_of_match hrow hmatch).symm.trans (opField_eq_zero hop))
  rwa [hmask, hvalue, BitVec.and_allOnes] at hmatch

/-- Settles O14: NOP completes with nothing written, and its row matches the word zero alone. -/
theorem nopChangesNothingElse : Obligations.NopChangesNothingElse := by
  refine ⟨fun s => ⟨accept s, rfl, ⟨rfl, rfl⟩, ⟨fun _ _ _ => portRead_accept, rfl, rfl, rfl⟩, ?_⟩, by decide,
    fun w => decode_illegal_of_op_zero⟩
  exact congrArg Reply.word (statusWord_accept s)

end Sys2Proof.Machine
end

section
/-! PROOFS. Rejection (spec/60_exceptions.md): which words are illegal, what a rejected command leaves, and which code it
reports. -/

namespace Sys2Proof.Machine

/-! ### Illegal words (R90, R91, R232) -/

/-- No two rows share an `OP` byte. -/
theorem row_eq_of_op_eq {row row' : Row} (h : row ∈ opcodeTable) (h' : row' ∈ opcodeTable) (hop : row.op = row'.op) :
    row = row' :=
  Option.some.inj ((find?_opcodeTable h).symm.trans (hop ▸ find?_opcodeTable h'))

/-- A word of no row's `OP` byte matches no row. -/
theorem no_match_of_unassigned {w : Word32} (h : ∀ row ∈ opcodeTable, row.op ≠ opField w) :
    ∀ row ∈ opcodeTable, w &&& row.mask ≠ row.value :=
  fun row hrow hmatch => h row hrow (opField_of_match hrow hmatch).symm

/-- A word that breaks the fixed bits of its `OP` byte's row matches no other row either. -/
theorem no_match_of_mustBeZero {w : Word32} {row : Row} (hrow : row ∈ opcodeTable) (hop : row.op = opField w)
    (hne : w &&& row.mask ≠ row.value) : ∀ row' ∈ opcodeTable, w &&& row'.mask ≠ row'.value := by
  intro row' hrow' hmatch
  obtain rfl := row_eq_of_op_eq hrow hrow' (hop.trans (opField_of_match hrow' hmatch))
  exact hne hmatch

theorem execute_of_no_command {w : Word32} (h : ∀ i, decode w ≠ .command i) (s : State) :
    execute w s = .next (reject .illegalCmd s) := by
  cases hw : decode w with
  | illegal why => exact execute_of_illegal hw s
  | command i => exact absurd hw (h i)

/-- Settles O5: either kind of word matches no row, so it decodes to no command and is rejected. -/
theorem illegalWordRejected : Obligations.IllegalWordRejected := by
  intro w s h
  have hnone : ∀ row ∈ opcodeTable, w &&& row.mask ≠ row.value := by
    rcases h with hunassigned | ⟨row, hrow, hop, hne⟩
    · exact no_match_of_unassigned hunassigned
    · exact no_match_of_mustBeZero hrow hop hne
  obtain ⟨why, hwhy⟩ := decode_of_no_match hnone
  exact (event_RegWrite_cmd w s).trans (execute_of_illegal hwhy s)

/-! ### What a rejected command leaves (R231, R242) -/

/-- Settles O11: of the two ways to execute a word, an acceptance leaves `LAST_ERR = 0` and a rejection writes `STATUS`. -/
theorem rejectionChangesStatusAlone : Obligations.RejectionChangesStatusAlone := by
  intro w s t h herr
  rcases execute_cases h with ⟨e, rfl⟩ | ⟨s', -, rfl⟩
  · obtain ⟨hlow, hhigh, -⟩ := code_bounds e
    exact ⟨e.code, hlow, hhigh, rfl⟩
  · exact absurd (accept_lastErr s') herr

/-! ### The first cause that applies (R173, R175, R233 to R236, R240) -/

theorem checkSquarePow2_capacity {W H : Nat} (h : Config.nmax < W ∨ Config.nmax < H) :
    CheckSquarePow2 W H = .error .capacity :=
  if_pos h

theorem checkSquarePow2_dimMismatch {W H : Nat} (hW : W ≤ Config.nmax) (hH : H ≤ Config.nmax) (hne : W ≠ H) :
    CheckSquarePow2 W H = .error .dimMismatch := by
  rw [CheckSquarePow2, if_neg (by omega), if_pos hne]

theorem checkSquarePow2_unsupportedSize {W H : Nat} (hW : W ≤ Config.nmax) (hsquare : W = H) (hpow : ∀ n, W ≠ 2 ^ n) :
    CheckSquarePow2 W H = .error .unsupportedSize := by
  have hnot : ¬ isPow2 W = true := fun h => by
    obtain ⟨n, hn⟩ := (isPow2_iff W).mp h
    exact hpow n hn
  rw [CheckSquarePow2, if_neg (by omega), if_neg (not_not.mpr hsquare), if_neg hnot]

/-- GRAY and FWD2D are rejected with the code of the size check. -/
theorem exec_of_check_error {ps : PixBuf} {i : Instr} (hi : i ∈ [Instr.gray ps, Instr.fwd2d ps]) {s : State} {e : ErrCode}
    (hcheck : CheckSquarePow2 (pixW s ps) (pixH s ps) = .error e) : exec i s = .next (reject e s) := by
  obtain ⟨f, hexec⟩ := exists_exec_eq_bodyGridFrom hi
  exact (hexec s).trans (runBody_bodyGridFrom_of_error hcheck)

/-- PAD with one buffer for both operands is rejected before its dimensions are read (R175, R240). -/
theorem exec_pad_aliased (k : PixBuf) (s : State) : exec (.pad k k) s = .next (reject .aliased s) :=
  runBody_error (body := bodyPad k k) (if_pos rfl)

theorem exec_pad_capacity {pd ps : PixBuf} (hne : pd ≠ ps) {s : State}
    (h : Config.nmax < pixW s ps ∨ Config.nmax < pixH s ps) : exec (.pad pd ps) s = .next (reject .capacity s) :=
  runBody_error (body := bodyPad pd ps) (by rw [bodyPad, if_neg hne, if_pos h])

/-- The one-dimensional transforms are rejected above capacity (R158, R160, R236). -/
theorem exec_vec_capacity {s : State} (h : Config.log2Nmax < vecLog s) :
    ∀ i ∈ [Instr.fft1d false, Instr.fft1d true, Instr.ifft1d], exec i s = .next (reject .capacity s) := by
  simp only [List.forall_mem_cons, List.not_mem_nil, false_implies, implies_true, and_true]
  exact ⟨runBody_error (body := bodyFft1d false) (if_pos h), runBody_error (body := bodyFft1d true) (if_pos h),
    runBody_error (body := bodyIfft1d) (if_pos h)⟩

/-- INV2D and VIS are rejected above capacity (R196, R212, R236). -/
theorem exec_grid_capacity {s : State} (h : Config.log2Nmax < gridLog s) (pd : PixBuf) :
    ∀ i ∈ [Instr.inv2d pd, Instr.vis pd], exec i s = .next (reject .capacity s) := by
  simp only [List.forall_mem_cons, List.not_mem_nil, false_implies, implies_true, and_true]
  exact ⟨runBody_error (body := bodyInv2d pd) (if_pos h), runBody_error (body := bodyVis pd) (if_pos h)⟩

/-- Settles O12: the commands' rejections one by one; GRAY and FWD2D report what the size check finds first. -/
theorem rejectionCodeByPriority : Obligations.RejectionCodeByPriority := by
  refine fun s => ⟨fun w h => execute_of_no_command h s, fun k => exec_pad_aliased k s,
    fun _ _ hne => exec_pad_capacity hne,
    fun ps i hi => ⟨fun h => ?_, fun hW hH hne => ?_, fun hW hsquare hpow => ?_⟩, exec_vec_capacity, exec_grid_capacity⟩
  · exact exec_of_check_error hi (checkSquarePow2_capacity h)
  · exact exec_of_check_error hi (checkSquarePow2_dimMismatch hW hH hne)
  · exact exec_of_check_error hi (checkSquarePow2_unsupportedSize hW hsquare hpow)

end Sys2Proof.Machine
end

section
/-! PROOFS. Reset (spec/70_reset_and_hazards.md R260 to R262): a state after reset is `State.afterReset` of its count
and of the model's own lists, whatever these are, so each claim about reset is one about that state. -/

namespace Sys2Proof.Machine

/-- A reset event always answers, with the state after the next reset (R260). -/
theorem event_reset (s : State) :
    event .reset s = .next (State.afterReset (s.resets + 1) s.draws s.inbox s.replies) := rfl

theorem exists_eq_afterReset {s t : State} (h : t = State.reset ∨ event .reset s = .next t) :
    ∃ n draws inbox replies, t = State.afterReset n draws inbox replies := by
  rcases h with rfl | hevent
  · exact ⟨0, 0, [], [], rfl⟩
  · rw [event_reset] at hevent
    injection hevent with heq
    exact ⟨_, _, _, _, heq.symm⟩

section
variable {n draws : Nat} {inbox : List HostEvent} {replies : List Reply}

/-! ### The control registers (R261) -/

@[simp] theorem afterReset_lastErr : (State.afterReset n draws inbox replies).lastErr = 0 := rfl

@[simp] theorem afterReset_sticky : (State.afterReset n draws inbox replies).sticky = false := rfl

theorem statusWord_afterReset : statusWord (State.afterReset n draws inbox replies) = 0x00000000 := by
  rw [statusWord_eq_append, afterReset_lastErr, afterReset_sticky]
  decide

@[simp] theorem pixW_afterReset (k : PixBuf) : pixW (State.afterReset n draws inbox replies) k = 0 := by cases k <;> rfl

@[simp] theorem pixH_afterReset (k : PixBuf) : pixH (State.afterReset n draws inbox replies) k = 0 := by cases k <;> rfl

@[simp] theorem gridLog_afterReset : gridLog (State.afterReset n draws inbox replies) = 0 := rfl

@[simp] theorem vecLog_afterReset : vecLog (State.afterReset n draws inbox replies) = 0 := rfl

/-! ### The invariant (R27, R39, R262) -/

/-- No element is stored: every one reads as its unspecified value (log entries 1, 2). -/
theorem canonical_afterReset : (State.afterReset n draws inbox replies).canonical = true :=
  (canonical_iff _).mpr ⟨Mem.wf_nil _, Mem.wf_nil _, fun k => by cases k <;> exact Mem.wf_nil _⟩

theorem inRange_afterReset : (State.afterReset n draws inbox replies).inRange = true :=
  (inRange_iff _).mpr ⟨rfl, rfl, fun k => by cases k <;> rfl⟩

theorem statusOk_afterReset : (State.afterReset n draws inbox replies).statusOk = true :=
  (statusOk_iff _).mpr ⟨Nat.zero_le 5, .inl afterReset_lastErr⟩

theorem inv_afterReset : (State.afterReset n draws inbox replies).inv = true :=
  (inv_iff _).mpr ⟨canonical_afterReset, inRange_afterReset, statusOk_afterReset⟩

end

/-! ### The statements -/

/-- Settles O6: the registers by the definition of that state, `STATUS` and the active sizes by their lemmas. -/
theorem resetControlRegisters : Obligations.ResetControlRegisters := by
  refine ⟨fun s => ⟨_, event_reset s⟩, fun s t h => ?_⟩
  obtain ⟨n, draws, inbox, replies, rfl⟩ := exists_eq_afterReset h
  have hstatus : portRead (State.afterReset n draws inbox replies) .reg 2 = .word 0x00000000 :=
    congrArg Reply.word statusWord_afterReset
  exact ⟨afterReset_lastErr, afterReset_sticky, hstatus, rfl, rfl, rfl, rfl, rfl, rfl, rfl, rfl,
    fun k => ⟨pixW_afterReset k, pixH_afterReset k⟩, by rw [gridLog_afterReset, pow_zero],
    by rw [vecLog_afterReset, pow_zero]⟩

/-- Settles O34: the machine starts in the state after reset number 0, which like every one meets the invariant. -/
theorem resetMeetsInvariant : Obligations.ResetMeetsInvariant := inv_afterReset

end Sys2Proof.Machine
end
